-- ==== Sys2Proof/Word.lean ====
section
/-! DEFINITION. The two value types of the block: bytes and 32-bit words (R11). -/

namespace Sys2Proof

/-- A byte: 8 bits, bit 7 most significant (R11). -/
abbrev Byte := BitVec 8

/-- A word: 32 bits, bit 31 most significant (R11). Only the checksum and the announced file length are words. -/
abbrev Word := BitVec 32

end Sys2Proof
end

