-- ==== Sys2Proof/Config.lean ====
section
/-! DEFINITION. The parameters of R9: what the document fixes, what an instance fixes when it is built, and the
host's configuration. There is no free value: the spec leaves no result undefined. -/

namespace Sys2Proof

/-- `DELIM`, the reserved delimiter byte that ends every frame on the wire (R9). -/
def delimByte : Byte := 0x00#8

/-- `RUN_MAX`, the largest number of payload bytes one length marker covers (R9). -/
def runMax : Nat := 254

/-- `CSUM_SIZE`, bytes of checksum appended to a chunk (R9). -/
def csumSize : Nat := 4

/-- `DELIM_SIZE`, bytes of delimiter per frame (R9). -/
def delimSize : Nat := 1

/-- `CODEC_OVH`, codec overhead byte counted by the capacity derivation (R9). -/
def codecOvh : Nat := 1

/-- `FRAME_SIZE`, target on-wire frame size, at its default (R9). -/
def frameSizeDefault : Nat := 256

/-- `CAP` of a frame size: `FRAME_SIZE - (CSUM_SIZE + DELIM_SIZE + CODEC_OVH)` (R9, R151, conflict C1). A frame size below 7
gives 0, which is no capacity: the host refuses to start on it (R10, R151). -/
def capOf (frameSize : Nat) : Nat := frameSize - (csumSize + delimSize + codecOvh)

/-- `TOK_SIZE_ACK`, the 8 ASCII bytes of "SIZE_ACK" (R9, R70). -/
def tokSizeAck : List Byte := [0x53#8, 0x49#8, 0x5A#8, 0x45#8, 0x5F#8, 0x41#8, 0x43#8, 0x4B#8]

/-- `TOK_ACK`, the 3 ASCII bytes of "ACK" (R9, R70). -/
def tokAck : List Byte := [0x41#8, 0x43#8, 0x4B#8]

/-- `POLL_MS`, the Transport Gate's polling interval in milliseconds; timing only, no rule reads it (R9, R233). -/
def pollMs : Nat := 100

/-- `BAUD`, the transport's default baud rate; out of scope, no rule reads it (R9, R8). -/
def baudDefault : Nat := 115200

/-- What an instance fixes when it is built (R9, R28, R33). `none` stands for `inf`. No step writes it. -/
structure Params where
  /-- `BUF_CAP`, capacity in bytes of the carry-over buffer (R9, R24). -/
  bufCap : Option Nat
  /-- `OP_CAP`, largest operand length in bytes the command port accepts (R9, R189). -/
  opCap  : Option Nat
  /-- How many events the block holds before it stops accepting RX tokens (R226, U24). -/
  evCap  : Option Nat
  /-- `TAIL01`, whether `encode` writes a closing `0x01` after a final full run (R9, R91). -/
  tail01 : Bool
  deriving DecidableEq, Repr

/-- The parameters the model starts with: the values that reproduce the document (section 7 of 92_eei_decisions.md).
DESIGN CHOICE (log entries 1 and 15), except `tail01`, which R9 decides. -/
def Params.default : Params := { bufCap := none, opCap := none, evCap := none, tail01 := false }

/-- `BUF_CAP >= 1` (R10), and an instance can hold at least one event (U24). -/
def Params.wf (p : Params) : Bool := p.bufCap != some 0 && p.evCap != some 0

/-- Is there room for one more item beside `n` items under the capacity `cap`? -/
def roomFor (cap : Option Nat) (n : Nat) : Bool :=
  match cap with
  | none => true
  | some k => decide (n < k)

end Sys2Proof
end

