-- ==== Sys2Proof/Syntax.lean ====
section
/-! DEFINITION. The operations of the block, one constructor per row of spec/opcode_table.json (R3, R72, R73). -/

namespace Sys2Proof

/-- The three encoding formats: the `rx_in` beat (R61), the `cmd_in` beat (R64), the wire code byte (R67). -/
inductive Format where
  | rxi
  | cmd
  | wire
  deriving DecidableEq, Repr

/-- The width of a format in bits. -/
def Format.width : Format → Nat
  | .rxi => 9
  | .cmd => 10
  | .wire => 8

/-- An operation of PWF. The operand bytes of a command come before it, in `opbyte` beats (R64). -/
inductive Instr where
  /-- `DATA b`, a received byte `0x01..0xFF` (R111). -/
  | data (b : Byte)
  /-- `DELIM`, the received byte `0x00` (R112). -/
  | delim
  /-- `END`, stream end; the beat's data field is ignored (R113, R61). -/
  | endStream
  /-- `ENC` (R92). -/
  | enc
  /-- `DEC` (R97). -/
  | dec
  /-- `FRAME` (R101). -/
  | frame
  /-- `CRC` (R134). -/
  | crc
  /-- `ATTACH` (R135). -/
  | attach
  /-- `CHUNK` (R136). -/
  | chunk
  /-- `VALIDATE` (R137). -/
  | validate
  /-- `OPBYTE b`, one operand byte of the command that the next closing beat names (R64). -/
  | opbyte (b : Byte)
  /-- `BLK c`, a wire block with code byte `0x01..0xFE` (R98). -/
  | blk (c : Byte)
  /-- `FULL`, a wire block with code byte `0xFF` (R99). -/
  | full
  /-- `ZERO`, the byte `0x00` inside the input of decode (R100). -/
  | zero
  /-- `OP7`, the reserved operation number (R73, R186). -/
  | op7
  /-- `CMD_RSVD`, every other reserved `cmd_in` beat (R73, R186). -/
  | cmdRsvd (tag : BitVec 2) (data : Byte)
  deriving DecidableEq, Repr

/-- The format that carries an operation (R72). -/
def Instr.format : Instr → Format
  | .data _ => .rxi
  | .delim => .rxi
  | .endStream => .rxi
  | .enc => .cmd
  | .dec => .cmd
  | .frame => .cmd
  | .crc => .cmd
  | .attach => .cmd
  | .chunk => .cmd
  | .validate => .cmd
  | .opbyte _ => .cmd
  | .blk _ => .wire
  | .full => .wire
  | .zero => .wire
  | .op7 => .cmd
  | .cmdRsvd _ _ => .cmd

end Sys2Proof
end

