-- ==== Sys2Proof/WellFormed.lean ====
section
/-! DEFINITION. Which terms of `Instr` are operations: the constraints of spec/opcode_table.json. -/

namespace Sys2Proof

/-- `DATA` carries `0x01..0xFF` (R61), `BLK` a code byte `0x01..0xFE` (R67), `CMD_RSVD` a beat that no other CMD row
matches: a GO beat with data `0x08..0xFF`, or tag `10` or `11` (R73). The other operations have no constraint. -/
def Instr.wellFormed : Instr → Bool
  | .data b => b != 0x00#8
  | .delim => true
  | .endStream => true
  | .enc => true
  | .dec => true
  | .frame => true
  | .crc => true
  | .attach => true
  | .chunk => true
  | .validate => true
  | .opbyte _ => true
  | .blk c => c != 0x00#8 && c != 0xFF#8
  | .full => true
  | .zero => true
  | .op7 => true
  | .cmdRsvd t d => (t == 1#2 && decide (8 ≤ d.toNat)) || decide (2 ≤ t.toNat)

end Sys2Proof
end

