-- ==== Sys2Proof/Decode.lean ====
section
/-! DEFINITION. Decoding the three formats (R61, R64, R67, R72, R73), and after it the encoder. -/

namespace Sys2Proof

/-- An encoded operation: one beat of a port, or one code byte of an encoded payload. -/
inductive Beat where
  /-- A 9-bit `rx_in` beat: `end` in bit 8, `data` in bits 7 to 0 (R61). -/
  | rxi (w : BitVec 9)
  /-- A 10-bit `cmd_in` beat: `tag` in bits 9 and 8, `data` in bits 7 to 0 (R64). -/
  | cmd (w : BitVec 10)
  /-- The 8-bit code byte of a wire block (R67). -/
  | wire (w : BitVec 8)
  deriving DecidableEq, Repr

/-- The format of an encoded operation. -/
def Beat.format : Beat → Format
  | .rxi _ => .rxi
  | .cmd _ => .cmd
  | .wire _ => .wire

/-- The bits of an encoded operation as a number. -/
def Beat.bits : Beat → Nat
  | .rxi w => w.toNat
  | .cmd w => w.toNat
  | .wire w => w.toNat

/-- The `end` bit of an RXI beat (R61). -/
def rxiEnd (w : BitVec 9) : BitVec 1 := w.extractLsb' 8 1

/-- The `data` field of an RXI beat (R61). -/
def rxiData (w : BitVec 9) : Byte := w.extractLsb' 0 8

/-- The `tag` field of a CMD beat (R64). -/
def cmdTag (w : BitVec 10) : BitVec 2 := w.extractLsb' 8 2

/-- The `data` field of a CMD beat (R64). -/
def cmdData (w : BitVec 10) : Byte := w.extractLsb' 0 8

/-- R61, in its match order: `END`, `DELIM`, `DATA`. Every value selects one event. -/
def decodeRxi (w : BitVec 9) : Instr :=
  if rxiEnd w = 1#1 then .endStream
  else if rxiData w = 0x00#8 then .delim
  else .data (rxiData w)

/-- The operation a GO beat's data field names (R64, R72, R73). -/
def decodeGo (data : Byte) : Instr :=
  if data = 0x00#8 then .enc
  else if data = 0x01#8 then .dec
  else if data = 0x02#8 then .frame
  else if data = 0x03#8 then .crc
  else if data = 0x04#8 then .attach
  else if data = 0x05#8 then .chunk
  else if data = 0x06#8 then .validate
  else if data = 0x07#8 then .op7
  else .cmdRsvd 1#2 data

/-- R64 and R73: tag `00` BYTE, tag `01` GO, the other tags reserved. Every value selects one row. -/
def decodeCmd (w : BitVec 10) : Instr :=
  if cmdTag w = 0#2 then .opbyte (cmdData w)
  else if cmdTag w = 1#2 then decodeGo (cmdData w)
  else .cmdRsvd (cmdTag w) (cmdData w)

/-- R67: the three classes of code byte. -/
def decodeWire (w : BitVec 8) : Instr :=
  if w = 0x00#8 then .zero
  else if w = 0xFF#8 then .full
  else .blk w

/-- Decoding is total: every encoded value selects exactly one operation. -/
def decode : Beat → Instr
  | .rxi w => decodeRxi w
  | .cmd w => decodeCmd w
  | .wire w => decodeWire w

/-- Why a number is no encoded operation. -/
inductive DecodeError where
  /-- The number does not fit the width of the format. -/
  | tooWide
  deriving DecidableEq, Repr

/-- A number as an encoded operation of a format; a number too wide for the format is rejected by name. -/
def beatOfNat (f : Format) (w : Nat) : Except DecodeError Beat :=
  if w < 2 ^ f.width then
    .ok (match f with
      | .rxi => .rxi (BitVec.ofNat 9 w)
      | .cmd => .cmd (BitVec.ofNat 10 w)
      | .wire => .wire (BitVec.ofNat 8 w))
  else .error .tooWide

/-- Decoding of a number in a format. -/
def decodeNat (f : Format) (w : Nat) : Except DecodeError Instr :=
  match beatOfNat f w with
  | .ok b => .ok (decode b)
  | .error e => .error e

/-! ### The encoder, written from the same tables (R61, R64, R67, R72, R73) -/

/-- An RXI beat from its fields (R61). -/
def rxiBeat (e : BitVec 1) (data : Byte) : BitVec 9 := e ++ data

/-- A CMD beat from its fields (R64). -/
def cmdBeat (tag : BitVec 2) (data : Byte) : BitVec 10 := tag ++ data

/-- The encoding of an operation. The ignored data field of `END` is written as zero (R61: any value). -/
def encode : Instr → Beat
  | .data b => .rxi (rxiBeat 0#1 b)
  | .delim => .rxi (rxiBeat 0#1 0x00#8)
  | .endStream => .rxi (rxiBeat 1#1 0x00#8)
  | .enc => .cmd (cmdBeat 1#2 0x00#8)
  | .dec => .cmd (cmdBeat 1#2 0x01#8)
  | .frame => .cmd (cmdBeat 1#2 0x02#8)
  | .crc => .cmd (cmdBeat 1#2 0x03#8)
  | .attach => .cmd (cmdBeat 1#2 0x04#8)
  | .chunk => .cmd (cmdBeat 1#2 0x05#8)
  | .validate => .cmd (cmdBeat 1#2 0x06#8)
  | .opbyte b => .cmd (cmdBeat 0#2 b)
  | .blk c => .wire c
  | .full => .wire 0xFF#8
  | .zero => .wire 0x00#8
  | .op7 => .cmd (cmdBeat 1#2 0x07#8)
  | .cmdRsvd tag data => .cmd (cmdBeat tag data)

/-! ### The opcode table's words, for the host -/

/-- The format in which a word of `nbits` bits is read. 8, 9 and 10 bits are the widths of the three formats. A 16-bit container
(9 or 10 bits in whole bytes) does not say which port the word is for; the model reads it as a `cmd_in` beat when it is a GO beat that
names an operation number (`0x100..0x107`) or has more than 9 bits, and as an `rx_in` beat otherwise.
DESIGN CHOICE (log entry 16). -/
def tableFormat (nbits w : Nat) : Option Format :=
  if nbits = 8 then some .wire
  else if nbits = 9 then some .rxi
  else if nbits = 10 then some .cmd
  else if nbits = 16 then
    if (0x100 ≤ w ∧ w ≤ 0x107) ∨ 0x200 ≤ w then some .cmd else some .rxi
  else none

/-- The encoded operation of an opcode-table word. -/
def tableBeat (nbits w : Nat) : Option Beat :=
  match tableFormat nbits w with
  | none => none
  | some f =>
    match beatOfNat f w with
    | .ok b => some b
    | .error _ => none

/-- The instruction the decoder reads from a word numbered as the opcode table numbers it; none where it refuses. -/
def decodeTableWord (nbits w : Nat) : Option Instr :=
  match tableBeat nbits w with
  | none => none
  | some b => some (decode b)

end Sys2Proof
end

