-- ==== Sys2Proof/Machine/State.lean ====
section
/-! DEFINITION. The state of the block, its ports and its host, as plain data; the reset state; how a step can stop. -/

namespace Sys2Proof.Machine

/-- The status codes of R181. -/
inductive Status where
  /-- `OK`, code 0x00. -/
  | ok
  /-- `E_OVERRUN`, code 0x01 (R182). -/
  | overrun
  /-- `E_ZERO`, code 0x02 (R183). -/
  | zero
  /-- `E_OVERFLOW`, code 0x03 (R184). -/
  | overflow
  /-- `E_BADSUM`, code 0x04 (R185). -/
  | badsum
  /-- `E_SHORT`, code 0x05 (R185). -/
  | short
  /-- `E_ILLEGAL`, code 0x06 (R186). -/
  | illegal
  /-- `E_TOOLONG`, code 0x07 (R189). -/
  | toolong
  deriving DecidableEq, Repr

/-- An item of the RX output trace (R26): a decoded frame, or a frame that could not be delivered. -/
inductive Event where
  | msg (p : List Byte)
  | err (code : Status)
  deriving DecidableEq, Repr

/-- The response to one command (R65). -/
structure Response where
  status : Status
  bytes  : List Byte
  deriving DecidableEq, Repr

/-- The result of `decode` (R96). -/
inductive DecResult where
  | ok (p : List Byte)
  | err (code : Status)
  deriving DecidableEq, Repr

/-- Where a run of decode's loop stands. -/
inductive WireStatus where
  /-- Blocks are left to read. -/
  | running
  /-- The loop ended: `out` is the result. -/
  | done
  /-- The loop failed. -/
  | failed (code : Status)
  deriving DecidableEq, Repr

/-- The variables of decode's loop (R96): the input `w`, the index `i`, the output `out`. The model's view of the inside of one
decode (log entry 7); a token's step runs the loop to its end and does not leave it here. -/
structure Wire where
  input  : List Byte
  pos    : Nat
  out    : List Byte
  status : WireStatus
  deriving DecidableEq, Repr

/-- No decode is being looked into. -/
def Wire.idle : Wire := { input := [], pos := 0, out := [], status := .done }

/-- The Transfer Engine's states (R152). -/
inductive EngineState where
  | idle
  | announcingSize
  | awaitingSizeAck
  | sendingChunk
  | awaitingChunkAck
  | done
  deriving DecidableEq, Repr

/-- The engine's command at the port (R155, R159): its beats go through `cmd_in` like everybody's (R48, R60). A reset ends it (R211(c), log entry 25). -/
inductive Call where
  /-- No command of the engine's is outstanding. -/
  | idle
  /-- The engine waits for the response with this number since reset, counted from 0. -/
  | waits (nth : Nat)
  deriving DecidableEq, Repr

/-- The host's state (R150), and its side of the ports. -/
structure HostState where
  /-- The file content; immutable (R150). -/
  data     : List Byte
  /-- `C`, the chunk capacity; immutable (R150, R151). -/
  capacity : Nat
  /-- The cursor of R150 and R160. -/
  offset   : Nat
  /-- The engine's state name. -/
  st       : EngineState
  /-- The frame built and waiting at the Transport Gate (R153). -/
  frame    : List Byte
  /-- The frames written to the transport, oldest first (R154). -/
  txo      : List (List Byte)
  /-- How many events of `rxo` the host has taken (R26, R226). -/
  taken    : Nat
  /-- How many `rx_out` beats of the next event have been transferred (R60, R63). -/
  rxSent   : Nat
  /-- How many responses of `rspo` the host has taken (R65, R168). -/
  rspTaken : Nat
  /-- How many `rsp_out` beats of the next response have been transferred (R60, R65). -/
  rspSent  : Nat
  /-- The engine's command at the port. -/
  call     : Call
  deriving DecidableEq, Repr

/-- The host before a transfer (R150): `st = Idle`, `offset = 0`, the default capacity. That no file content is given is a DESIGN
CHOICE (log entry 10). -/
def HostState.initial : HostState :=
  { data := [], capacity := capOf frameSizeDefault, offset := 0, st := .idle, frame := [], txo := [], taken := 0,
    rxSent := 0, rspTaken := 0, rspSent := 0, call := .idle }

/-- What the host's software meets from outside it (R152 to R159). -/
inductive HostMove where
  /-- The `START` event (R156). -/
  | start
  /-- The Transport Gate opens: the transport reports it is writable (R153). -/
  | writable
  /-- The write of the waiting frame fails (R154). -/
  | writeFails
  /-- The host takes the next event of `rxo` whole: the event level of `rx_out` (R26, R62, R157, R158). -/
  | takeEvent
  /-- One beat is transferred on `rx_out` (R60, R63); the last beat of an event takes it. -/
  | rxBeat
  /-- The host takes the next response whole: the event level of `rsp_out` (R64, R168). -/
  | takeResponse
  /-- One beat is transferred on `rsp_out` (R60, R65); the last beat of a response takes it. -/
  | rspBeat
  deriving DecidableEq, Repr

/-- One move of the system: which agent steps, or what the outside does. -/
inductive Move where
  /-- The host offers a beat on `rx_in` (R60). -/
  | offerRx (w : BitVec 9)
  /-- The host offers a beat on `cmd_in` (R60). -/
  | offerCmd (w : BitVec 10)
  /-- The RX agent accepts and handles the oldest beat offered on `rx_in`, if it is ready (R60, R114). -/
  | rx
  /-- The command agent accepts and handles the oldest beat offered on `cmd_in` (R60). -/
  | cmd
  /-- One block of the decode loop in `State.wire` is read (R98 to R100). -/
  | block
  /-- A clock edge with `rst = 1` (R210); the two bits say whether the host goes on offering the beats not yet accepted on
  `rx_in` and on `cmd_in` (R211(d)). -/
  | rst (keepRx keepCmd : Bool)
  /-- A move of the host. -/
  | host (m : HostMove)
  /-- The environment ends the run (R213). -/
  | kill
  deriving DecidableEq, Repr

/-- The state. The first four fields are the block's state of R20; the next two are the command being collected (R32, R189). -/
structure State where
  /-- The carry-over buffer (R23, R40). -/
  carry   : List Byte
  /-- A byte of the current frame was dropped (R24). -/
  poison  : Bool
  /-- An `END` was handled since reset (R25). -/
  closed  : Bool
  /-- The RX output trace (R26). -/
  rxo     : List Event
  /-- The operand buffer (R32). -/
  operand : List Byte
  /-- The command is marked too long (R189). -/
  tooLong : Bool
  /-- The responses produced since reset (R65). -/
  rspo    : List Response
  /-- The decode loop's variables (R96, log entry 7). -/
  wire    : Wire
  /-- Beats offered on `rx_in` and not accepted, oldest first (R31, R60). -/
  rxIn    : List (BitVec 9)
  /-- Beats offered on `cmd_in` and not accepted, oldest first (R60). -/
  cmdIn   : List (BitVec 10)
  /-- The host (R150). -/
  host    : HostState
  /-- Which moves come next (log entry 2). -/
  sched   : List Move
  /-- The parameters (R9); never written. -/
  params  : Params
  deriving DecidableEq, Repr

/-- The state right after reset (R34, R210), with the host before a transfer and nothing offered. -/
def State.reset : State :=
  { carry := [], poison := false, closed := false, rxo := [], operand := [], tooLong := false, rspo := [], wire := Wire.idle,
    rxIn := [], cmdIn := [], host := HostState.initial, sched := [], params := Params.default }

/-- How a step can stop. -/
inductive Fault where
  /-- Raised by the host when the write of a frame fails (R154, R202: fault of the host run). Safe. -/
  | transportError
  /-- Raised by the move `kill` (R213, R202: the run ends, not in a final state). Safe. -/
  | killed
  deriving DecidableEq, Repr

/-- Why an instruction has no meaning in the model. -/
inductive Refusal where
  /-- Raised by a refused arm of `exec` for an instruction not modelled yet; no arm is refused. Safe. -/
  | notModelled (mnemonic : String)
  deriving DecidableEq, Repr

/-- The outcome of a step of this machine. -/
abbrev Result := Host.Outcome State Fault Refusal

end Sys2Proof.Machine
end

