-- ==== Sys2Proof/Machine/Operands.lean ====
section
/-! DEFINITION. How multi-bit operands are put together and taken apart (R13, R71), the numbering of the commands (R64) and of the
status codes (R181), the beats of a command (R64), and the pseudo-operation PUSH (R77). -/

namespace Sys2Proof.Machine

/-- `s[i..j)`, the slice of R12. -/
def slice (s : List Byte) (i j : Nat) : List Byte := (s.drop i).take (j - i)

/-- `LE32(v)`: least significant byte first (R13). -/
def le32 (v : Word) : List Byte :=
  [v.extractLsb' 0 8, v.extractLsb' 8 8, v.extractLsb' 16 8, v.extractLsb' 24 8]

/-- `unLE32(s)`, defined in R13 for a sequence of exactly 4 bytes: the weighted sum of the bytes, least significant first. -/
def unLe32 (s : List Byte) : Word :=
  BitVec.ofNat 32 (s.foldr (fun b n => b.toNat + 256 * n) 0)

/-- The code of a status (R181). -/
def statusCode : Status → Byte
  | .ok => 0x00#8
  | .overrun => 0x01#8
  | .zero => 0x02#8
  | .overflow => 0x03#8
  | .badsum => 0x04#8
  | .short => 0x05#8
  | .illegal => 0x06#8
  | .toolong => 0x07#8

/-- The status a code stands for; codes 0x08 to 0xFF are never produced and stand for none (R181). -/
def statusOfCode (c : Byte) : Option Status :=
  if c = 0x00#8 then some .ok
  else if c = 0x01#8 then some .overrun
  else if c = 0x02#8 then some .zero
  else if c = 0x03#8 then some .overflow
  else if c = 0x04#8 then some .badsum
  else if c = 0x05#8 then some .short
  else if c = 0x06#8 then some .illegal
  else if c = 0x07#8 then some .toolong
  else none

/-- The seven legal operations of the command port, by name (R64). -/
inductive CmdOp where
  | enc
  | dec
  | frame
  | crc
  | attach
  | chunk
  | validate
  deriving DecidableEq, Repr

/-- The closing beat's operation, as an instruction (R64, R72). -/
def opInstr : CmdOp → Instr
  | .enc => .enc
  | .dec => .dec
  | .frame => .frame
  | .crc => .crc
  | .attach => .attach
  | .chunk => .chunk
  | .validate => .validate

/-- The data field of the GO beat that names an operation (R64). -/
def opCode : CmdOp → Byte
  | .enc => 0x00#8
  | .dec => 0x01#8
  | .frame => 0x02#8
  | .crc => 0x03#8
  | .attach => 0x04#8
  | .chunk => 0x05#8
  | .validate => 0x06#8

/-- The `cmd_in` beats of an operand (R64, R71). -/
def operandBeats (operand : List Byte) : List (BitVec 10) := operand.map (cmdBeat 0#2)

/-- The `cmd_in` beats of a command: its operand, then the GO beat (R64). -/
def commandBeats (op : CmdOp) (operand : List Byte) : List (BitVec 10) :=
  operandBeats operand ++ [cmdBeat 1#2 (opCode op)]

/-- Does a `cmd_in` beat close a command? A GO beat does, and so does a beat with a reserved tag (R64, R73). -/
def closesCommand (w : BitVec 10) : Bool := cmdTag w != 0#2

/-- `PUSH b`: the RX token for a received byte (R77, R61). -/
def pushInstr (b : Byte) : Instr :=
  if b = delimByte then .delim else .data b

/-- The tokens of a whole command at the port: one `OPBYTE` per operand byte, then the closing beat (R64). -/
def commandInstrs (op : CmdOp) (operand : List Byte) : List Instr :=
  operand.map .opbyte ++ [opInstr op]

end Sys2Proof.Machine
end

