-- ==== Sys2Proof/Machine/CodecFns.lean ====
section
/-! DEFINITION. The pure functions of U1: `encode` (R90, R91), the byte-at-a-time encoder (R102), `decode` (R96), and one block of
decode's loop (R98 to R100). -/

namespace Sys2Proof.Machine

/-- The segments of a payload: its cut at the zero bytes (R90). There is always at least one. -/
def segments : List Byte → List (List Byte)
  | [] => [[]]
  | b :: p =>
    if b = 0x00#8 then [] :: segments p
    else
      match segments p with
      | [] => [[b]]
      | g :: gs => (b :: g) :: gs

/-- `q` full pieces of a segment, each a `FULL` block (R91). -/
def fullBlocks : Nat → List Byte → List Byte
  | 0, _ => []
  | q + 1, g => (0xFF#8 :: g.take runMax) ++ fullBlocks q (g.drop runMax)

/-- `segenc(s, last)` of R91. -/
def segenc (tail01 : Bool) (g : List Byte) (last : Bool) : List Byte :=
  let n := g.length
  let t := g.drop (runMax * (n / runMax))
  fullBlocks (n / runMax) g ++
    (if last = true ∧ 0 < n ∧ n % runMax = 0 ∧ tail01 = false then [] else BitVec.ofNat 8 (t.length + 1) :: t)

/-- The encodings of a payload's segments one after another, the last one as the last (R91). -/
def encodeSegments (tail01 : Bool) : List (List Byte) → List Byte
  | [] => []
  | [g] => segenc tail01 g true
  | g :: gs => segenc tail01 g false ++ encodeSegments tail01 gs

/-- `encode(p)` (R91). -/
def codecEncode (tail01 : Bool) (p : List Byte) : List Byte := encodeSegments tail01 (segments p)

/-- The variables of the byte-at-a-time encoder (R102): the output, the index of the open block's code byte, the code so far. -/
structure EncState where
  out  : List Byte
  cp   : Nat
  code : Nat
  deriving DecidableEq, Repr

/-- One byte of the procedure of R102. `more` says that a byte follows (`k < |p|-1`). The placeholder is a zero byte. -/
def encodeByte (tail01 : Bool) (e : EncState) (b : Byte) (more : Bool) : EncState :=
  let e1 : EncState := if b ≠ 0x00#8 then { e with out := e.out ++ [b], code := e.code + 1 } else e
  if b = 0x00#8 ∨ e1.code = 255 then
    let out := e1.out.set e1.cp (BitVec.ofNat 8 e1.code)
    let cp := out.length
    if b = 0x00#8 ∨ more = true ∨ tail01 = true then { out := out ++ [0x00#8], cp := cp, code := 1 }
    else { out := out, cp := cp, code := 1 }
  else e1

/-- The loop of R102 over the rest of the payload. -/
def encodeBytes (tail01 : Bool) : EncState → List Byte → EncState
  | e, [] => e
  | e, b :: p => encodeBytes tail01 (encodeByte tail01 e b (!p.isEmpty)) p

/-- The byte-at-a-time encoder of R102. -/
def streamEncode (tail01 : Bool) (p : List Byte) : List Byte :=
  let e := encodeBytes tail01 { out := [0x00#8], cp := 0, code := 1 } p
  if e.cp < e.out.length then e.out.set e.cp (BitVec.ofNat 8 e.code) else e.out

/-- The `while` loop of R96 from index `i` with output `out`. Each round uses one unit of fuel; `codecDecode` gives one unit more than
there can be rounds, so the first case is never reached from it (log entry 19). -/
def decodeLoop : Nat → List Byte → Nat → List Byte → DecResult
  | 0, _, _, _ => .err .overrun
  | n + 1, w, i, out =>
    match w[i]? with
    | none => .ok out
    | some c =>
      if w.length < i + c.toNat then .err .overrun
      else
        let out1 := out ++ slice w (i + 1) (i + c.toNat)
        let i1 := i + c.toNat
        decodeLoop n w i1 (if c.toNat < 255 ∧ i1 < w.length then out1 ++ [0x00#8] else out1)

/-- `decode(w)` (R96): the zero check over the whole input first, then the loop. -/
def codecDecode (w : List Byte) : DecResult :=
  if 0x00#8 ∈ w then .err .zero else decodeLoop (w.length + 1) w 0 []

/-! ### One block at a time (R98 to R100) -/

/-- The start of a decode: `out <- ε ; i <- 0`. An empty input has no block (R96). -/
def wireStart (w : List Byte) : Wire :=
  { input := w, pos := 0, out := [], status := if w = [] then .done else .running }

/-- A decode fails: no partial output is returned (R96). -/
def wireFail (code : Status) (u : Wire) : Wire := { u with out := [], status := .failed code }

/-- Go on after a block that ended at `i` with `out`. -/
def wireAdvance (i : Nat) (out : List Byte) (u : Wire) : Wire :=
  { u with pos := i, out := out, status := if i < u.input.length then .running else .done }

/-- `BLK c` (R98): the data bytes, and an implied zero when a byte of `w` follows the block. -/
def wireBlk (c : Byte) (u : Wire) : Wire :=
  if u.input.length < u.pos + c.toNat then wireFail .overrun u
  else
    let out := u.out ++ slice u.input (u.pos + 1) (u.pos + c.toNat)
    let i := u.pos + c.toNat
    wireAdvance i (if i < u.input.length then out ++ [0x00#8] else out) u

/-- `FULL` (R99): 254 data bytes, and no implied zero. -/
def wireFull (u : Wire) : Wire :=
  if u.input.length < u.pos + 255 then wireFail .overrun u
  else wireAdvance (u.pos + 255) (u.out ++ slice u.input (u.pos + 1) (u.pos + 255)) u

/-- `ZERO` (R100): decode fails. -/
def wireZero (u : Wire) : Wire := wireFail .zero u

/-- The wire operation that decode's loop reads next: `ZERO` if any byte of the input is zero (R100), else the class of the code byte at
index `i` (R67). None when the loop has ended. -/
def wireNext (u : Wire) : Option Instr :=
  match u.status with
  | .done => none
  | .failed _ => none
  | .running =>
    if 0x00#8 ∈ u.input then some .zero
    else
      match u.input[u.pos]? with
      | none => none
      | some c => some (decode (.wire c))

end Sys2Proof.Machine
end

