-- ==== Sys2Proof/Machine/Flags.lean ====
section
/-! DEFINITION. The two flags, `poison` and `closed` (R24, R25). The block has no condition codes (R27). -/

namespace Sys2Proof.Machine

/-- `poison <- 1` (R24, R111). -/
def setPoison (s : State) : State := { s with poison := true }

/-- `poison <- 0` (R112, R113). -/
def clearPoison (s : State) : State := { s with poison := false }

/-- `closed <- 1` (R25, R113). -/
def setClosed (s : State) : State := { s with closed := true }

end Sys2Proof.Machine
end

