-- ==== Sys2Proof/Machine/Ops.lean ====
section
/-! DEFINITION. The named operations over the state: the two accesses of the carry-over buffer (R41, R42), emitting an event, answering a
command, and what a failure changes (R192), which is the block's taking of an exception; there is nothing to restore after it (R193). -/

namespace Sys2Proof.Machine

/-! ### The carry-over buffer (R40) -/

/-- `MemRead(addr, n)`: `n` bytes of the buffer from index `addr`; none where R14 does not define it. -/
def memRead (s : State) (addr n : Nat) : Option (List Byte) :=
  if addr + n ≤ s.carry.length then some (slice s.carry addr (addr + n)) else none

/-- The byte of the buffer at an index; none at an index beyond it, where there is no byte (R30). -/
def memByte (s : State) (addr : Nat) : Option Byte := s.carry[addr]?

/-- `MemWrite(|carry|, 1, [b])`, the append (R41). -/
def appendByte (b : Byte) (s : State) : State := { s with carry := s.carry ++ [b] }

/-- The frame cut (R42): `carry <- ε`, with the flag cleared (R112). The frame is the buffer's content before it. -/
def cutFrame (s : State) : State := clearPoison { s with carry := [] }

/-- The buffer as address and byte pairs, addresses rising from 0 (R30, log entry 18). -/
def memCells (carry : List Byte) : List Host.Cell := carry.zipIdx.map (fun x => (x.2, x.1))

/-- The canonical form of such a list: the addresses are `a`, `a + 1`, ... in order. -/
def cellsFrom : Nat → List Host.Cell → Bool
  | _, [] => true
  | a, c :: cs => c.1 == a && cellsFrom (a + 1) cs

/-- The buffer's cells are in canonical form. -/
def Memory.wf (carry : List Byte) : Bool := cellsFrom 0 (memCells carry)

/-! ### Events (R26) -/

/-- `emit`: append an event to the RX output trace. -/
def emit (e : Event) (s : State) : State := { s with rxo := s.rxo ++ [e] }

/-- The event that a decode's result becomes (R110). -/
def eventOf : DecResult → Event
  | .ok p => .msg p
  | .err code => .err code

/-- The event of a frame that just ended: a poisoned frame is not decoded (R112, R190). -/
def frameEvent (f : List Byte) (poisoned : Bool) : Event :=
  if poisoned then .err .overflow else eventOf (codecDecode f)

/-- The end of a frame: the buffer advances first, then the frame is decoded and its one event emitted, a message or a failure. A failure
changes exactly what a success changes (R112, R192). -/
def endFrame (s : State) : State := emit (frameEvent s.carry s.poison) (cutFrame s)

/-- The RX agent has a step only while `closed = 0` (R110, R114): while `closed = 1` the token is not accepted and nothing changes; at the port
the beat stays offered until reset (log entry 4). -/
def whileOpen (s : State) (k : State → Result) : Result :=
  if s.closed then .next s else k s

/-! ### Commands (R32, R64, R65) -/

/-- One operand byte arrives: stored while there is room, else dropped and the command marked too long (R189). -/
def collectByte (b : Byte) (s : State) : State :=
  if roomFor s.params.opCap s.operand.length then { s with operand := s.operand ++ [b] } else { s with tooLong := true }

/-- A response is produced and the command is over: the next beat begins a new one (R65, R32). -/
def respond (r : Response) (s : State) : State :=
  { s with operand := [], tooLong := false, rspo := s.rspo ++ [r] }

/-- A failed command: its code and no bytes (R65, R192). -/
def failure (code : Status) : Response := { status := code, bytes := [] }

/-- A command that succeeds. -/
def success (bytes : List Byte) : Response := { status := .ok, bytes := bytes }

/-- A closing beat that names no legal operation: `E_ILLEGAL`, the operand is discarded (R186, R190). -/
def rejectCommand (s : State) : State := respond (failure .illegal) s

/-- A closing beat that names a legal operation: `E_TOOLONG` for a command so marked, else the operation's own answer to the collected
operand (R189, R190). -/
def closeCommand (answer : List Byte → Response) (s : State) : State :=
  respond (if s.tooLong then failure .toolong else answer s.operand) s

/-! ### The answers of the seven operations -/

/-- `ENC` (R92). -/
def answerEnc (tail01 : Bool) (p : List Byte) : Response := success (codecEncode tail01 p)

/-- `DEC` (R97). -/
def answerDec (w : List Byte) : Response :=
  match codecDecode w with
  | .ok p => success p
  | .err code => failure code

/-- The wire bytes of a frame, with its delimiter (R66, R101). -/
def frameBytes (tail01 : Bool) (p : List Byte) : List Byte := codecEncode tail01 p ++ [delimByte]

/-- `FRAME` (R101). -/
def answerFrame (tail01 : Bool) (p : List Byte) : Response := success (frameBytes tail01 p)

/-- `CRC` (R134). -/
def answerCrc (s : List Byte) : Response := success (le32 (crc32 s))

/-- The chunk payload: the chunk and its checksum (R69, R135). -/
def attachBytes (chunk : List Byte) : List Byte := chunk ++ le32 (crc32 chunk)

/-- `ATTACH` (R135). -/
def answerAttach (chunk : List Byte) : Response := success (attachBytes chunk)

/-- `CHUNK` (R136): the `FRAME` of the `ATTACH`. -/
def answerChunk (tail01 : Bool) (chunk : List Byte) : Response := success (frameBytes tail01 (attachBytes chunk))

/-- `VALIDATE` (R137). -/
def answerValidate (p : List Byte) : Response :=
  if p.length < 4 then failure .short
  else
    let n := p.length - 4
    let chunk := slice p 0 n
    let given := unLe32 (slice p n (n + 4))
    if crc32 chunk = given then success chunk else failure .badsum

/-- The answer of an operation to an operand that is not too long. -/
def answerOf (tail01 : Bool) : CmdOp → List Byte → Response
  | .enc => answerEnc tail01
  | .dec => answerDec
  | .frame => answerFrame tail01
  | .crc => answerCrc
  | .attach => answerAttach
  | .chunk => answerChunk tail01
  | .validate => answerValidate

/-- Does an operand exceed `OP_CAP` (R189)? -/
def operandTooLong (p : Params) (operand : List Byte) : Bool :=
  match p.opCap with
  | none => false
  | some k => decide (k < operand.length)

/-- A command at event level: the pair `(op, operand)` to its response (R32, R64, R189). -/
def command (p : Params) (op : CmdOp) (operand : List Byte) : Response :=
  if operandTooLong p operand then failure .toolong else answerOf p.tail01 op operand

end Sys2Proof.Machine
end

