-- ==== Sys2Proof/Machine/Checksum.lean ====
section
/-! DEFINITION. U3 behind the command port: `CRC`, `ATTACH`, `CHUNK`, `VALIDATE` (R134 to R137). -/

namespace Sys2Proof.Machine

/-- `CRC` (R134). -/
def execCrc (s : State) : Result := .next (closeCommand answerCrc s)

/-- `ATTACH` (R135). -/
def execAttach (s : State) : Result := .next (closeCommand answerAttach s)

/-- `CHUNK` (R136). -/
def execChunk (s : State) : Result := .next (closeCommand (answerChunk s.params.tail01) s)

/-- `VALIDATE` (R137). -/
def execValidate (s : State) : Result := .next (closeCommand answerValidate s)

end Sys2Proof.Machine
end

