-- ==== Sys2Proof/Machine/Codec.lean ====
section
/-! DEFINITION. U1 behind the command port: `ENC`, `DEC`, `FRAME` (R92, R97, R101). -/

namespace Sys2Proof.Machine

/-- `ENC` (R92). -/
def execEnc (s : State) : Result := .next (closeCommand (answerEnc s.params.tail01) s)

/-- `DEC` (R97). -/
def execDec (s : State) : Result := .next (closeCommand answerDec s)

/-- `FRAME` (R101). -/
def execFrame (s : State) : Result := .next (closeCommand (answerFrame s.params.tail01) s)

end Sys2Proof.Machine
end

