-- ==== Sys2Proof/Machine/CommandPort.lean ====
section
/-! DEFINITION. The command port's own beats: `OPBYTE`, and the reserved `OP7` and `CMD_RSVD` (R64, R73, R186, R189). -/

namespace Sys2Proof.Machine

/-- `OPBYTE b` (R64, R189). -/
def execOpbyte (b : Byte) (s : State) : Result := .next (collectByte b s)

/-- `OP7` (R73, R186). -/
def execOp7 (s : State) : Result := .next (rejectCommand s)

/-- `CMD_RSVD` (R73, R186): the fields of the beat make no difference. -/
def execCmdRsvd (_tag : BitVec 2) (_data : Byte) (s : State) : Result := .next (rejectCommand s)

end Sys2Proof.Machine
end

