-- ==== Sys2Proof/Machine/Splitter.lean ====
section
/-! DEFINITION. U2, the Frame Splitter: `DATA`, `DELIM`, `END` (R110 to R114). -/

namespace Sys2Proof.Machine

/-- `DATA b` (R111): append while there is room, else drop the byte and mark the frame. Nothing is emitted. -/
def execData (b : Byte) (s : State) : Result :=
  whileOpen s fun s =>
    .next (if roomFor s.params.bufCap s.carry.length then appendByte b s else setPoison s)

/-- `DELIM` (R112): the frame ends, exactly one event. -/
def execDelim (s : State) : Result :=
  whileOpen s fun s => .next (endFrame s)

/-- `END` (R113): the frame ends and the RX agent closes; an empty carry-over that is not poisoned emits nothing. -/
def execEndStream (s : State) : Result :=
  whileOpen s fun s =>
    .next (setClosed (if s.poison = true ∨ s.carry ≠ [] then endFrame s else cutFrame s))

end Sys2Proof.Machine
end

