-- ==== Sys2Proof/Machine/WireBlocks.lean ====
section
/-! DEFINITION. The wire-level operations: `BLK`, `FULL`, `ZERO` act on decode's loop variables (R98 to R100). -/

namespace Sys2Proof.Machine

/-- `BLK c` (R98). -/
def execBlk (c : Byte) (s : State) : Result := .next { s with wire := wireBlk c s.wire }

/-- `FULL` (R99). -/
def execFull (s : State) : Result := .next { s with wire := wireFull s.wire }

/-- `ZERO` (R100). -/
def execZero (s : State) : Result := .next { s with wire := wireZero s.wire }

end Sys2Proof.Machine
end

