-- ==== Sys2Proof/Machine/Dispatch.lean ====
section
/-! DEFINITION. One arm per constructor of Instr. -/

namespace Sys2Proof.Machine

def exec (i : Instr) (s : State) : Host.Outcome State Fault Refusal :=
  match i with
  | .data b => Sys2Proof.Machine.execData b s
  | .delim => Sys2Proof.Machine.execDelim s
  | .endStream => Sys2Proof.Machine.execEndStream s
  | .enc => Sys2Proof.Machine.execEnc s
  | .dec => Sys2Proof.Machine.execDec s
  | .frame => Sys2Proof.Machine.execFrame s
  | .crc => Sys2Proof.Machine.execCrc s
  | .attach => Sys2Proof.Machine.execAttach s
  | .chunk => Sys2Proof.Machine.execChunk s
  | .validate => Sys2Proof.Machine.execValidate s
  | .opbyte b => Sys2Proof.Machine.execOpbyte b s
  | .blk c => Sys2Proof.Machine.execBlk c s
  | .full => Sys2Proof.Machine.execFull s
  | .zero => Sys2Proof.Machine.execZero s
  | .op7 => Sys2Proof.Machine.execOp7 s
  | .cmdRsvd tag data => Sys2Proof.Machine.execCmdRsvd tag data s

end Sys2Proof.Machine
end

