-- ==== Sys2Proof/Machine/Beats.lean ====
section
/-! DEFINITION. The output ports at beat level: the serialisation of the traces `rxo` and `rspo` (R63, R65), and how the host rebuilds
them. The event level is normative (R62, R64); of the beats the state holds how many of the next event and of the next response have been
transferred (log entry 8). -/

namespace Sys2Proof.Machine

/-- A 10-bit output beat: `tag` in bits 9 and 8, `data` in bits 7 to 0 (R63, R65). -/
def outBeat (tag : BitVec 2) (data : Byte) : BitVec 10 := tag ++ data

/-- BYTE beats. -/
def byteBeats (p : List Byte) : List (BitVec 10) := p.map (outBeat 0#2)

/-- The `rx_out` beats of an event (R63): BYTE beats and one EOM, or one ERR beat. -/
def eventBeats : Event → List (BitVec 10)
  | .msg p => byteBeats p ++ [outBeat 1#2 0x00#8]
  | .err code => [outBeat 2#2 (statusCode code)]

/-- The `rx_out` beats of a trace of events, in order (R63). -/
def rxOutBeats (es : List Event) : List (BitVec 10) := es.flatMap eventBeats

/-- The `rsp_out` beats of a response (R65): BYTE beats and one DONE. -/
def responseBeats (r : Response) : List (BitVec 10) := byteBeats r.bytes ++ [outBeat 1#2 (statusCode r.status)]

/-- The `rsp_out` beats of the responses, in command order (R65). -/
def rspOutBeats (rs : List Response) : List (BitVec 10) := rs.flatMap responseBeats

/-- The beat the block offers on `rx_out` (R60): the next one of the oldest event not taken. None when no event is left, `valid` is 0. -/
def rxOutBeat (s : State) : Option (BitVec 10) :=
  match s.rxo[s.host.taken]? with
  | none => none
  | some e => (eventBeats e)[s.host.rxSent]?

/-- The beat the block offers on `rsp_out` (R60): the next one of the oldest response not taken. -/
def rspOutBeat (s : State) : Option (BitVec 10) :=
  match s.rspo[s.host.rspTaken]? with
  | none => none
  | some r => (responseBeats r)[s.host.rspSent]?

/-- Do more beats of the next event follow the one offered? -/
def moreRxBeats (s : State) : Bool :=
  match s.rxo[s.host.taken]? with
  | none => false
  | some e => decide (s.host.rxSent + 1 < (eventBeats e).length)

/-- Do more beats of the next response follow the one offered? -/
def moreRspBeats (s : State) : Bool :=
  match s.rspo[s.host.rspTaken]? with
  | none => false
  | some r => decide (s.host.rspSent + 1 < (responseBeats r).length)

/-- How the host rebuilds the events from `rx_out` beats (R63): BYTE beats are collected until an EOM, an ERR beat is an ERR event. None for a
beat the block never produces, and for BYTE beats left without an EOM. `acc` are the bytes collected so far. -/
def parseRxOut : List Byte → List (BitVec 10) → Option (List Event)
  | [], [] => some []
  | _ :: _, [] => none
  | acc, w :: ws =>
    if cmdTag w = 0#2 then parseRxOut (acc ++ [cmdData w]) ws
    else if cmdTag w = 1#2 then (parseRxOut [] ws).map (fun es => .msg acc :: es)
    else if cmdTag w = 2#2 then
      match statusOfCode (cmdData w) with
      | none => none
      | some code => (parseRxOut [] ws).map (fun es => .err code :: es)
    else none

/-- How the host rebuilds the responses from `rsp_out` beats (R65). -/
def parseRspOut : List Byte → List (BitVec 10) → Option (List Response)
  | [], [] => some []
  | _ :: _, [] => none
  | acc, w :: ws =>
    if cmdTag w = 0#2 then parseRspOut (acc ++ [cmdData w]) ws
    else if cmdTag w = 1#2 then
      match statusOfCode (cmdData w) with
      | none => none
      | some code => (parseRspOut [] ws).map (fun rs => { status := code, bytes := acc } :: rs)
    else none

end Sys2Proof.Machine
end

