-- ==== Sys2Proof/Machine/Engine.lean ====
section
/-! DEFINITION. The host: Transport Gate and Transfer Engine (R150 to R168). It is the environment of the block (R7), modelled so that the
whole system runs. Its commands go through the ports `cmd_in` and `rsp_out` (log entry 9). -/

namespace Sys2Proof.Machine

/-- The file length of the Transfer State. -/
def fileLength (h : HostState) : Nat := h.data.length

/-- The configurations the host accepts: a positive capacity and a length that is a 32-bit word (R10, R151). -/
def configAccepted (h : HostState) : Bool := decide (1 ≤ h.capacity) && decide (fileLength h < 2 ^ 32)

/-- The chunk at a cursor: `data[offset .. min(offset + C, L))` (R159). -/
def chunkAt (data : List Byte) (capacity offset : Nat) : List Byte :=
  slice data offset (min (offset + capacity) data.length)

/-- Commands whose closing beat is offered and not yet accepted. -/
def commandsOffered (s : State) : Nat := (s.cmdIn.filter closesCommand).length

/-- A command has been begun on `cmd_in` and its closing beat is not offered yet (R64). -/
def commandOpen (s : State) : Bool :=
  match s.cmdIn.getLast? with
  | none => s.operand != [] || s.tooLong
  | some w => !closesCommand w

/-- The host's one thread is free for the engine (R166): it is not inside a command, its own or any other. The two waits of R166 are no
such case (log entry 24). -/
def hostFree (s : State) : Bool := s.host.call == .idle && !commandOpen s

/-- The engine issues a command: its beats are offered on `cmd_in` behind those already offered (R48, R60), and the engine waits for the
response that belongs to it, by its place in the order of commands (R48, R65). -/
def issueCommand (op : CmdOp) (operand : List Byte) (s : State) : State :=
  { s with cmdIn := s.cmdIn ++ commandBeats op operand,
           host := { s.host with call := .waits (s.rspo.length + commandsOffered s) } }

/-- `announceSize()` up to the command (R155). -/
def announceSize (s : State) : Result :=
  .next (issueCommand .frame (le32 (BitVec.ofNat 32 (fileLength s.host))) s)

/-- `START` (R156): enabled only in `Idle` and only with an accepted configuration; otherwise nothing happens (R151, R152). -/
def hostStart (s : State) : Result :=
  if s.host.st = .idle ∧ configAccepted s.host = true ∧ hostFree s = true then announceSize s else .next s

/-- `sendNextChunk()` up to the command (R159). -/
def sendNextChunk (s : State) : Result :=
  if s.host.offset < fileLength s.host then
    .next (issueCommand .chunk (chunkAt s.host.data s.host.capacity s.host.offset) s)
  else .next { s with host := { s.host with st := .done } }

/-- The engine's state once the frame it asked for is built (R152, R155, R159). No command is outstanding in the last three. -/
def builtState : EngineState → EngineState
  | .idle => .announcingSize
  | .awaitingSizeAck => .sendingChunk
  | .awaitingChunkAck => .sendingChunk
  | .announcingSize => .announcingSize
  | .sendingChunk => .sendingChunk
  | .done => .done

/-- The response to the engine's command arrives: its bytes are the frame to write (R154, R155, R159). The engine does not look at the status,
and a failed command has no bytes (R65; log entry 13). -/
def frameBuilt (r : Response) (h : HostState) : HostState :=
  { h with frame := r.bytes, st := builtState h.st, call := .idle }

/-- The host takes the next response, if there is one (R65, R168). The one the engine waits for becomes its frame; any other is the issuer's
and changes nothing here. -/
def hostTakeResponse (s : State) : Result :=
  match s.rspo[s.host.rspTaken]? with
  | none => .next s
  | some r =>
    let h := { s.host with rspTaken := s.host.rspTaken + 1, rspSent := 0 }
    .next { s with host := if s.host.call = .waits s.host.rspTaken then frameBuilt r h else h }

/-- One beat on `rsp_out` (R60, R65): the last beat of a response completes it. -/
def hostRspBeat (s : State) : Result :=
  if moreRspBeats s then .next { s with host := { s.host with rspSent := s.host.rspSent + 1 } } else hostTakeResponse s

/-- A frame is written to the transport whole (R154). -/
def writeFrame (h : HostState) : HostState := { h with txo := h.txo ++ [h.frame], frame := [] }

/-- The gate opens (R153): the waiting frame is written, and for a chunk the cursor advances by the full capacity (R155, R159, R160). In the
other states no frame waits (R152). -/
def hostWritable (s : State) : Result :=
  match s.host.st with
  | .announcingSize => .next { s with host := { writeFrame s.host with st := .awaitingSizeAck } }
  | .sendingChunk =>
    .next { s with host := { writeFrame s.host with st := .awaitingChunkAck, offset := s.host.offset + s.host.capacity } }
  | .idle => .next s
  | .awaitingSizeAck => .next s
  | .awaitingChunkAck => .next s
  | .done => .next s

/-- The write of a waiting frame fails: no continuation (R154). Where no frame waits, none is written and none can fail. -/
def hostWriteFails (s : State) : Result :=
  match s.host.st with
  | .announcingSize => .fault .transportError
  | .sendingChunk => .fault .transportError
  | .idle => .next s
  | .awaitingSizeAck => .next s
  | .awaitingChunkAck => .next s
  | .done => .next s

/-- Does a payload acknowledge what the engine waits for (R157)? The comparison is exact. -/
def acknowledges (st : EngineState) (p : List Byte) : Bool :=
  match st with
  | .awaitingSizeAck => p == tokSizeAck
  | .awaitingChunkAck => p == tokAck
  | .idle => false
  | .announcingSize => false
  | .sendingChunk => false
  | .done => false

/-- `onAcknowledgement(payload)` (R157). -/
def onAcknowledgement (p : List Byte) (s : State) : Result :=
  if acknowledges s.host.st p then sendNextChunk s else .next s

/-- An event taken from `rxo`: a message goes to the engine, an error changes nothing (R157, R158). -/
def onEvent (e : Event) (s : State) : Result :=
  match e with
  | .msg p => onAcknowledgement p s
  | .err _ => .next s

/-- The host takes the next event of `rxo`, if there is one and its thread is free (R26, R166, R168). -/
def hostTakeEvent (s : State) : Result :=
  if hostFree s then
    match s.rxo[s.host.taken]? with
    | none => .next s
    | some e => onEvent e { s with host := { s.host with taken := s.host.taken + 1, rxSent := 0 } }
  else .next s

/-- One beat on `rx_out` (R60, R63): the last beat of an event completes it. -/
def hostRxBeat (s : State) : Result :=
  if moreRxBeats s then .next { s with host := { s.host with rxSent := s.host.rxSent + 1 } } else hostTakeEvent s

/-- A move of the host. -/
def hostMove (m : HostMove) (s : State) : Result :=
  match m with
  | .start => hostStart s
  | .writable => hostWritable s
  | .writeFails => hostWriteFails s
  | .takeEvent => hostTakeEvent s
  | .rxBeat => hostRxBeat s
  | .takeResponse => hostTakeResponse s
  | .rspBeat => hostRspBeat s

end Sys2Proof.Machine
end

