-- ==== Sys2Proof/Machine/Agents.lean ====
section
/-! DEFINITION. What each move does: an agent takes the oldest beat of its port and runs the operation it decodes to (R48), the outside
offers beats, resets the block (R210, R211) or ends the run (R213). -/

namespace Sys2Proof.Machine

/-- Events emitted and not yet taken by the host. -/
def heldEvents (s : State) : Nat := s.rxo.length - s.host.taken

/-- `rx_in.ready`: 0 while `closed = 1` (R114), and while the block holds as many events as it can (R226). -/
def rxReady (s : State) : Bool := !s.closed && roomFor s.params.evCap (heldEvents s)

/-- The RX agent's step: the oldest beat offered on `rx_in`. With none offered, or while not ready, no beat is transferred and the block
idles and keeps all state (R60, R201); what lifts `closed` is reset (R114, R227). -/
def rxAgent (s : State) : Result :=
  match s.rxIn with
  | [] => .next s
  | w :: ws => if rxReady s then exec (decode (.rxi w)) { s with rxIn := ws } else .next s

/-- The command agent's step: the oldest beat offered on `cmd_in`. With none offered the block idles (R201). -/
def cmdAgent (s : State) : Result :=
  match s.cmdIn with
  | [] => .next s
  | w :: ws => exec (decode (.cmd w)) { s with cmdIn := ws }

/-- One block of the decode loop in `wire` (R98 to R100). -/
def blockAgent (s : State) : Result :=
  match wireNext s.wire with
  | none => .next s
  | some i => exec i s

/-- The host after a reset of the block: what it has taken restarts with the traces, beats collected of an unfinished event or response are
discarded, and so is a command of the engine's that is outstanding (R211, R168): no response to it is waited for any more, so the host goes on taking events.
The engine's state name, cursor and frames stay, and what follows from them is the table of R152 (log entry 25). -/
def resetHost (h : HostState) : HostState :=
  { h with taken := 0, rxSent := 0, rspTaken := 0, rspSent := 0, call := .idle }

/-- The block's reset (R34, R210): its own state, with events and responses not yet taken discarded (R211). -/
def blockReset (s : State) : State :=
  { s with carry := [], poison := false, closed := false, rxo := [], operand := [], tooLong := false, rspo := [],
           wire := Wire.idle, host := resetHost s.host }

/-- An edge with `rst = 1` (R210). A beat not yet accepted stays with the host, and whether the host goes on offering it is the host's
business (R211(d)). -/
def applyReset (keepRx keepCmd : Bool) (s : State) : State :=
  let t := blockReset s
  { t with rxIn := if keepRx then s.rxIn else [], cmdIn := if keepCmd then s.cmdIn else [] }

/-- One move. -/
def perform (m : Move) (s : State) : Result :=
  match m with
  | .offerRx w => .next { s with rxIn := s.rxIn ++ [w] }
  | .offerCmd w => .next { s with cmdIn := s.cmdIn ++ [w] }
  | .rx => rxAgent s
  | .cmd => cmdAgent s
  | .block => blockAgent s
  | .rst keepRx keepCmd => .next (applyReset keepRx keepCmd s)
  | .host h => hostMove h s
  | .kill => .fault .killed

/-- The next move of the schedule. With none left the block is idle and keeps all state (R201). -/
def stepSchedule (s : State) : Result :=
  match s.sched with
  | [] => .next s
  | m :: ms => perform m { s with sched := ms }

/-- Go on with a next state; a fault or a refusal stays. -/
def andThen (o : Result) (k : State → Result) : Result :=
  match o with
  | .next s => k s
  | .fault r => .fault r
  | .refused r => .refused r

/-- Operations one after another. -/
def execAll : List Instr → State → Result
  | [], s => .next s
  | i :: is, s => andThen (exec i s) (execAll is)

/-- `DELIVER s`: `PUSH` of each byte in order (R77, R115). -/
def deliver (bytes : List Byte) (s : State) : Result := execAll (bytes.map pushInstr) s

/-- A command sent to the port beat by beat (R64). -/
def sendCommand (op : CmdOp) (operand : List Byte) (s : State) : Result := execAll (commandInstrs op operand) s

/-- Place an encoded operation where the next step takes it from: its port, or the decode loop's input, and the move that takes it. A wire block
is placed as its code byte alone, since data bytes of zero would be no block (R100, log entry 17). -/
def placeBeat (b : Beat) (s : State) : State :=
  match b with
  | .rxi w => { s with rxIn := w :: s.rxIn, sched := .rx :: s.sched }
  | .cmd w => { s with cmdIn := w :: s.cmdIn, sched := .cmd :: s.sched }
  | .wire w => { s with wire := wireStart [w], sched := .block :: s.sched }

/-- `placeBeat` of an opcode-table word. -/
def placeTableWord (s : State) (nbits w : Nat) : State :=
  match tableBeat nbits w with
  | none => s
  | some b => placeBeat b s

end Sys2Proof.Machine
end

