-- ==== Sys2Proof/Machine/Trace.lean ====
section
/-! DEFINITION. The trace notation of R76 as moves of the schedule, and the document's own procedures that the operations are held against:
its per-delivery splitter (R115), the whole-stream function (R118), the rest of a decode one wire block after another (R96, R98 to R100),
and a transfer in which every frame is acknowledged (R164). -/

namespace Sys2Proof.Machine

/-- The `rx_in` beat of a received byte (R61, R77). -/
def pushBeat (b : Byte) : BitVec 9 := rxiBeat 0#1 b

/-- A line of the trace notation that gives the block something to do (R76). -/
inductive TraceLine where
  /-- `rx b0 ... bn`, one delivery. -/
  | rx (bytes : List Byte)
  /-- `end`. -/
  | endToken
  /-- `rst`. -/
  | rst
  /-- `cmd OP b0 ... bn`. -/
  | cmd (op : CmdOp) (operand : List Byte)
  /-- `cmd OP7 b0 ... bn`. -/
  | cmdOp7 (operand : List Byte)
  deriving DecidableEq, Repr

/-- A beat offered on `rx_in` and handled. -/
def rxMoves (w : BitVec 9) : List Move := [.offerRx w, .rx]

/-- A beat offered on `cmd_in` and handled. -/
def cmdMoves (w : BitVec 10) : List Move := [.offerCmd w, .cmd]

/-- The moves a line stands for (R76, R77). That the host goes on offering the beats not accepted at an `rst` line, on both ports, is a
DESIGN CHOICE (log entry 26): R211(d) leaves it to the host. -/
def lineMoves : TraceLine → List Move
  | .rx bytes => bytes.flatMap (fun b => rxMoves (pushBeat b))
  | .endToken => rxMoves (rxiBeat 1#1 0x00#8)
  | .rst => [.rst true true]
  | .cmd op operand => (commandBeats op operand).flatMap cmdMoves
  | .cmdOp7 operand => (operandBeats operand ++ [cmdBeat 1#2 0x07#8]).flatMap cmdMoves

/-- The moves of a program of the trace notation. -/
def programMoves (lines : List TraceLine) : List Move := lines.flatMap lineMoves

/-- `k` steps, stopping at the first fault or refusal. -/
def runSteps : Nat → State → Result
  | 0, s => .next s
  | k + 1, s => andThen (step s) (runSteps k)

/-- The document's `while carry contains 0x00` (R115), with fuel: each round removes a zero byte. -/
def documentLoop : Nat → State → State
  | 0, s => s
  | n + 1, s =>
    match s.carry.findIdx? (· == 0x00#8) with
    | none => s
    | some k =>
      let f := slice s.carry 0 k
      documentLoop n (emit (eventOf (codecDecode f)) { s with carry := slice s.carry (k + 1) s.carry.length })

/-- The document's procedure for a delivery (R115): `BUF_CAP = inf`. -/
def documentDeliver (bytes : List Byte) (s : State) : State :=
  let s1 := { s with carry := s.carry ++ bytes }
  documentLoop s1.carry.length s1

/-- The document's stream end (R113): what is left of the carry-over is decoded and emitted as one final message. -/
def documentEnd (s : State) : State :=
  let t := { s with carry := [], closed := true }
  if s.carry = [] then t else emit (eventOf (codecDecode s.carry)) t

/-- The document's splitter over several deliveries (R115). -/
def documentDeliverAll (ds : List (List Byte)) (s : State) : State := ds.foldl (fun t d => documentDeliver d t) s

/-- The moves of a delivery offered as a whole, then handled (R53): all its beats, then as many steps of the RX agent. -/
def deliveryMoves (bytes : List Byte) : List Move :=
  bytes.map (fun b => Move.offerRx (pushBeat b)) ++ List.replicate bytes.length .rx

/-- Is a frame longer than `BUF_CAP`? -/
def overLong (cap : Option Nat) (f : List Byte) : Bool :=
  match cap with
  | none => false
  | some k => decide (k < f.length)

/-- `ev(g)` of R118, for any `BUF_CAP`. -/
def pieceEvent (cap : Option Nat) (f : List Byte) : Event := frameEvent f (overLong cap f)

/-- What of an unfinished frame the buffer keeps (R118). -/
def pieceKept (cap : Option Nat) (f : List Byte) : List Byte :=
  match cap with
  | none => f
  | some k => f.take k

/-- The stream of frames of some payloads, as a sender writes it (R66). -/
def frameStream (tail01 : Bool) (ps : List (List Byte)) : List Byte := ps.flatMap (frameBytes tail01)

/-- The rest of a decode, one wire block after another, each run by `exec` (R98 to R100), with fuel. -/
def runBlocks : Nat → State → Result
  | 0, s => .next s
  | n + 1, s => andThen (blockAgent s) (runBlocks n)

/-- The state after one beat on `cmd_in`: such a beat always has a next state (R73). -/
def afterBeat (s : State) (w : BitVec 10) : State :=
  match exec (decode (.cmd w)) s with
  | .next t => t
  | .fault _ => s
  | .refused _ => s

/-- The responses since reset, and those that the beats already offered on `cmd_in` will produce (R48). -/
def answersAhead (s : State) : List Response := (s.cmdIn.foldl afterBeat s).rspo

/-- `START`, the block's step on the size command, its response, and the gate (R155). -/
def startMoves : List Move :=
  .host .start :: List.replicate (csumSize + 1) .cmd ++ [.host .takeResponse, .host .writable]

/-- The remote's acknowledgement arrives as a frame on `rx_in` (R70), the host takes it, the block handles the chunk command, if one was
issued, the host takes its response, and the gate opens (R157, R159). -/
def ackMoves (tok : List Byte) (capacity : Nat) : List Move :=
  lineMoves (.rx (frameBytes false tok)) ++ .host .takeEvent :: List.replicate (capacity + 1) .cmd ++
    [.host .takeResponse, .host .writable]

/-- A whole transfer of `n` chunks in which every frame is acknowledged with the right token (R164). -/
def transferMoves (n capacity : Nat) : List Move :=
  startMoves ++ ackMoves tokSizeAck capacity ++ (List.replicate n (ackMoves tokAck capacity)).flatten

/-- Does the next move hand the engine the acknowledgement it waits for (R157)? -/
def ackArrives (s : State) : Bool :=
  let matching := hostFree s &&
    match s.rxo[s.host.taken]? with
    | none => false
    | some (.msg p) => acknowledges s.host.st p
    | some (.err _) => false
  match s.sched with
  | .host .takeEvent :: _ => matching
  | .host .rxBeat :: _ => !moreRxBeats s && matching
  | _ => false

/-- No acknowledgement that the engine waits for arrives in the next `k` steps. -/
def noAckWithin : Nat → State → Bool
  | 0, _ => true
  | k + 1, s =>
    !ackArrives s &&
      match step s with
      | .next t => noAckWithin k t
      | .fault _ => true
      | .refused _ => true

/-- The result that decode's variables show once the loop is over (R96). -/
def wireOutcome (u : Wire) : Option DecResult :=
  match u.status with
  | .running => none
  | .done => some (.ok u.out)
  | .failed code => some (.err code)

end Sys2Proof.Machine
end

