-- ==== Sys2Proof/Safety.lean ====
section
/-! DEFINITION. What counts as a safe run, in the terms the claims use: the invariants of R35, the legal items of the two output traces
(R181), the invariant of a transfer (R150 to R164), and the ends of a run (R234). -/

namespace Sys2Proof.Machine

/-- The invariants (1) to (4) of R35. -/
structure BlockInv (s : State) : Prop where
  /-- (1) `0x00` does not occur in `carry`. -/
  noZero : 0x00#8 ∉ s.carry
  /-- (2) `|carry| <= BUF_CAP`. -/
  bounded : ∀ k, s.params.bufCap = some k → s.carry.length ≤ k
  /-- (3) `poison = 1` implies `|carry| = BUF_CAP`. -/
  poisonFull : s.poison = true → s.params.bufCap = some s.carry.length
  /-- (4) `closed = 1` implies `carry = ε` and `poison = 0`. -/
  closedEmpty : s.closed = true → s.carry = [] ∧ s.poison = false

/-- The event codes that can appear in `rxo` (R181). -/
def legalEvent : Event → Bool
  | .msg _ => true
  | .err code => code == .overrun || code == .overflow

/-- A response with a non-OK status has no bytes, and its status is not `E_OVERFLOW` (R65, R181). -/
def legalResponse (r : Response) : Bool := (r.status == .ok || r.bytes == []) && r.status != .overflow

/-- The output traces hold legal items only, the host has taken no more events and responses than there are, and the operand buffer keeps its bound
(R32, R181, R189). -/
structure TraceInv (s : State) : Prop where
  events : ∀ e ∈ s.rxo, legalEvent e = true
  responses : ∀ r ∈ s.rspo, legalResponse r = true
  takenBound : s.host.taken ≤ s.rxo.length
  rspTakenBound : s.host.rspTaken ≤ s.rspo.length
  operandBound : ∀ k, s.params.opCap = some k → s.operand.length ≤ k
  markedFull : s.tooLong = true → s.params.opCap = some s.operand.length

/-- The size frame of a file (R155). -/
def sizeFrame (tail01 : Bool) (data : List Byte) : List Byte :=
  frameBytes tail01 (le32 (BitVec.ofNat 32 data.length))

/-- Chunk `k` of a file (R164). -/
def chunkOf (data : List Byte) (capacity k : Nat) : List Byte := chunkAt data capacity (k * capacity)

/-- The wire bytes of chunk `k` (R159, R136). -/
def chunkFrame (tail01 : Bool) (data : List Byte) (capacity k : Nat) : List Byte :=
  frameBytes tail01 (attachBytes (chunkOf data capacity k))

/-- The frames written once the size frame and `k` chunk frames are out (R155, R159). -/
def framesWritten (tail01 : Bool) (data : List Byte) (capacity k : Nat) : List (List Byte) :=
  sizeFrame tail01 data :: (List.range k).map (chunkFrame tail01 data capacity)

/-- `ceil(L / C)` (R14, R164). -/
def chunkCount (length capacity : Nat) : Nat := (length + capacity - 1) / capacity

/-- Every operand of the engine's is within `OP_CAP`: the host's duty (R168, R230). -/
def operandsFit (s : State) : Prop := ∀ k, s.params.opCap = some k → csumSize ≤ k ∧ s.host.capacity ≤ k

/-- While the engine waits for a response, the one that will come is OK and holds this frame (R48, R65, R155, R159). -/
def CallGives (s : State) (frame : List Byte) : Prop :=
  ∀ n, s.host.call = .waits n → (answersAhead s)[n]? = some ⟨.ok, frame⟩

/-- The engine is not waiting for a response. -/
def notCalling (h : HostState) : Prop := ∀ n, h.call ≠ .waits n

/-- What has been written is the size frame and `k` chunk frames, in order (R155, R159). -/
def Wrote (s : State) (k : Nat) : Prop := s.host.txo = framesWritten s.params.tail01 s.host.data s.host.capacity k

/-- The wire bytes of chunk `k` of the host's file. -/
def nextFrame (s : State) (k : Nat) : List Byte := chunkFrame s.params.tail01 s.host.data s.host.capacity k

/-- What holds of the host in each engine state (R150, R152, R155, R159, R160, R161). -/
def TransferInv (s : State) : Prop :=
  match s.host.st with
  | .idle =>
    s.host.offset = 0 ∧ s.host.txo = [] ∧ (configAccepted s.host = true ∨ notCalling s.host) ∧
      CallGives s (sizeFrame s.params.tail01 s.host.data)
  | .announcingSize =>
    configAccepted s.host = true ∧ notCalling s.host ∧ s.host.offset = 0 ∧ s.host.txo = [] ∧
      s.host.frame = sizeFrame s.params.tail01 s.host.data
  | .awaitingSizeAck =>
    configAccepted s.host = true ∧ s.host.offset = 0 ∧ Wrote s 0 ∧ (0 < s.host.data.length ∨ notCalling s.host) ∧
      CallGives s (nextFrame s 0)
  | .sendingChunk =>
    configAccepted s.host = true ∧ notCalling s.host ∧ ∃ k, s.host.offset = k * s.host.capacity ∧
      s.host.offset < s.host.data.length ∧ Wrote s k ∧ s.host.frame = nextFrame s k
  | .awaitingChunkAck =>
    configAccepted s.host = true ∧ ∃ k, s.host.offset = (k + 1) * s.host.capacity ∧
      k * s.host.capacity < s.host.data.length ∧ Wrote s (k + 1) ∧
      (s.host.offset < s.host.data.length ∨ notCalling s.host) ∧ CallGives s (nextFrame s (k + 1))
  | .done =>
    configAccepted s.host = true ∧ notCalling s.host ∧
      s.host.offset = chunkCount s.host.data.length s.host.capacity * s.host.capacity ∧
      s.host.data.length ≤ s.host.offset ∧ Wrote s (chunkCount s.host.data.length s.host.capacity)

/-- What a whole transfer starts from (R214): the block at a frame start with nothing offered and nothing left to take, room for the acknowledgement
frames and for the engine's operands, and the host before `START` with an accepted configuration. -/
structure TransferReady (s : State) : Prop where
  opened : s.closed = false
  frameStart : s.carry = [] ∧ s.poison = false
  portsEmpty : s.rxIn = [] ∧ s.cmdIn = [] ∧ s.operand = [] ∧ s.tooLong = false
  allTaken : s.host.taken = s.rxo.length ∧ s.host.rspTaken = s.rspo.length
  idle : s.host.st = .idle ∧ s.host.call = .idle ∧ s.host.offset = 0 ∧ s.host.txo = []
  accepted : configAccepted s.host = true
  operands : operandsFit s
  buffer : ∀ k, s.params.bufCap = some k → tokSizeAck.length + codecOvh ≤ k
  events : s.params.evCap ≠ some 0

/-- An RX run is finished when `closed = 1` and the host has taken every event (R234). -/
def rxFinished (s : State) : Bool := s.closed && s.host.taken == s.rxo.length

/-- A host run is complete when the engine is in `Done` (R234). -/
def hostComplete (s : State) : Bool := s.host.st == .done

/-- The engine waits for an acknowledgement (R152, R166). That it does not while it waits for the response to its own command, although its state name is
still the awaiting one then, is a DESIGN CHOICE (log entry 9): in R159 that stretch is inside `sendNextChunk`. -/
def hostWaiting (s : State) : Bool :=
  (s.host.st == .awaitingSizeAck || s.host.st == .awaitingChunkAck) && (s.host.call == .idle)

/-- A host run is stalled when the engine waits for an acknowledgement and, in the run that the schedule gives, none that matches will arrive (R234).
Once the schedule is used up nothing happens any more, so its length is enough to look at. -/
def hostStalled (s : State) : Bool := hostWaiting s && noAckWithin s.sched.length s

/-- A killed run (R213, R234). -/
def killed (o : Result) : Bool :=
  match o with
  | .fault .killed => true
  | .fault .transportError => false
  | .next _ => false
  | .refused _ => false

end Sys2Proof.Machine
end

