-- ==== Sys2Proof/Certificates/Slice0/Obligations.lean ====
section
/-! DEFINITION. The statements for the provers. Each docstring names the rules it rests on. -/

open Sys2Proof Sys2Proof.Machine

/-! ### Encoding -/

/-- R61: the `rx_in` beat selects `END` when its end bit is 1 whatever its data field, `DELIM` when the bit is 0 and the data field is `0x00`,
`DATA b` for every other data field `b`. -/
def Obligations.RxiBeatSelectsEvent : Prop :=
  ∀ w : BitVec 9,
    (w.getLsbD 8 = true → decode (.rxi w) = .endStream) ∧
    (w.getLsbD 8 = false → w.extractLsb' 0 8 = 0x00#8 → decode (.rxi w) = .delim) ∧
    (w.getLsbD 8 = false → w.extractLsb' 0 8 ≠ 0x00#8 → decode (.rxi w) = .data (w.extractLsb' 0 8))

/-- R64, R67, R72, R73: the `cmd_in` beat of a tag and a data field selects an operand byte, one of the seven operations by number, the reserved operation 7,
or a reserved beat; a code byte of a wire block selects one of three classes. -/
def Obligations.BeatsSelectOperations : Prop :=
  (∀ d : Byte, decode (.cmd (0#2 ++ d)) = .opbyte d) ∧
  decode (.cmd (1#2 ++ 0x00#8)) = .enc ∧ decode (.cmd (1#2 ++ 0x01#8)) = .dec ∧
  decode (.cmd (1#2 ++ 0x02#8)) = .frame ∧ decode (.cmd (1#2 ++ 0x03#8)) = .crc ∧
  decode (.cmd (1#2 ++ 0x04#8)) = .attach ∧ decode (.cmd (1#2 ++ 0x05#8)) = .chunk ∧
  decode (.cmd (1#2 ++ 0x06#8)) = .validate ∧ decode (.cmd (1#2 ++ 0x07#8)) = .op7 ∧
  (∀ d : Byte, 8 ≤ d.toNat → decode (.cmd (1#2 ++ d)) = .cmdRsvd 1#2 d) ∧
  (∀ (t : BitVec 2) (d : Byte), 2 ≤ t.toNat → decode (.cmd (t ++ d)) = .cmdRsvd t d) ∧
  decode (.wire 0x00#8) = .zero ∧ decode (.wire 0xFF#8) = .full ∧
  ∀ c : Byte, c ≠ 0x00#8 → c ≠ 0xFF#8 → decode (.wire c) = .blk c

/-- R61, R64, R67, R72, R73: decoding the encoding of any well-formed operation gives it back. -/
def Obligations.DecodeOfEncode : Prop :=
  ∀ i : Instr, i.wellFormed = true → decode (encode i) = i

/-- R61, R64, R67, R73: every beat and every code byte decodes to a well-formed operation of its format, and encoding that operation gives the same
bits back, except that the ignored data field of `END` comes back as zero. -/
def Obligations.EncodeOfDecode : Prop :=
  ∀ b : Beat, (decode b).wellFormed = true ∧ (decode b).format = b.format ∧
    (decode b ≠ .endStream → encode (decode b) = b) ∧
    (decode b = .endStream → ∃ d : Byte, b = .rxi (1#1 ++ d) ∧ encode (decode b) = .rxi (1#1 ++ 0x00#8))

/-- The beat values of section 2.5 of 95_test_vectors.md, and one code byte of each class. -/
def Obligations.SpecWordsDecode : Prop :=
  decode (.rxi 0x041#9) = .data 0x41#8 ∧ decode (.rxi 0x000#9) = .delim ∧ decode (.rxi 0x100#9) = .endStream ∧
  decode (.rxi 0x1FF#9) = .endStream ∧ decode (.cmd 0x011#10) = .opbyte 0x11#8 ∧ decode (.cmd 0x100#10) = .enc ∧
  decode (.cmd 0x101#10) = .dec ∧ decode (.cmd 0x102#10) = .frame ∧ decode (.cmd 0x103#10) = .crc ∧
  decode (.cmd 0x104#10) = .attach ∧ decode (.cmd 0x105#10) = .chunk ∧ decode (.cmd 0x106#10) = .validate ∧
  decode (.cmd 0x107#10) = .op7 ∧ decode (.cmd 0x108#10) = .cmdRsvd 1#2 0x08#8 ∧
  decode (.cmd 0x200#10) = .cmdRsvd 2#2 0x00#8 ∧ decode (.cmd 0x3FF#10) = .cmdRsvd 3#2 0xFF#8 ∧
  decode (.wire 0x03#8) = .blk 0x03#8 ∧ decode (.wire 0xFF#8) = .full ∧ decode (.wire 0x00#8) = .zero

/-! ### The step -/

/-- R15, R48, R60, R114, R226: when the schedule's next move is an agent's, the step takes the oldest beat off that agent's port and is `exec` of what it decodes to, for the
RX agent if the port is ready, that is while `closed = 0` and there is room for an event; for the decode loop it is `exec` of the loop's next wire block. The schedule is
the model's (log entry 2), and so are the loop's variables (log entry 7). -/
def Obligations.StepRunsDecodedOperation : Prop :=
  ∀ (s : State) (ms : List Move),
    (∀ w ws, s.sched = .rx :: ms → s.rxIn = w :: ws → s.closed = false →
      (∀ k, s.params.evCap = some k → s.rxo.length - s.host.taken < k) →
      step s = exec (decode (.rxi w)) { s with sched := ms, rxIn := ws }) ∧
    (∀ w ws, s.sched = .cmd :: ms → s.cmdIn = w :: ws →
      step s = exec (decode (.cmd w)) { s with sched := ms, cmdIn := ws }) ∧
    (∀ i, s.sched = .block :: ms → wireNext s.wire = some i → step s = exec i { s with sched := ms })

/-- R201, R226, U24: with no move left, with no beat offered to the agent that moves, or with an RX token offered to a block that holds as many events as it
can, nothing but the schedule changes. The schedule and the capacity `evCap` are the model's (log entries 2, 3, 15). -/
def Obligations.WaitingBlockKeepsState : Prop :=
  ∀ (s : State) (ms : List Move),
    (s.sched = [] → step s = .next s) ∧
    (s.sched = .rx :: ms → s.rxIn = [] → step s = .next { s with sched := ms }) ∧
    (s.sched = .cmd :: ms → s.cmdIn = [] → step s = .next { s with sched := ms }) ∧
    ∀ k : Nat, s.params.evCap = some k → k ≤ s.rxo.length - s.host.taken → s.sched = .rx :: ms →
      step s = .next { s with sched := ms }

/-- R34: what reset leaves: in the reset state, and in the state that the block's reset makes of any state. That no command in progress also means an
unmarked command is log entry 5. -/
def Obligations.ResetLeavesEmptyBlock : Prop :=
  (State.reset.carry = [] ∧ State.reset.poison = false ∧ State.reset.closed = false ∧ State.reset.rxo = [] ∧
    State.reset.operand = [] ∧ State.reset.tooLong = false) ∧
  ∀ s : State, (blockReset s).carry = [] ∧ (blockReset s).poison = false ∧ (blockReset s).closed = false ∧
    (blockReset s).rxo = [] ∧ (blockReset s).operand = [] ∧ (blockReset s).tooLong = false

/-- R34, R168, R210, R211: an edge with `rst = 1` empties the block and discards the responses and the events not yet taken, and what was transferred of an unfinished one; the
parameters, the engine and what it has written stay, and a command the engine waits for is abandoned, so that the host takes events again unless it goes on offering an unfinished command; a beat not accepted stays offered exactly when the host goes on offering
it. What `rst` does to the model's own fields is log entries 5, 14 and 25. -/
def Obligations.ResetDiscardsWhatIsInFlight : Prop :=
  ∀ (s : State) (keepRx keepCmd : Bool) (ms : List Move), s.sched = .rst keepRx keepCmd :: ms →
    ∃ t, step s = .next t ∧ t.carry = [] ∧ t.poison = false ∧ t.closed = false ∧ t.rxo = [] ∧ t.operand = [] ∧
      t.tooLong = false ∧ t.rspo = [] ∧ t.wire = Wire.idle ∧ t.params = s.params ∧ t.sched = ms ∧
      t.host = { s.host with taken := 0, rxSent := 0, rspTaken := 0, rspSent := 0, call := .idle } ∧
      (keepCmd = false ∨ s.cmdIn = [] ∨ (∃ w, s.cmdIn.getLast? = some w ∧ closesCommand w = true) → hostFree t = true) ∧
      t.rxIn = (if keepRx then s.rxIn else []) ∧ t.cmdIn = (if keepCmd then s.cmdIn else [])

/-- R114, R210, R227: while `closed = 1` no RX token has an effect, and a beat offered stays offered; only a reset clears `closed`, and after it the same beat is handled. That
`exec` of a token that is not accepted keeps the state is log entry 4, moves are the model's schedule (log entry 2). -/
def Obligations.ClosedHoldsRxTokens : Prop :=
  (∀ (s : State) (i : Instr), s.closed = true → i.format = .rxi → exec i s = .next s) ∧
  (∀ (s : State) (ms : List Move), s.closed = true → s.sched = .rx :: ms → step s = .next { s with sched := ms }) ∧
  (∀ s t : State, s.closed = true → step s = .next t →
    t.closed = true ∨ ∃ keepRx keepCmd ms, s.sched = .rst keepRx keepCmd :: ms) ∧
  ∀ (s : State) (w : BitVec 9) (ws : List (BitVec 9)) (keepCmd : Bool) (ms : List Move), s.closed = true →
    s.rxIn = w :: ws → s.params.evCap ≠ some 0 → s.sched = .rx :: .rst true keepCmd :: .rx :: ms →
    runSteps 3 s = exec (decode (.rxi w)) { applyReset true keepCmd s with sched := ms, rxIn := ws }

/-- R154, R202, R213: a step stops exactly on a kill, and on a failed write while a frame waits at the gate; no step is refused. The names and the schedule are the
model's (log entries 2, 11, 12). -/
def Obligations.StepStopsOnlyAsNamed : Prop :=
  ∀ s : State, (∀ r, step s ≠ .refused r) ∧
    ∀ f, step s = .fault f ↔
      (f = .killed ∧ ∃ ms, s.sched = .kill :: ms) ∨
      (f = .transportError ∧ (s.host.st = .announcingSize ∨ s.host.st = .sendingChunk) ∧
        ∃ ms, s.sched = .host .writeFails :: ms)

/-- R28, R33, R150: no step changes a parameter, the file content or the capacity. Moves are the model's schedule (log entry 2). -/
def Obligations.ParametersNeverChange : Prop :=
  ∀ s t : State, step s = .next t →
    t.params = s.params ∧ t.host.data = s.host.data ∧ t.host.capacity = s.host.capacity

/-- R48, R60, R76, R77, R115: an offered beat joins the end of its port; and the lines of the trace notation, offered and handled beat by beat by the step: a delivery does what its
tokens do one after another, offered at once or one at a time, the stream end is `END`, a command is its operand's beats and its closing beat, and a reset goes on
offering what was not accepted. Moves are the model's schedule (log entry 2), and the last is log entry 26. -/
def Obligations.TraceLinesAreTokens : Prop :=
  ∀ (s : State) (ms : List Move),
    (∀ w, s.sched = .offerRx w :: ms → step s = .next { s with sched := ms, rxIn := s.rxIn ++ [w] }) ∧
    (∀ w, s.sched = .offerCmd w :: ms → step s = .next { s with sched := ms, cmdIn := s.cmdIn ++ [w] }) ∧
    (∀ bytes, s.rxIn = [] → s.closed = false → s.params.evCap = none →
      s.sched = lineMoves (.rx bytes) ++ ms ∨ s.sched = deliveryMoves bytes ++ ms →
      runSteps (2 * bytes.length) s = deliver bytes { s with sched := ms }) ∧
    (s.rxIn = [] → s.closed = false → s.params.evCap = none → s.sched = lineMoves .endToken ++ ms →
      runSteps 2 s = exec .endStream { s with sched := ms }) ∧
    (∀ op operand, s.cmdIn = [] → s.sched = lineMoves (.cmd op operand) ++ ms →
      runSteps (2 * (operand.length + 1)) s = sendCommand op operand { s with sched := ms }) ∧
    (∀ operand, s.cmdIn = [] → s.sched = lineMoves (.cmdOp7 operand) ++ ms →
      runSteps (2 * (operand.length + 1)) s = execAll (operand.map .opbyte ++ [.op7]) { s with sched := ms }) ∧
    (s.sched = lineMoves .rst ++ ms → ∃ t, step s = .next t ∧ t.rxIn = s.rxIn ∧ t.cmdIn = s.cmdIn ∧ t.sched = ms ∧
      t.carry = [] ∧ t.rxo = [] ∧ t.closed = false)

/-! ### The Frame Splitter -/

/-- R111: `DATA b`. The encoding, the append while there is room, and the dropped byte that sets `poison` and changes nothing else. -/
def Obligations.DataAppendsOrPoisons : Prop :=
  ∀ (b : Byte) (s : State), b ≠ 0x00#8 → s.closed = false →
    decode (.rxi (0#1 ++ b)) = .data b ∧
    (s.params.bufCap = none → exec (.data b) s = .next { s with carry := s.carry ++ [b] }) ∧
    (∀ k, s.params.bufCap = some k → s.carry.length < k → exec (.data b) s = .next { s with carry := s.carry ++ [b] }) ∧
    (∀ k, s.params.bufCap = some k → k ≤ s.carry.length → exec (.data b) s = .next { s with poison := true })

/-- R112: `DELIM`. The encoding; carry emptied, `poison` cleared, exactly one event and nothing else changed; the event of each case; never `E_ZERO` from a
buffer without a zero; the empty frame; `k` delimiters in a row. -/
def Obligations.DelimEmitsOneEvent : Prop :=
  decode (.rxi 0x000#9) = .delim ∧
  ∀ s : State, s.closed = false →
    (∃ e, exec .delim s = .next { s with carry := [], poison := false, rxo := s.rxo ++ [e] } ∧
      (s.poison = true → e = .err .overflow) ∧
      (s.poison = false → ∀ p, codecDecode s.carry = .ok p → e = .msg p) ∧
      (s.poison = false → ∀ code, codecDecode s.carry = .err code → e = .err code) ∧
      (0x00#8 ∉ s.carry → e ≠ .err .zero) ∧
      (s.poison = false → s.carry = [] → e = .msg []) ∧
      (s.poison = false → s.carry = [0x01#8] → e = .msg []) ∧
      ∀ k, execAll (List.replicate (k + 1) .delim) s =
        .next { s with carry := [], poison := false, rxo := s.rxo ++ e :: List.replicate k (.msg []) })

/-- R113: `END`. The encoding with any data field; nothing emitted for an empty buffer that is not poisoned, otherwise one event as for `DELIM`; `closed` set. -/
def Obligations.EndEmitsLastFrame : Prop :=
  (∀ d : Byte, decode (.rxi (1#1 ++ d)) = .endStream) ∧
  ∀ s : State, s.closed = false →
    (s.poison = false → s.carry = [] → exec .endStream s = .next { s with closed := true }) ∧
    (s.poison = true →
      exec .endStream s =
        .next { s with carry := [], poison := false, closed := true, rxo := s.rxo ++ [.err .overflow] }) ∧
    (s.poison = false → s.carry ≠ [] → ∀ p, codecDecode s.carry = .ok p →
      exec .endStream s = .next { s with carry := [], poison := false, closed := true, rxo := s.rxo ++ [.msg p] }) ∧
    (s.poison = false → s.carry ≠ [] → ∀ code, codecDecode s.carry = .err code →
      exec .endStream s = .next { s with carry := [], poison := false, closed := true, rxo := s.rxo ++ [.err code] }) ∧
    (0x00#8 ∉ s.carry → codecDecode s.carry ≠ .err .zero)

/-- R20, R27, R41, R111: what the RX tokens leave unchanged: the command agent's state, the loop variables, the ports, the host, the parameters; for `DATA` also every event, `closed`,
and every byte of the buffer except the one stored at index `|carry|`; for `DELIM` also `closed`. -/
def Obligations.RxTokenFrame : Prop :=
  ∀ (i : Instr) (s t : State), i.format = .rxi → exec i s = .next t →
    t.operand = s.operand ∧ t.tooLong = s.tooLong ∧ t.rspo = s.rspo ∧ t.wire = s.wire ∧ t.rxIn = s.rxIn ∧ t.cmdIn = s.cmdIn ∧
    t.host = s.host ∧ t.sched = s.sched ∧ t.params = s.params ∧
    (i = .delim → t.closed = s.closed) ∧
    (∀ b, i = .data b → t.rxo = s.rxo ∧ t.closed = s.closed ∧ ∀ a, a ≠ s.carry.length → memByte t a = memByte s a)

/-- R20, R27, R32, R65: what the command operations leave unchanged: the buffer at every index, the flags, the events, the loop variables, the ports, the host, the parameters.
An operand byte makes no response; every other beat makes exactly one, and leaves no operand. Responses are kept as a trace (log entry 6). -/
def Obligations.CommandFrame : Prop :=
  ∀ (i : Instr) (s : State), i.format = .cmd → ∃ t, exec i s = .next t ∧
    (∀ a, memByte t a = memByte s a) ∧ t.carry = s.carry ∧ t.poison = s.poison ∧ t.closed = s.closed ∧ t.rxo = s.rxo ∧
    t.wire = s.wire ∧ t.rxIn = s.rxIn ∧ t.cmdIn = s.cmdIn ∧ t.host = s.host ∧ t.sched = s.sched ∧ t.params = s.params ∧
    (∀ b, i = .opbyte b → t.rspo = s.rspo) ∧
    ((∀ b, i ≠ .opbyte b) → t.operand = [] ∧ t.tooLong = false ∧
      ∃ r, t.rspo = s.rspo ++ [r] ∧ (r.status ≠ .ok → r.bytes = []))

/-- R17, R48: the RX agent and the command agent share no state, so the order of their steps makes no difference. -/
def Obligations.AgentsCommute : Prop :=
  ∀ (i j : Instr) (s : State), i.format = .rxi → j.format = .cmd →
    andThen (exec i s) (exec j) = andThen (exec j s) (exec i)

/-- R116: after a `DELIM` the splitter is at a frame start, and what any further tokens emit is independent of everything received before. -/
def Obligations.SelfSynchronisation : Prop :=
  ∀ (s1 s2 : State) (ts : List Instr), (∀ i ∈ ts, i.format = .rxi) → s1.params.bufCap = s2.params.bufCap →
    s1.closed = false → s2.closed = false →
    ∃ t1 t2 u1 u2 es, exec .delim s1 = .next t1 ∧ exec .delim s2 = .next t2 ∧ t1.carry = [] ∧ t1.poison = false ∧
      execAll ts t1 = .next u1 ∧ execAll ts t2 = .next u2 ∧ u1.rxo = t1.rxo ++ es ∧ u2.rxo = t2.rxo ++ es ∧
      u1.carry = u2.carry ∧ u1.poison = u2.poison ∧ u1.closed = u2.closed

/-- R117, R53, R115, R113: with an unbounded buffer, the document's splitter called once per delivery, and its stream end after them, leave what the bytes do one at a time, so the cut into
deliveries makes no difference; and for every buffer capacity, neither does it at the port, where each delivery is offered whole and then handled. The
schedule is the model's (log entry 2). -/
def Obligations.SplitInvariance : Prop :=
  (∀ (s : State) (ds : List (List Byte)), s.params.bufCap = none → s.closed = false → s.poison = false → 0x00#8 ∉ s.carry →
    deliver ds.flatten s = .next (documentDeliverAll ds s) ∧
    andThen (deliver ds.flatten s) (exec .endStream) = .next (documentEnd (documentDeliverAll ds s)) ∧
    ∀ ds', ds'.flatten = ds.flatten → documentDeliverAll ds' s = documentDeliverAll ds s) ∧
  ∀ (s : State) (ds ds' : List (List Byte)) (ms : List Move), ds'.flatten = ds.flatten → s.rxIn = [] → s.closed = false →
    s.params.evCap = none →
    runSteps (2 * ds.flatten.length) { s with sched := ds'.flatMap deliveryMoves ++ ms } =
      runSteps (2 * ds.flatten.length) { s with sched := ds.flatMap deliveryMoves ++ ms }

/-- R115: with an unbounded buffer, the byte-at-a-time splitter and the document's per-delivery procedure leave the same state. -/
def Obligations.DeliveryMatchesDocument : Prop :=
  ∀ (bytes : List Byte) (s : State), s.params.bufCap = none → s.closed = false → s.poison = false → 0x00#8 ∉ s.carry →
    deliver bytes s = .next (documentDeliver bytes s)

/-- R118, R24: from a frame start, the state after any byte stream is given by its cut at the zero bytes, for every buffer capacity; and so after an `END`; in
particular the stream of frames of some payloads yields exactly those payloads, in order, when every frame fits the buffer. -/
def Obligations.WholeStreamFunction : Prop :=
  (∀ (bytes : List Byte) (s : State), s.closed = false → s.carry = [] → s.poison = false →
    let gs := segments bytes
    let g := gs.getLastD []
    let es := gs.dropLast.map (pieceEvent s.params.bufCap)
    deliver bytes s =
      .next { s with carry := pieceKept s.params.bufCap g, poison := overLong s.params.bufCap g, rxo := s.rxo ++ es } ∧
    andThen (deliver bytes s) (exec .endStream) =
      .next { s with carry := [], poison := false, closed := true,
                     rxo := s.rxo ++ es ++ (if g = [] then [] else [pieceEvent s.params.bufCap g]) }) ∧
  ∀ (tail01 : Bool) (ps : List (List Byte)) (s : State), s.closed = false → s.carry = [] → s.poison = false →
    (∀ p ∈ ps, ∀ k, s.params.bufCap = some k → (codecEncode tail01 p).length ≤ k) →
    deliver (frameStream tail01 ps) s = .next { s with rxo := s.rxo ++ ps.map .msg }

/-- R35(5): the number of events is the number of `DELIM` tokens handled, plus one when an `END` was handled while carry was not empty or `poison` was 1. -/
def Obligations.EventsCountDelimiters : Prop :=
  ∀ (ts : List Instr) (s t : State), (∀ i ∈ ts, i.format = .rxi) → .endStream ∉ ts → s.closed = false →
    execAll ts s = .next t →
    t.rxo.length = s.rxo.length + ts.count .delim ∧
    ∃ u, exec .endStream t = .next u ∧
      u.rxo.length = s.rxo.length + ts.count .delim + (if t.carry ≠ [] ∨ t.poison = true then 1 else 0)

/-! ### The Frame Codec -/

/-- R93: no byte of an encoding is `0x00`. -/
def Obligations.EncodeIsDelimiterSafe : Prop :=
  ∀ (tail01 : Bool) (p : List Byte), 0x00#8 ∉ codecEncode tail01 p

/-- R94: decoding an encoding gives the payload back, for both encoder variants; the converse does not hold. -/
def Obligations.CodecRoundTrip : Prop :=
  (∀ (tail01 : Bool) (p : List Byte), codecDecode (codecEncode tail01 p) = .ok p) ∧
  ∃ w p, codecDecode w = .ok p ∧ ∀ tail01, codecEncode tail01 p ≠ w

/-- R95: the overhead of an encoding: at least 1, within the document's bound, within the tighter bound of the variant without a closing block, exactly 1 up to 254
bytes, and the document's bound reached by the other variant. -/
def Obligations.EncodeOverhead : Prop :=
  ∀ p : List Byte,
    (∀ tail01, p.length + 1 ≤ (codecEncode tail01 p).length ∧
      (codecEncode tail01 p).length ≤ p.length + 1 + p.length / 254) ∧
    (codecEncode false p).length ≤ p.length + max 1 ((p.length + 253) / 254) ∧
    (p.length ≤ 254 → (codecEncode false p).length = p.length + 1) ∧
    (0x00#8 ∉ p → (codecEncode true p).length = p.length + 1 + p.length / 254)

/-- R102: the byte-at-a-time encoder produces exactly `encode(p)`, for every payload and both values of `TAIL01`. -/
def Obligations.StreamEncoderEqualsEncode : Prop :=
  ∀ (tail01 : Bool) (p : List Byte), streamEncode tail01 p = codecEncode tail01 p

/-- R96, R98 to R100: reading an input one wire block after another, each run by `exec`, ends in the result of `decode`, within as many blocks as the input has bytes. The loop's variables in the state are the model's (log entry 7). -/
def Obligations.WireBlocksRunDecode : Prop :=
  ∀ (w : List Byte) (s : State), s.wire = wireStart w →
    ∃ u, runBlocks w.length s = .next { s with wire := u } ∧ wireOutcome u = some (codecDecode w)

/-- R98 to R100, R103: one block, by the class of its code byte: the overrun, the data bytes, the index after the block, and the implied zero; and that a wire operation changes the loop's
variables only, and not its input. The loop's variables in the state are the model's (log entry 7). -/
def Obligations.WireBlockResults : Prop :=
  (∀ (i : Instr) (s : State), i.format = .wire → ∃ u, exec i s = .next { s with wire := u } ∧ u.input = s.wire.input) ∧
  (∀ (c : Byte) (s : State), c ≠ 0x00#8 → c ≠ 0xFF#8 →
    (s.wire.input.length < s.wire.pos + c.toNat →
      exec (.blk c) s = .next { s with wire := { s.wire with out := [], status := .failed .overrun } }) ∧
    (s.wire.pos + c.toNat < s.wire.input.length →
      exec (.blk c) s = .next { s with wire := { s.wire with
        pos := s.wire.pos + c.toNat,
        out := s.wire.out ++ (s.wire.input.drop (s.wire.pos + 1)).take (c.toNat - 1) ++ [0x00#8],
        status := .running } }) ∧
    (s.wire.pos + c.toNat = s.wire.input.length →
      exec (.blk c) s = .next { s with wire := { s.wire with
        pos := s.wire.pos + c.toNat,
        out := s.wire.out ++ (s.wire.input.drop (s.wire.pos + 1)).take (c.toNat - 1),
        status := .done } })) ∧
  (∀ s : State,
    (s.wire.input.length < s.wire.pos + 255 →
      exec .full s = .next { s with wire := { s.wire with out := [], status := .failed .overrun } }) ∧
    (s.wire.pos + 255 ≤ s.wire.input.length →
      exec .full s = .next { s with wire := { s.wire with
        pos := s.wire.pos + 255,
        out := s.wire.out ++ (s.wire.input.drop (s.wire.pos + 1)).take 254,
        status := if s.wire.pos + 255 < s.wire.input.length then .running else .done } }))

/-- R96, R100, R180: `ZERO` fails with `E_ZERO`; it is what the loop reads when any byte of the input is zero, and `decode` fails with `E_ZERO` exactly then, even where a
marker overruns too; any other failure is `E_OVERRUN`. The loop's variables in the state are the model's (log entry 7). -/
def Obligations.ZeroFailsDecode : Prop :=
  (∀ s : State, exec .zero s = .next { s with wire := { s.wire with out := [], status := .failed .zero } }) ∧
  (∀ u : Wire, u.status = .running → 0x00#8 ∈ u.input → wireNext u = some .zero) ∧
  ∀ w : List Byte, (codecDecode w = .err .zero ↔ 0x00#8 ∈ w) ∧
    ∀ code, codecDecode w = .err code → 0x00#8 ∉ w → code = .overrun

/-- R92: `ENC`. The response, nothing else changed but the command's own collection, and the rule's corner cases. Responses are kept as a trace (log entry 6). -/
def Obligations.EncAnswersEncoding : Prop :=
  decode (.cmd 0x100#10) = .enc ∧
  (∀ s : State, exec .enc s = .next { s with operand := [], tooLong := false, rspo := s.rspo ++
    [if s.tooLong then ⟨.toolong, []⟩ else ⟨.ok, codecEncode s.params.tail01 s.operand⟩] }) ∧
  (∀ (t : Bool) (k : Nat), codecEncode t (List.replicate k 0x00#8) = List.replicate (k + 1) 0x01#8) ∧
  (∀ r : List Byte, r.length = 254 → 0x00#8 ∉ r →
    codecEncode false r = 0xFF#8 :: r ∧ codecEncode true r = 0xFF#8 :: r ++ [0x01#8] ∧
    ∀ (t : Bool) (b : Byte), b ≠ 0x00#8 → codecEncode t (r ++ [b]) = 0xFF#8 :: r ++ [0x02#8, b]) ∧
  ∀ t : Bool, codecEncode t [0x11#8, 0x22#8, 0x00#8, 0x33#8] = [0x03#8, 0x11#8, 0x22#8, 0x02#8, 0x33#8]

/-- R97, R74: `DEC`. The response of each result of `decode`, and the rules' corner cases. Responses are kept as a trace (log entry 6). -/
def Obligations.DecAnswersDecoding : Prop :=
  decode (.cmd 0x101#10) = .dec ∧
  (∀ s : State, ∃ r, exec .dec s = .next { s with operand := [], tooLong := false, rspo := s.rspo ++ [r] } ∧
    (s.tooLong = true → r = ⟨.toolong, []⟩) ∧
    (s.tooLong = false → ∀ p, codecDecode s.operand = .ok p → r = ⟨.ok, p⟩) ∧
    (s.tooLong = false → ∀ code, codecDecode s.operand = .err code → r = ⟨code, []⟩)) ∧
  codecDecode [] = .ok [] ∧ codecDecode [0x01#8] = .ok [] ∧
  codecDecode [0x01#8, 0x01#8] = .ok [0x00#8] ∧ codecDecode [0x02#8] = .err .overrun ∧
  codecDecode [0x02#8, 0x41#8, 0x00#8] = .err .zero ∧
  (∀ r : List Byte, r.length < 254 → 0x00#8 ∉ r → codecDecode (0xFF#8 :: r) = .err .overrun) ∧
  (∀ r : List Byte, r.length = 254 → 0x00#8 ∉ r →
    codecDecode (0xFF#8 :: r) = .ok r ∧ codecDecode (0xFF#8 :: r ++ [0x01#8]) = .ok r) ∧
  codecDecode [0x03#8, 0x11#8, 0x22#8, 0x02#8, 0x33#8] = .ok [0x11#8, 0x22#8, 0x00#8, 0x33#8]

/-- R101: `FRAME`. The encoding and the delimiter, which is the response's only zero. Responses are kept as a trace (log entry 6). -/
def Obligations.FrameAnswersDelimitedEncoding : Prop :=
  decode (.cmd 0x102#10) = .frame ∧
  ∀ s : State, ∃ w, exec .frame s = .next { s with operand := [], tooLong := false, rspo := s.rspo ++
      [if s.tooLong then ⟨.toolong, []⟩ else ⟨.ok, w ++ [0x00#8]⟩] } ∧
    w = codecEncode s.params.tail01 s.operand ∧ 0x00#8 ∉ w ∧ (s.operand = [] → w = [0x01#8])

/-- R64, R73, R189: `OPBYTE b` stores the byte while the operand buffer has room, else drops it and marks the command too long. The operand buffer and the mark as fields are log entry 5. -/
def Obligations.OpbyteCollectsOrMarks : Prop :=
  ∀ (b : Byte) (s : State),
    (s.params.opCap = none → exec (.opbyte b) s = .next { s with operand := s.operand ++ [b] }) ∧
    (∀ k, s.params.opCap = some k → s.operand.length < k → exec (.opbyte b) s = .next { s with operand := s.operand ++ [b] }) ∧
    (∀ k, s.params.opCap = some k → k ≤ s.operand.length → exec (.opbyte b) s = .next { s with tooLong := true })

/-- R186: a closing beat that names no operation answers `(E_ILLEGAL, ε)` and discards the operand, whatever was collected. Responses are kept as a trace (log entry 6). -/
def Obligations.ReservedBeatsAnswerIllegal : Prop :=
  (∀ w : BitVec 10, (w.extractLsb' 8 2 = 1#2 ∧ 7 ≤ (w.extractLsb' 0 8).toNat) ∨ 2 ≤ (w.extractLsb' 8 2).toNat →
    ∀ s : State, exec (decode (.cmd w)) s =
      .next { s with operand := [], tooLong := false, rspo := s.rspo ++ [⟨.illegal, []⟩] }) ∧
  ∀ (s : State) (t : BitVec 2) (d : Byte),
    exec .op7 s = .next { s with operand := [], tooLong := false, rspo := s.rspo ++ [⟨.illegal, []⟩] } ∧
    exec (.cmdRsvd t d) s = .next { s with operand := [], tooLong := false, rspo := s.rspo ++ [⟨.illegal, []⟩] }

/-- R32, R64, R189, R190: a whole command sent beat by beat gives exactly one response, the one of the pair of operation and operand, `E_TOOLONG` when the operand exceeds
`OP_CAP`, and leaves nothing behind. Responses are kept as a trace (log entry 6). -/
def Obligations.CommandBeatsMakeOneCommand : Prop :=
  ∀ (op : CmdOp) (operand : List Byte) (s : State), s.operand = [] → s.tooLong = false →
    sendCommand op operand s = .next { s with rspo := s.rspo ++ [command s.params op operand] } ∧
    (∀ k, s.params.opCap = some k → k < operand.length → command s.params op operand = ⟨.toolong, []⟩)

/-- R48, R60, R65: commands are answered in the order in which they are offered, and none is lost, duplicated or overtaken: the responses produced so far, followed by those that the beats already offered
will produce, stay what they are through every step but a reset, which may only add to their end; and the engine's command joins at that end. The
response trace and the schedule are the model's (log entries 2, 6, 9). -/
def Obligations.CommandsAnsweredInOrder : Prop :=
  (∀ s t : State, step s = .next t → (∀ keepRx keepCmd ms, s.sched ≠ .rst keepRx keepCmd :: ms) →
    s.rspo <+: t.rspo ∧ answersAhead s <+: answersAhead t) ∧
  ∀ (op : CmdOp) (operand : List Byte) (s : State), commandOpen s = false →
    answersAhead (issueCommand op operand s) = answersAhead s ++ [command s.params op operand] ∧
    (issueCommand op operand s).host.call = .waits (answersAhead s).length

/-! ### The Checksum unit -/

/-- R13: `LE32` and `unLE32` undo each other, and the rule's example. -/
def Obligations.LittleEndianPacking : Prop :=
  (∀ v : Word, unLe32 (le32 v) = v) ∧ (∀ s : List Byte, s.length = 4 → le32 (unLe32 s) = s) ∧
  (∀ a b c d : Byte, (unLe32 [a, b, c, d]).toNat = a.toNat + 256 * b.toNat + 65536 * c.toNat + 16777216 * d.toNat) ∧
  le32 600#32 = [0x58#8, 0x02#8, 0x00#8, 0x00#8]

/-- R132: the 256 printed entries are the inner loop's results, and the table form computes the same function. -/
def Obligations.CrcTableFormEqualsBitForm : Prop :=
  crcTable.length = 256 ∧ (∀ i : Byte, crcTableAt i = crcRounds (i.setWidth 32)) ∧ ∀ s : List Byte, crc32Table s = crc32 s

/-- R134, R133: `CRC`. Always the four bytes of the checksum, least significant first; and check values of `crc32` (ten of the table's eleven; the eleventh is a 43-byte
string). Responses are kept as a trace (log entry 6). -/
def Obligations.CrcAnswersChecksum : Prop :=
  decode (.cmd 0x103#10) = .crc ∧
  (∀ s : State, exec .crc s = .next { s with operand := [], tooLong := false, rspo := s.rspo ++
    [if s.tooLong then ⟨.toolong, []⟩ else ⟨.ok, le32 (crc32 s.operand)⟩] }) ∧
  (∀ v : Word, (le32 v).length = 4) ∧ le32 (crc32 []) = [0x00#8, 0x00#8, 0x00#8, 0x00#8] ∧
  le32 (crc32 [0x31#8, 0x32#8, 0x33#8, 0x34#8, 0x35#8, 0x36#8, 0x37#8, 0x38#8, 0x39#8]) = [0x26#8, 0x39#8, 0xF4#8, 0xCB#8] ∧
  crc32 [] = 0x00000000#32 ∧
  crc32 [0x31#8, 0x32#8, 0x33#8, 0x34#8, 0x35#8, 0x36#8, 0x37#8, 0x38#8, 0x39#8] = 0xCBF43926#32 ∧
  crc32 [0x61#8] = 0xE8B7BE43#32 ∧ crc32 [0x61#8, 0x62#8, 0x63#8] = 0x352441C2#32 ∧ crc32 [0x00#8] = 0xD202EF8D#32 ∧
  crc32 [0x00#8, 0x00#8, 0x00#8, 0x00#8] = 0x2144DF1C#32 ∧ crc32 [0xFF#8, 0xFF#8, 0xFF#8, 0xFF#8] = 0xFFFFFFFF#32 ∧
  crc32 [0x01#8, 0x02#8, 0x03#8] = 0x55BC801D#32 ∧ crc32 [0x41#8, 0x43#8, 0x4B#8] = 0xB443BA3B#32 ∧
  crc32 [0x68#8, 0x65#8, 0x6C#8, 0x6C#8, 0x6F#8] = 0x3610A686#32

/-- R135: `ATTACH`. The chunk unchanged, then the four bytes of its checksum. Responses are kept as a trace (log entry 6). -/
def Obligations.AttachAnswersChunkPayload : Prop :=
  decode (.cmd 0x104#10) = .attach ∧
  ∀ s : State, ∃ w, exec .attach s = .next { s with operand := [], tooLong := false, rspo := s.rspo ++
      [if s.tooLong then ⟨.toolong, []⟩ else ⟨.ok, w⟩] } ∧
    w = s.operand ++ le32 (crc32 s.operand) ∧ w.length = s.operand.length + 4 ∧
    (s.operand = [] → w = [0x00#8, 0x00#8, 0x00#8, 0x00#8]) ∧
    (s.operand = [0x01#8, 0x02#8, 0x03#8] → w = [0x01#8, 0x02#8, 0x03#8, 0x1D#8, 0x80#8, 0xBC#8, 0x55#8])

/-- R136: `CHUNK`. The frame of the chunk and its checksum: checksum first, then encoding, then the delimiter; a chunk within `OP_CAP` is accepted whatever the length of the payload made from it. Responses are kept as a trace (log entry 6). -/
def Obligations.ChunkAnswersFrame : Prop :=
  decode (.cmd 0x105#10) = .chunk ∧
  ∀ s : State, ∃ w, exec .chunk s = .next { s with operand := [], tooLong := false, rspo := s.rspo ++
      [if s.tooLong then ⟨.toolong, []⟩ else ⟨.ok, w⟩] } ∧
    w = codecEncode s.params.tail01 (s.operand ++ le32 (crc32 s.operand)) ++ [0x00#8] ∧
    (s.operand = [] → w = [0x01#8, 0x01#8, 0x01#8, 0x01#8, 0x01#8, 0x00#8]) ∧
    (s.operand = [0x01#8, 0x02#8, 0x03#8] →
      w = [0x08#8, 0x01#8, 0x02#8, 0x03#8, 0x1D#8, 0x80#8, 0xBC#8, 0x55#8, 0x00#8])

/-- R137: `VALIDATE`. `E_SHORT` below four bytes; the chunk when its checksum is the last four bytes; `E_BADSUM` and no byte otherwise. Responses are kept as a trace (log entry 6). -/
def Obligations.ValidateAnswersComparison : Prop :=
  decode (.cmd 0x106#10) = .validate ∧
  ∀ s : State, ∃ r, exec .validate s = .next { s with operand := [], tooLong := false, rspo := s.rspo ++ [r] } ∧
    (s.tooLong = true → r = ⟨.toolong, []⟩) ∧
    (s.tooLong = false → s.operand.length < 4 → r = ⟨.short, []⟩) ∧
    (s.tooLong = false → ∀ chunk a b c d, s.operand = chunk ++ [a, b, c, d] →
      (crc32 chunk = unLe32 [a, b, c, d] → r = ⟨.ok, chunk⟩) ∧ (crc32 chunk ≠ unLe32 [a, b, c, d] → r = ⟨.badsum, []⟩)) ∧
    (s.tooLong = false → s.operand.length = 4 → (r.status = .ok ↔ s.operand = [0x00#8, 0x00#8, 0x00#8, 0x00#8]))

/-- R138: validating an attached chunk returns it; and end to end, the response of `CHUNK` fed to a splitter at a frame start, with a buffer that the encoded payload fits, emits the payload with its
checksum, which validates to the chunk. -/
def Obligations.AttachThenValidate : Prop :=
  (∀ chunk : List Byte, answerAttach chunk = ⟨.ok, attachBytes chunk⟩ ∧ answerValidate (attachBytes chunk) = ⟨.ok, chunk⟩) ∧
  ∀ (chunk : List Byte) (tail01 : Bool) (s : State), s.closed = false → s.carry = [] → s.poison = false →
    (∀ k, s.params.bufCap = some k → (codecEncode tail01 (attachBytes chunk)).length ≤ k) →
    deliver (answerChunk tail01 chunk).bytes s = .next { s with rxo := s.rxo ++ [.msg (attachBytes chunk)] }

/-- R10, R231: with a frame size from 7 to 256 and `TAIL01 = false`, the frame of every chunk within the capacity is at most the frame size on the wire, so a buffer of the frame size less the delimiter holds it. -/
def Obligations.ChunkFrameFitsTarget : Prop :=
  ∀ (frameSize : Nat) (chunk : List Byte), 7 ≤ frameSize → frameSize ≤ 256 → chunk.length ≤ capOf frameSize →
    (frameBytes false (attachBytes chunk)).length ≤ frameSize ∧
    (codecEncode false (attachBytes chunk)).length ≤ frameSize - delimSize

/-! ### The output ports -/

/-- R63, R181: the host rebuilds the events from the `rx_out` beats; no beat has the tag `11`; a message is its bytes and an EOM, a failed frame is one beat with the status
code, and the eight codes. -/
def Obligations.RxOutBeatsRebuildEvents : Prop :=
  (∀ es : List Event, parseRxOut [] (rxOutBeats es) = some es ∧ (∀ w ∈ rxOutBeats es, w.extractLsb' 8 2 ≠ 3#2) ∧
    (∀ p : List Byte, eventBeats (.msg p) = p.map (fun b => 0#2 ++ b) ++ [0x100#10]) ∧
    (∀ code, eventBeats (.err code) = [2#2 ++ statusCode code])) ∧
  statusCode .ok = 0x00#8 ∧ statusCode .overrun = 0x01#8 ∧ statusCode .zero = 0x02#8 ∧ statusCode .overflow = 0x03#8 ∧
    statusCode .badsum = 0x04#8 ∧ statusCode .short = 0x05#8 ∧ statusCode .illegal = 0x06#8 ∧ statusCode .toolong = 0x07#8

/-- R65, R181: the host rebuilds the responses from the `rsp_out` beats; no beat has the tag `10` or `11`; a response is its bytes and a DONE beat with the status code, and
the eight codes. -/
def Obligations.RspOutBeatsRebuildResponses : Prop :=
  (∀ rs : List Response, parseRspOut [] (rspOutBeats rs) = some rs ∧
    (∀ w ∈ rspOutBeats rs, w.extractLsb' 8 2 = 0#2 ∨ w.extractLsb' 8 2 = 1#2) ∧
    ∀ r : Response, responseBeats r = r.bytes.map (fun b => 0#2 ++ b) ++ [1#2 ++ statusCode r.status]) ∧
  statusCode .ok = 0x00#8 ∧ statusCode .overrun = 0x01#8 ∧ statusCode .zero = 0x02#8 ∧ statusCode .overflow = 0x03#8 ∧
    statusCode .badsum = 0x04#8 ∧ statusCode .short = 0x05#8 ∧ statusCode .illegal = 0x06#8 ∧ statusCode .toolong = 0x07#8

/-- R60, R63, R65: the output ports beat by beat. The beats of an event are transferred in order, one per step, and the last one takes the event: together they do what taking the event whole does; the same for a
response. With no event, or no response, left to take nothing is offered and nothing changes. Moves are the model's schedule (log entry 2), how much is transferred is log entry 8, and
that the host takes an event only while its thread is free is log entry 24. -/
def Obligations.OutputBeatsTakeItems : Prop :=
  ∀ (s : State) (ms : List Move),
    (∀ e, s.rxo[s.host.taken]? = some e → s.host.rxSent = 0 → hostFree s = true →
      s.sched = List.replicate (eventBeats e).length (.host .rxBeat) ++ ms →
      (∀ k, k < (eventBeats e).length → ∃ t, runSteps k s = .next t ∧ rxOutBeat t = (eventBeats e)[k]?) ∧
      runSteps (eventBeats e).length s = step { s with sched := .host .takeEvent :: ms }) ∧
    (∀ r, s.rspo[s.host.rspTaken]? = some r → s.host.rspSent = 0 →
      s.sched = List.replicate (responseBeats r).length (.host .rspBeat) ++ ms →
      (∀ k, k < (responseBeats r).length → ∃ t, runSteps k s = .next t ∧ rspOutBeat t = (responseBeats r)[k]?) ∧
      runSteps (responseBeats r).length s = step { s with sched := .host .takeResponse :: ms }) ∧
    (s.rxo.length ≤ s.host.taken → rxOutBeat s = none ∧
      (s.sched = .host .rxBeat :: ms ∨ s.sched = .host .takeEvent :: ms → step s = .next { s with sched := ms })) ∧
    (s.rspo.length ≤ s.host.rspTaken → rspOutBeat s = none ∧
      (s.sched = .host .rspBeat :: ms ∨ s.sched = .host .takeResponse :: ms → step s = .next { s with sched := ms }))

/-! ### Invariants -/

/-- R35(1) to (4), R181, R150, log entries 1, 2, 6, 10: the invariants hold in the reset state. -/
def Obligations.InvariantsHoldAtReset : Prop :=
  BlockInv State.reset ∧ TraceInv State.reset ∧ TransferInv State.reset ∧ operandsFit State.reset ∧
    State.reset.params.wf = true

/-- R23, R35(1) to (4): every step keeps the block's invariants. -/
def Obligations.StepKeepsBlockInvariants : Prop :=
  ∀ s t : State, BlockInv s → step s = .next t → BlockInv t

/-- R32, R65, R181, R189: every step keeps the legality of the two traces and the bound of the operand buffer. The response trace is the model's (log entry 6). -/
def Obligations.StepKeepsTraceInvariants : Prop :=
  ∀ s t : State, BlockInv s → TraceInv s → step s = .next t → TraceInv t

/-! ### The host -/

/-- R155, R156, R151: `START` in `Idle` with an accepted configuration offers the size command on `cmd_in`, behind what is offered there, and the engine waits for its response; in any other state, with a refused
configuration, or while the host is inside a command, nothing happens. The schedule, the engine's way through the port and the last case are the
model's (log entries 2, 9, 21, 24). -/
def Obligations.StartAnnouncesSize : Prop :=
  ∀ (s : State) (ms : List Move), s.sched = .host .start :: ms →
    (s.host.st = .idle → 1 ≤ s.host.capacity → s.host.data.length < 2 ^ 32 → hostFree s = true →
      step s = .next { s with
        sched := ms, cmdIn := s.cmdIn ++ commandBeats .frame (le32 (BitVec.ofNat 32 s.host.data.length)),
        host := { s.host with call := .waits (s.rspo.length + commandsOffered s) } }) ∧
    (s.host.st ≠ .idle ∨ s.host.capacity = 0 ∨ 2 ^ 32 ≤ s.host.data.length ∨ hostFree s = false →
      step s = .next { s with sched := ms })

/-- R152, R153, R154, R157, R159, R161: the engine's transitions, each as one step. The awaited token offers the `CHUNK` command for `data[offset .. min(offset + C, L))` while data remains, and is
`Done` otherwise; the response to the engine's command is the frame to write, and the engine is at the gate; the gate writes the frame whole, and for a chunk advances the
cursor by the full capacity. The schedule and the engine's way through the ports are the model's (log entries 2, 9, 13, 24). -/
def Obligations.EngineTransitions : Prop :=
  ∀ (s : State) (ms : List Move),
    (s.sched = .host .takeEvent :: ms → hostFree s = true →
      (s.host.st = .awaitingSizeAck ∧
          s.rxo[s.host.taken]? = some (.msg [0x53#8, 0x49#8, 0x5A#8, 0x45#8, 0x5F#8, 0x41#8, 0x43#8, 0x4B#8])) ∨
        (s.host.st = .awaitingChunkAck ∧ s.rxo[s.host.taken]? = some (.msg [0x41#8, 0x43#8, 0x4B#8])) →
      (s.host.offset < s.host.data.length →
        step s = .next { s with
          sched := ms
          cmdIn := s.cmdIn ++ commandBeats .chunk ((s.host.data.drop s.host.offset).take s.host.capacity)
          host := { s.host with taken := s.host.taken + 1, rxSent := 0,
                                call := .waits (s.rspo.length + commandsOffered s) } }) ∧
      (s.host.data.length ≤ s.host.offset →
        step s = .next { s with sched := ms, host := { s.host with taken := s.host.taken + 1, rxSent := 0, st := .done } })) ∧
    (∀ r, s.sched = .host .takeResponse :: ms → s.rspo[s.host.rspTaken]? = some r →
      (s.host.call = .waits s.host.rspTaken → ∃ st', step s = .next { s with
          sched := ms
          host := { s.host with rspTaken := s.host.rspTaken + 1, rspSent := 0, frame := r.bytes, call := .idle, st := st' } } ∧
        (s.host.st = .idle → st' = .announcingSize) ∧
        (s.host.st = .awaitingSizeAck ∨ s.host.st = .awaitingChunkAck → st' = .sendingChunk)) ∧
      (s.host.call ≠ .waits s.host.rspTaken → step s = .next { s with
          sched := ms, host := { s.host with rspTaken := s.host.rspTaken + 1, rspSent := 0 } })) ∧
    (s.sched = .host .writable :: ms →
      (s.host.st = .announcingSize → step s = .next { s with
          sched := ms, host := { s.host with txo := s.host.txo ++ [s.host.frame], frame := [], st := .awaitingSizeAck } }) ∧
      (s.host.st = .sendingChunk → step s = .next { s with
          sched := ms
          host := { s.host with txo := s.host.txo ++ [s.host.frame], frame := [], st := .awaitingChunkAck,
                                offset := s.host.offset + s.host.capacity } }) ∧
      (s.host.st ≠ .announcingSize → s.host.st ≠ .sendingChunk → step s = .next { s with sched := ms }))

/-- R70, R152, R157, R158: the bytes of the two tokens; and an event taken that is an error, or a message that is not the token the engine waits for, changes nothing of the engine and writes nothing. The schedule
is the model's (log entries 2, 24). -/
def Obligations.UnrecognisedEventsChangeNothing : Prop :=
  tokSizeAck = [0x53#8, 0x49#8, 0x5A#8, 0x45#8, 0x5F#8, 0x41#8, 0x43#8, 0x4B#8] ∧ tokAck = [0x41#8, 0x43#8, 0x4B#8] ∧
  ∀ (s : State) (ms : List Move) (e : Event), s.sched = .host .takeEvent :: ms → s.rxo[s.host.taken]? = some e →
    hostFree s = true →
    ¬(s.host.st = .awaitingSizeAck ∧ e = .msg tokSizeAck) → ¬(s.host.st = .awaitingChunkAck ∧ e = .msg tokAck) →
    step s = .next { s with sched := ms, host := { s.host with taken := s.host.taken + 1, rxSent := 0 } }

/-- R163, R157, R153, R161: one step of pacing. Out of `Idle` a command is issued only by the step that takes the awaited token, and that step takes it, so one acknowledgement serves one chunk; the engine gets to
`SendingChunk` only with the response to that command as its frame, and to `Done` only by taking the awaited token once the cursor covers the file; frames are written only one at a time, in `AnnouncingSize` or `SendingChunk`, each write
leaving the engine in an awaiting state. The schedule and the engine's way through the ports are the model's (log entries 2, 9). -/
def Obligations.PacingOfChunks : Prop :=
  ∀ s t : State, step s = .next t →
    let acknowledged := (s.host.st = .awaitingSizeAck ∧ s.rxo[s.host.taken]? = some (.msg tokSizeAck)) ∨
      (s.host.st = .awaitingChunkAck ∧ s.rxo[s.host.taken]? = some (.msg tokAck))
    (s.host.call = .idle → t.host.call ≠ .idle → s.host.st ≠ .idle →
      acknowledged ∧ t.host.taken = s.host.taken + 1 ∧ s.host.offset < s.host.data.length) ∧
    (t.host.st = .sendingChunk → s.host.st ≠ .sendingChunk →
      (s.host.st = .awaitingSizeAck ∨ s.host.st = .awaitingChunkAck) ∧ s.host.call = .waits s.host.rspTaken ∧
      t.host.call = .idle ∧ ∃ r, s.rspo[s.host.rspTaken]? = some r ∧ t.host.frame = r.bytes) ∧
    (t.host.st = .done → s.host.st ≠ .done →
      acknowledged ∧ t.host.taken = s.host.taken + 1 ∧ s.host.data.length ≤ s.host.offset) ∧
    (t.host.txo ≠ s.host.txo →
      t.host.txo = s.host.txo ++ [s.host.frame] ∧
      ((s.host.st = .announcingSize ∧ t.host.st = .awaitingSizeAck) ∨
       (s.host.st = .sendingChunk ∧ t.host.st = .awaitingChunkAck)))

/-- R150, R155, R159 to R161, R168, R230: every step keeps the invariant of a transfer when the engine's operands are within `OP_CAP`: what has been written is the size frame and the chunk frames in order, the response
the engine waits for will be the next frame, `offset` is a multiple of the capacity, and `Done` means that the cursor covers the file. The engine's frame, its trace of
writes and its call are fields of the model (log entries 9, 10). -/
def Obligations.StepKeepsTransferInvariant : Prop :=
  ∀ s t : State, operandsFit s → TransferInv s → step s = .next t → TransferInv t

/-- R164: the chunks of a file concatenate to it, there are `ceil(L / C)` of them, all but the last have `C` bytes, and each one's attached checksum is that of its raw bytes. -/
def Obligations.ChunkCoverage : Prop :=
  ∀ (content : List Byte) (c : Nat), 1 ≤ c →
    (List.range (chunkCount content.length c)).flatMap (chunkOf content c) = content ∧
    (∀ k, k + 1 < chunkCount content.length c → (chunkOf content c k).length = c) ∧
    (∀ k, k < chunkCount content.length c → 1 ≤ (chunkOf content c k).length ∧ (chunkOf content c k).length ≤ c ∧
      answerValidate (attachBytes (chunkOf content c k)) = ⟨.ok, chunkOf content c k⟩)

/-- R152, R155 to R161, R164, R214: a whole transfer through the ports. From `START`, with the remote acknowledging every frame with the right token, the engine ends in `Done` with exactly the size frame and the `ceil(L / C)` chunk frames
written, in order, and the cursor at `ceil(L / C) * C`. The schedule and the engine's way through the ports are the model's (log entries 2, 9). -/
def Obligations.AcknowledgedTransferCompletes : Prop :=
  ∀ (s : State) (ms : List Move), TransferReady s →
    let n := chunkCount s.host.data.length s.host.capacity
    let moves := transferMoves n s.host.capacity
    s.sched = moves ++ ms →
    ∃ t, runSteps moves.length s = .next t ∧ t.sched = ms ∧ t.host.st = .done ∧ t.host.offset = n * s.host.capacity ∧
      t.host.txo = framesWritten s.params.tail01 s.host.data s.host.capacity n

/-- R162, R222, R234: a stalled engine stays where it is for the rest of the run: no time-out, no retry, no write. The schedule is the model's (log entry 2). -/
def Obligations.StalledEngineStays : Prop :=
  ∀ s : State, hostStalled s = true → ∀ k t, runSteps k s = .next t →
    t.host.st = s.host.st ∧ t.host.offset = s.host.offset ∧ t.host.txo = s.host.txo
end

