-- ==== Sys2Proof/Laws/Codec.lean ====
section
/-! SUPPORT. The functions of U1: the cut into segments, the blocks of a segment, and decode's loop. -/

namespace Sys2Proof.Machine

/-- Put segments together again, a zero between two (R90). -/
def joinSegments : List (List Byte) → List Byte
  | [] => []
  | [g] => g
  | g :: gs => g ++ 0x00#8 :: joinSegments gs

theorem segments_ne_nil (p : List Byte) : segments p ≠ [] := by
  cases p with
  | nil => simp [segments]
  | cons b p =>
    simp only [segments]
    split
    · simp
    · split <;> simp

/-- Cutting a zero off (R90). -/
theorem segments_zero (p : List Byte) : segments (0x00#8 :: p) = [] :: segments p := by simp [segments]

/-- A byte that is not zero joins the first segment. -/
theorem segments_cons {b : Byte} (hb : b ≠ 0x00#8) (p : List Byte) :
    ∃ g gs, segments p = g :: gs ∧ segments (b :: p) = (b :: g) :: gs := by
  cases h : segments p with
  | nil => exact absurd h (segments_ne_nil p)
  | cons g gs => exact ⟨g, gs, rfl, by simp [segments, hb, h]⟩

/-- The segments of a payload make it up (R90). -/
theorem joinSegments_segments (p : List Byte) : joinSegments (segments p) = p := by
  induction p with
  | nil => rfl
  | cons b p ih =>
    by_cases hb : b = 0x00#8
    · subst hb
      rw [segments_zero]
      cases h : segments p with
      | nil => exact absurd h (segments_ne_nil p)
      | cons g gs => rw [h] at ih; simp [joinSegments, ih]
    · obtain ⟨g, gs, h, h'⟩ := segments_cons hb p
      rw [h] at ih
      rw [h', ← ih]
      cases gs <;> rfl

/-- No segment holds a zero (R90). -/
theorem segments_zero_free (p : List Byte) : ∀ g ∈ segments p, 0x00#8 ∉ g := by
  induction p with
  | nil => simp [segments]
  | cons b p ih =>
    by_cases hb : b = 0x00#8
    · subst hb
      rw [segments_zero]
      simpa using ih
    · obtain ⟨g, gs, h, h'⟩ := segments_cons hb p
      rw [h] at ih
      rw [h']
      intro g' hg'
      rcases List.mem_cons.1 hg' with rfl | hg'
      · have := ih g (by simp)
        simp only [List.mem_cons, not_or]
        exact ⟨fun h => hb h.symm, this⟩
      · exact ih g' (by simp [hg'])

/-- A zero-free payload is its own only segment. -/
theorem segments_of_zero_free {p : List Byte} (h : 0x00#8 ∉ p) : segments p = [p] := by
  induction p with
  | nil => rfl
  | cons b p ih =>
    simp only [List.mem_cons, not_or] at h
    have hb : b ≠ 0x00#8 := fun e => h.1 e.symm
    simp [segments, hb, ih h.2]

/-- Segments of a payload that begins with a zero-free piece and a zero. -/
theorem segments_append_zero {g : List Byte} (h : 0x00#8 ∉ g) (p : List Byte) :
    segments (g ++ 0x00#8 :: p) = g :: segments p := by
  induction g with
  | nil => simp [segments]
  | cons b g ih =>
    simp only [List.mem_cons, not_or] at h
    have hb : b ≠ 0x00#8 := fun e => h.1 e.symm
    simp [segments, hb, ih h.2]

/-- Decode's loop on the rest of its input instead of an index: each block takes at least one byte. -/
def decodeRest : Nat → List Byte → List Byte → DecResult
  | 0, _, _ => .err .overrun
  | _ + 1, [], out => .ok out
  | n + 1, c :: r, out =>
    if r.length + 1 < c.toNat then .err .overrun
    else
      let rest := r.drop (c.toNat - 1)
      let out1 := out ++ r.take (c.toNat - 1)
      decodeRest n rest (if c.toNat < 255 ∧ rest ≠ [] then out1 ++ [0x00#8] else out1)

/-- The loop by index and the loop on the rest agree on inputs without a zero (R96). -/
theorem decodeLoop_eq_rest (n : Nat) (w : List Byte) (i : Nat) (out : List Byte) (hw : 0x00#8 ∉ w) (hi : i ≤ w.length) :
    decodeLoop n w i out = decodeRest n (w.drop i) out := by
  induction n generalizing i out with
  | zero => rfl
  | succ n ih =>
    rcases Nat.lt_or_eq_of_le hi with hlt | rfl
    · have hd : w.drop i = w[i] :: w.drop (i + 1) := List.drop_eq_getElem_cons hlt
      have hne : w[i] ≠ 0x00#8 := fun e => hw (e ▸ List.getElem_mem hlt)
      have hpos : 0 < w[i].toNat := by
        rcases Nat.eq_zero_or_pos w[i].toNat with h0 | h0
        · exact absurd (BitVec.eq_of_toNat_eq (by simpa using h0)) hne
        · exact h0
      rw [hd]
      simp only [decodeLoop, List.getElem?_eq_getElem hlt, decodeRest, List.length_drop]
      have hiff : w.length < i + w[i].toNat ↔ w.length - (i + 1) + 1 < w[i].toNat := by omega
      by_cases hover : w.length < i + w[i].toNat
      · rw [if_pos hover, if_pos (hiff.1 hover)]
      · rw [if_neg hover, if_neg (fun h => hover (hiff.2 h))]
        have hdrop : (w.drop (i + 1)).drop (w[i].toNat - 1) = w.drop (i + w[i].toNat) := by
          rw [List.drop_drop]; congr 1; omega
        have htake : slice w (i + 1) (i + w[i].toNat) = (w.drop (i + 1)).take (w[i].toNat - 1) := by
          unfold slice; congr 1; omega
        have hne' : i + w[i].toNat < w.length ↔ w.drop (i + w[i].toNat) ≠ [] := by
          rw [Ne, List.drop_eq_nil_iff]; omega
        rw [ih _ _ (by omega), htake, hdrop]
        simp only [hne']
    · rw [List.drop_of_length_le (Nat.le_refl _)]
      simp [decodeLoop, decodeRest]

/-- `decode` by the loop on the rest (R96). -/
theorem codecDecode_eq_rest {w : List Byte} (hw : 0x00#8 ∉ w) :
    codecDecode w = decodeRest (w.length + 1) w [] := by
  unfold codecDecode
  rw [if_neg hw, decodeLoop_eq_rest _ _ _ _ hw (Nat.zero_le _), List.drop_zero]

/-- A zero anywhere is `E_ZERO` (R96, R100). -/
theorem codecDecode_zero {w : List Byte} (hw : 0x00#8 ∈ w) : codecDecode w = .err .zero := by
  unfold codecDecode; rw [if_pos hw]

/-- The loop fails with `E_OVERRUN` only (R182). -/
theorem decodeRest_err (n : Nat) (r out : List Byte) (code : Status) (h : decodeRest n r out = .err code) :
    code = .overrun := by
  induction n generalizing r out with
  | zero => simpa [decodeRest] using h.symm
  | succ n ih =>
    cases r with
    | nil => simp [decodeRest] at h
    | cons c r =>
      simp only [decodeRest] at h
      split at h
      · simpa using h.symm
      · exact ih _ _ h

end Sys2Proof.Machine
end

