-- ==== Sys2Proof/Laws/Decode.lean ====
section
/-! SUPPORT. What decoding can answer: a well-formed instruction of the beat's format. -/

namespace Sys2Proof

/-- Decoding answers an instruction of the beat's format. -/
theorem decode_format (b : Beat) : (decode b).format = b.format := by
  cases b with
  | rxi w => simp only [decode, decodeRxi]; split <;> [rfl; (split <;> rfl)]
  | cmd w =>
    simp only [decode, decodeCmd]
    split
    · rfl
    · split
      · unfold decodeGo; repeat' (first | rfl | split)
      · rfl
  | wire w => simp only [decode, decodeWire]; split <;> [rfl; (split <;> rfl)]

/-- An RXI beat's bits from its fields (R61). -/
theorem rxiBeat_toNat (e : BitVec 1) (d : Byte) : (rxiBeat e d).toNat = 256 * e.toNat + d.toNat := by
  unfold rxiBeat
  rw [BitVec.toNat_append, ← Nat.shiftLeft_add_eq_or_of_lt d.isLt, Nat.shiftLeft_eq]
  omega

/-- A CMD beat's bits from its fields (R64). -/
theorem cmdBeat_toNat (t : BitVec 2) (d : Byte) : (cmdBeat t d).toNat = 256 * t.toNat + d.toNat := by
  unfold cmdBeat
  rw [BitVec.toNat_append, ← Nat.shiftLeft_add_eq_or_of_lt d.isLt, Nat.shiftLeft_eq]
  omega

/-- An RXI beat's data field read back (R61). -/
theorem rxiData_rxiBeat (e : BitVec 1) (d : Byte) : rxiData (rxiBeat e d) = d := by
  apply BitVec.eq_of_toNat_eq
  have := d.isLt
  rw [rxiData, BitVec.extractLsb'_toNat, rxiBeat_toNat, Nat.shiftRight_zero]
  omega

/-- An RXI beat's end bit read back (R61). -/
theorem rxiEnd_rxiBeat (e : BitVec 1) (d : Byte) : rxiEnd (rxiBeat e d) = e := by
  apply BitVec.eq_of_toNat_eq
  have := d.isLt
  have := e.isLt
  rw [rxiEnd, BitVec.extractLsb'_toNat, rxiBeat_toNat, Nat.shiftRight_eq_div_pow]
  omega

/-- A CMD beat's data field read back (R64). -/
theorem cmdData_cmdBeat (t : BitVec 2) (d : Byte) : cmdData (cmdBeat t d) = d := by
  apply BitVec.eq_of_toNat_eq
  have := d.isLt
  rw [cmdData, BitVec.extractLsb'_toNat, cmdBeat_toNat, Nat.shiftRight_zero]
  omega

/-- A CMD beat's tag read back (R64). -/
theorem cmdTag_cmdBeat (t : BitVec 2) (d : Byte) : cmdTag (cmdBeat t d) = t := by
  apply BitVec.eq_of_toNat_eq
  have := d.isLt
  have := t.isLt
  rw [cmdTag, BitVec.extractLsb'_toNat, cmdBeat_toNat, Nat.shiftRight_eq_div_pow]
  omega

/-- A `DATA` token never carries the delimiter (R61). -/
theorem decode_rxi_data {w : BitVec 9} {b : Byte} (h : decode (.rxi w) = .data b) : b ≠ 0x00#8 := by
  simp only [decode, decodeRxi] at h
  split at h
  · cases h
  · split at h
    · cases h
    · cases h; assumption

end Sys2Proof
end

