-- ==== Sys2Proof/Laws/State.lean ====
section
/-! SUPPORT. One lemma per field of the state per update, each true by unfolding the update once. -/

namespace Sys2Proof.Machine

@[simp] theorem setPoison_carry (s : State) : (setPoison s).carry = s.carry := rfl
@[simp] theorem setPoison_poison (s : State) : (setPoison s).poison = true := rfl
@[simp] theorem setPoison_closed (s : State) : (setPoison s).closed = s.closed := rfl
@[simp] theorem setPoison_rxo (s : State) : (setPoison s).rxo = s.rxo := rfl
@[simp] theorem setPoison_operand (s : State) : (setPoison s).operand = s.operand := rfl
@[simp] theorem setPoison_tooLong (s : State) : (setPoison s).tooLong = s.tooLong := rfl
@[simp] theorem setPoison_rspo (s : State) : (setPoison s).rspo = s.rspo := rfl
@[simp] theorem setPoison_wire (s : State) : (setPoison s).wire = s.wire := rfl
@[simp] theorem setPoison_rxIn (s : State) : (setPoison s).rxIn = s.rxIn := rfl
@[simp] theorem setPoison_cmdIn (s : State) : (setPoison s).cmdIn = s.cmdIn := rfl
@[simp] theorem setPoison_host (s : State) : (setPoison s).host = s.host := rfl
@[simp] theorem setPoison_sched (s : State) : (setPoison s).sched = s.sched := rfl
@[simp] theorem setPoison_params (s : State) : (setPoison s).params = s.params := rfl

@[simp] theorem clearPoison_carry (s : State) : (clearPoison s).carry = s.carry := rfl
@[simp] theorem clearPoison_poison (s : State) : (clearPoison s).poison = false := rfl
@[simp] theorem clearPoison_closed (s : State) : (clearPoison s).closed = s.closed := rfl
@[simp] theorem clearPoison_rxo (s : State) : (clearPoison s).rxo = s.rxo := rfl
@[simp] theorem clearPoison_operand (s : State) : (clearPoison s).operand = s.operand := rfl
@[simp] theorem clearPoison_tooLong (s : State) : (clearPoison s).tooLong = s.tooLong := rfl
@[simp] theorem clearPoison_rspo (s : State) : (clearPoison s).rspo = s.rspo := rfl
@[simp] theorem clearPoison_wire (s : State) : (clearPoison s).wire = s.wire := rfl
@[simp] theorem clearPoison_rxIn (s : State) : (clearPoison s).rxIn = s.rxIn := rfl
@[simp] theorem clearPoison_cmdIn (s : State) : (clearPoison s).cmdIn = s.cmdIn := rfl
@[simp] theorem clearPoison_host (s : State) : (clearPoison s).host = s.host := rfl
@[simp] theorem clearPoison_sched (s : State) : (clearPoison s).sched = s.sched := rfl
@[simp] theorem clearPoison_params (s : State) : (clearPoison s).params = s.params := rfl

@[simp] theorem setClosed_carry (s : State) : (setClosed s).carry = s.carry := rfl
@[simp] theorem setClosed_poison (s : State) : (setClosed s).poison = s.poison := rfl
@[simp] theorem setClosed_closed (s : State) : (setClosed s).closed = true := rfl
@[simp] theorem setClosed_rxo (s : State) : (setClosed s).rxo = s.rxo := rfl
@[simp] theorem setClosed_operand (s : State) : (setClosed s).operand = s.operand := rfl
@[simp] theorem setClosed_tooLong (s : State) : (setClosed s).tooLong = s.tooLong := rfl
@[simp] theorem setClosed_rspo (s : State) : (setClosed s).rspo = s.rspo := rfl
@[simp] theorem setClosed_wire (s : State) : (setClosed s).wire = s.wire := rfl
@[simp] theorem setClosed_rxIn (s : State) : (setClosed s).rxIn = s.rxIn := rfl
@[simp] theorem setClosed_cmdIn (s : State) : (setClosed s).cmdIn = s.cmdIn := rfl
@[simp] theorem setClosed_host (s : State) : (setClosed s).host = s.host := rfl
@[simp] theorem setClosed_sched (s : State) : (setClosed s).sched = s.sched := rfl
@[simp] theorem setClosed_params (s : State) : (setClosed s).params = s.params := rfl

@[simp] theorem appendByte_carry (b : Byte) (s : State) : (appendByte b s).carry = s.carry ++ [b] := rfl
@[simp] theorem appendByte_poison (b : Byte) (s : State) : (appendByte b s).poison = s.poison := rfl
@[simp] theorem appendByte_closed (b : Byte) (s : State) : (appendByte b s).closed = s.closed := rfl
@[simp] theorem appendByte_rxo (b : Byte) (s : State) : (appendByte b s).rxo = s.rxo := rfl
@[simp] theorem appendByte_operand (b : Byte) (s : State) : (appendByte b s).operand = s.operand := rfl
@[simp] theorem appendByte_tooLong (b : Byte) (s : State) : (appendByte b s).tooLong = s.tooLong := rfl
@[simp] theorem appendByte_rspo (b : Byte) (s : State) : (appendByte b s).rspo = s.rspo := rfl
@[simp] theorem appendByte_wire (b : Byte) (s : State) : (appendByte b s).wire = s.wire := rfl
@[simp] theorem appendByte_rxIn (b : Byte) (s : State) : (appendByte b s).rxIn = s.rxIn := rfl
@[simp] theorem appendByte_cmdIn (b : Byte) (s : State) : (appendByte b s).cmdIn = s.cmdIn := rfl
@[simp] theorem appendByte_host (b : Byte) (s : State) : (appendByte b s).host = s.host := rfl
@[simp] theorem appendByte_sched (b : Byte) (s : State) : (appendByte b s).sched = s.sched := rfl
@[simp] theorem appendByte_params (b : Byte) (s : State) : (appendByte b s).params = s.params := rfl

@[simp] theorem cutFrame_carry (s : State) : (cutFrame s).carry = [] := rfl
@[simp] theorem cutFrame_poison (s : State) : (cutFrame s).poison = false := rfl
@[simp] theorem cutFrame_closed (s : State) : (cutFrame s).closed = s.closed := rfl
@[simp] theorem cutFrame_rxo (s : State) : (cutFrame s).rxo = s.rxo := rfl
@[simp] theorem cutFrame_operand (s : State) : (cutFrame s).operand = s.operand := rfl
@[simp] theorem cutFrame_tooLong (s : State) : (cutFrame s).tooLong = s.tooLong := rfl
@[simp] theorem cutFrame_rspo (s : State) : (cutFrame s).rspo = s.rspo := rfl
@[simp] theorem cutFrame_wire (s : State) : (cutFrame s).wire = s.wire := rfl
@[simp] theorem cutFrame_rxIn (s : State) : (cutFrame s).rxIn = s.rxIn := rfl
@[simp] theorem cutFrame_cmdIn (s : State) : (cutFrame s).cmdIn = s.cmdIn := rfl
@[simp] theorem cutFrame_host (s : State) : (cutFrame s).host = s.host := rfl
@[simp] theorem cutFrame_sched (s : State) : (cutFrame s).sched = s.sched := rfl
@[simp] theorem cutFrame_params (s : State) : (cutFrame s).params = s.params := rfl

@[simp] theorem emit_carry (e : Event) (s : State) : (emit e s).carry = s.carry := rfl
@[simp] theorem emit_poison (e : Event) (s : State) : (emit e s).poison = s.poison := rfl
@[simp] theorem emit_closed (e : Event) (s : State) : (emit e s).closed = s.closed := rfl
@[simp] theorem emit_rxo (e : Event) (s : State) : (emit e s).rxo = s.rxo ++ [e] := rfl
@[simp] theorem emit_operand (e : Event) (s : State) : (emit e s).operand = s.operand := rfl
@[simp] theorem emit_tooLong (e : Event) (s : State) : (emit e s).tooLong = s.tooLong := rfl
@[simp] theorem emit_rspo (e : Event) (s : State) : (emit e s).rspo = s.rspo := rfl
@[simp] theorem emit_wire (e : Event) (s : State) : (emit e s).wire = s.wire := rfl
@[simp] theorem emit_rxIn (e : Event) (s : State) : (emit e s).rxIn = s.rxIn := rfl
@[simp] theorem emit_cmdIn (e : Event) (s : State) : (emit e s).cmdIn = s.cmdIn := rfl
@[simp] theorem emit_host (e : Event) (s : State) : (emit e s).host = s.host := rfl
@[simp] theorem emit_sched (e : Event) (s : State) : (emit e s).sched = s.sched := rfl
@[simp] theorem emit_params (e : Event) (s : State) : (emit e s).params = s.params := rfl

@[simp] theorem endFrame_carry (s : State) : (endFrame s).carry = [] := rfl
@[simp] theorem endFrame_poison (s : State) : (endFrame s).poison = false := rfl
@[simp] theorem endFrame_closed (s : State) : (endFrame s).closed = s.closed := rfl
@[simp] theorem endFrame_rxo (s : State) : (endFrame s).rxo = s.rxo ++ [frameEvent s.carry s.poison] := rfl
@[simp] theorem endFrame_operand (s : State) : (endFrame s).operand = s.operand := rfl
@[simp] theorem endFrame_tooLong (s : State) : (endFrame s).tooLong = s.tooLong := rfl
@[simp] theorem endFrame_rspo (s : State) : (endFrame s).rspo = s.rspo := rfl
@[simp] theorem endFrame_wire (s : State) : (endFrame s).wire = s.wire := rfl
@[simp] theorem endFrame_rxIn (s : State) : (endFrame s).rxIn = s.rxIn := rfl
@[simp] theorem endFrame_cmdIn (s : State) : (endFrame s).cmdIn = s.cmdIn := rfl
@[simp] theorem endFrame_host (s : State) : (endFrame s).host = s.host := rfl
@[simp] theorem endFrame_sched (s : State) : (endFrame s).sched = s.sched := rfl
@[simp] theorem endFrame_params (s : State) : (endFrame s).params = s.params := rfl

@[simp] theorem respond_carry (r : Response) (s : State) : (respond r s).carry = s.carry := rfl
@[simp] theorem respond_poison (r : Response) (s : State) : (respond r s).poison = s.poison := rfl
@[simp] theorem respond_closed (r : Response) (s : State) : (respond r s).closed = s.closed := rfl
@[simp] theorem respond_rxo (r : Response) (s : State) : (respond r s).rxo = s.rxo := rfl
@[simp] theorem respond_operand (r : Response) (s : State) : (respond r s).operand = [] := rfl
@[simp] theorem respond_tooLong (r : Response) (s : State) : (respond r s).tooLong = false := rfl
@[simp] theorem respond_rspo (r : Response) (s : State) : (respond r s).rspo = s.rspo ++ [r] := rfl
@[simp] theorem respond_wire (r : Response) (s : State) : (respond r s).wire = s.wire := rfl
@[simp] theorem respond_rxIn (r : Response) (s : State) : (respond r s).rxIn = s.rxIn := rfl
@[simp] theorem respond_cmdIn (r : Response) (s : State) : (respond r s).cmdIn = s.cmdIn := rfl
@[simp] theorem respond_host (r : Response) (s : State) : (respond r s).host = s.host := rfl
@[simp] theorem respond_sched (r : Response) (s : State) : (respond r s).sched = s.sched := rfl
@[simp] theorem respond_params (r : Response) (s : State) : (respond r s).params = s.params := rfl

@[simp] theorem rejectCommand_carry (s : State) : (rejectCommand s).carry = s.carry := rfl
@[simp] theorem rejectCommand_poison (s : State) : (rejectCommand s).poison = s.poison := rfl
@[simp] theorem rejectCommand_closed (s : State) : (rejectCommand s).closed = s.closed := rfl
@[simp] theorem rejectCommand_rxo (s : State) : (rejectCommand s).rxo = s.rxo := rfl
@[simp] theorem rejectCommand_operand (s : State) : (rejectCommand s).operand = [] := rfl
@[simp] theorem rejectCommand_tooLong (s : State) : (rejectCommand s).tooLong = false := rfl
@[simp] theorem rejectCommand_rspo (s : State) : (rejectCommand s).rspo = s.rspo ++ [failure .illegal] := rfl
@[simp] theorem rejectCommand_wire (s : State) : (rejectCommand s).wire = s.wire := rfl
@[simp] theorem rejectCommand_rxIn (s : State) : (rejectCommand s).rxIn = s.rxIn := rfl
@[simp] theorem rejectCommand_cmdIn (s : State) : (rejectCommand s).cmdIn = s.cmdIn := rfl
@[simp] theorem rejectCommand_host (s : State) : (rejectCommand s).host = s.host := rfl
@[simp] theorem rejectCommand_sched (s : State) : (rejectCommand s).sched = s.sched := rfl
@[simp] theorem rejectCommand_params (s : State) : (rejectCommand s).params = s.params := rfl

@[simp] theorem closeCommand_carry (f : List Byte → Response) (s : State) : (closeCommand f s).carry = s.carry := rfl
@[simp] theorem closeCommand_poison (f : List Byte → Response) (s : State) : (closeCommand f s).poison = s.poison := rfl
@[simp] theorem closeCommand_closed (f : List Byte → Response) (s : State) : (closeCommand f s).closed = s.closed := rfl
@[simp] theorem closeCommand_rxo (f : List Byte → Response) (s : State) : (closeCommand f s).rxo = s.rxo := rfl
@[simp] theorem closeCommand_operand (f : List Byte → Response) (s : State) : (closeCommand f s).operand = [] := rfl
@[simp] theorem closeCommand_tooLong (f : List Byte → Response) (s : State) : (closeCommand f s).tooLong = false := rfl
@[simp] theorem closeCommand_rspo (f : List Byte → Response) (s : State) : (closeCommand f s).rspo = s.rspo ++ [if s.tooLong then failure .toolong else f s.operand] := rfl
@[simp] theorem closeCommand_wire (f : List Byte → Response) (s : State) : (closeCommand f s).wire = s.wire := rfl
@[simp] theorem closeCommand_rxIn (f : List Byte → Response) (s : State) : (closeCommand f s).rxIn = s.rxIn := rfl
@[simp] theorem closeCommand_cmdIn (f : List Byte → Response) (s : State) : (closeCommand f s).cmdIn = s.cmdIn := rfl
@[simp] theorem closeCommand_host (f : List Byte → Response) (s : State) : (closeCommand f s).host = s.host := rfl
@[simp] theorem closeCommand_sched (f : List Byte → Response) (s : State) : (closeCommand f s).sched = s.sched := rfl
@[simp] theorem closeCommand_params (f : List Byte → Response) (s : State) : (closeCommand f s).params = s.params := rfl

@[simp] theorem collectByte_carry (b : Byte) (s : State) : (collectByte b s).carry = s.carry := by
  unfold collectByte; split <;> rfl
@[simp] theorem collectByte_poison (b : Byte) (s : State) : (collectByte b s).poison = s.poison := by
  unfold collectByte; split <;> rfl
@[simp] theorem collectByte_closed (b : Byte) (s : State) : (collectByte b s).closed = s.closed := by
  unfold collectByte; split <;> rfl
@[simp] theorem collectByte_rxo (b : Byte) (s : State) : (collectByte b s).rxo = s.rxo := by
  unfold collectByte; split <;> rfl
@[simp] theorem collectByte_rspo (b : Byte) (s : State) : (collectByte b s).rspo = s.rspo := by
  unfold collectByte; split <;> rfl
@[simp] theorem collectByte_wire (b : Byte) (s : State) : (collectByte b s).wire = s.wire := by
  unfold collectByte; split <;> rfl
@[simp] theorem collectByte_rxIn (b : Byte) (s : State) : (collectByte b s).rxIn = s.rxIn := by
  unfold collectByte; split <;> rfl
@[simp] theorem collectByte_cmdIn (b : Byte) (s : State) : (collectByte b s).cmdIn = s.cmdIn := by
  unfold collectByte; split <;> rfl
@[simp] theorem collectByte_host (b : Byte) (s : State) : (collectByte b s).host = s.host := by
  unfold collectByte; split <;> rfl
@[simp] theorem collectByte_sched (b : Byte) (s : State) : (collectByte b s).sched = s.sched := by
  unfold collectByte; split <;> rfl
@[simp] theorem collectByte_params (b : Byte) (s : State) : (collectByte b s).params = s.params := by
  unfold collectByte; split <;> rfl

/-- What collecting a byte does to the operand buffer (R189). -/
@[simp] theorem collectByte_operand (b : Byte) (s : State) :
    (collectByte b s).operand = if roomFor s.params.opCap s.operand.length then s.operand ++ [b] else s.operand := by
  unfold collectByte; split <;> rfl

/-- What collecting a byte does to the too-long mark (R189). -/
@[simp] theorem collectByte_tooLong (b : Byte) (s : State) :
    (collectByte b s).tooLong = if roomFor s.params.opCap s.operand.length then s.tooLong else true := by
  unfold collectByte; split <;> rfl

end Sys2Proof.Machine
end

