-- ==== Sys2Proof/Laws/Engine.lean ====
section
/-! SUPPORT. What each operation of the host can do, said once. -/

namespace Sys2Proof.Machine

/-! ### One lemma per field per update -/

@[simp] theorem issueCommand_carry (op : CmdOp) (w : List Byte) (s : State) :
    (issueCommand op w s).carry = s.carry := rfl
@[simp] theorem issueCommand_poison (op : CmdOp) (w : List Byte) (s : State) :
    (issueCommand op w s).poison = s.poison := rfl
@[simp] theorem issueCommand_closed (op : CmdOp) (w : List Byte) (s : State) :
    (issueCommand op w s).closed = s.closed := rfl
@[simp] theorem issueCommand_rxo (op : CmdOp) (w : List Byte) (s : State) :
    (issueCommand op w s).rxo = s.rxo := rfl
@[simp] theorem issueCommand_operand (op : CmdOp) (w : List Byte) (s : State) :
    (issueCommand op w s).operand = s.operand := rfl
@[simp] theorem issueCommand_tooLong (op : CmdOp) (w : List Byte) (s : State) :
    (issueCommand op w s).tooLong = s.tooLong := rfl
@[simp] theorem issueCommand_rspo (op : CmdOp) (w : List Byte) (s : State) :
    (issueCommand op w s).rspo = s.rspo := rfl
@[simp] theorem issueCommand_wire (op : CmdOp) (w : List Byte) (s : State) :
    (issueCommand op w s).wire = s.wire := rfl
@[simp] theorem issueCommand_rxIn (op : CmdOp) (w : List Byte) (s : State) :
    (issueCommand op w s).rxIn = s.rxIn := rfl
@[simp] theorem issueCommand_cmdIn (op : CmdOp) (w : List Byte) (s : State) :
    (issueCommand op w s).cmdIn = s.cmdIn ++ commandBeats op w := rfl
@[simp] theorem issueCommand_host (op : CmdOp) (w : List Byte) (s : State) :
    (issueCommand op w s).host = { s.host with call := .waits (s.rspo.length + commandsOffered s) } := rfl
@[simp] theorem issueCommand_sched (op : CmdOp) (w : List Byte) (s : State) :
    (issueCommand op w s).sched = s.sched := rfl
@[simp] theorem issueCommand_params (op : CmdOp) (w : List Byte) (s : State) :
    (issueCommand op w s).params = s.params := rfl

@[simp] theorem writeFrame_data (h : HostState) : (writeFrame h).data = h.data := rfl
@[simp] theorem writeFrame_capacity (h : HostState) : (writeFrame h).capacity = h.capacity := rfl
@[simp] theorem writeFrame_offset (h : HostState) : (writeFrame h).offset = h.offset := rfl
@[simp] theorem writeFrame_st (h : HostState) : (writeFrame h).st = h.st := rfl
@[simp] theorem writeFrame_frame (h : HostState) : (writeFrame h).frame = [] := rfl
@[simp] theorem writeFrame_txo (h : HostState) : (writeFrame h).txo = h.txo ++ [h.frame] := rfl
@[simp] theorem writeFrame_taken (h : HostState) : (writeFrame h).taken = h.taken := rfl
@[simp] theorem writeFrame_rxSent (h : HostState) : (writeFrame h).rxSent = h.rxSent := rfl
@[simp] theorem writeFrame_rspTaken (h : HostState) : (writeFrame h).rspTaken = h.rspTaken := rfl
@[simp] theorem writeFrame_rspSent (h : HostState) : (writeFrame h).rspSent = h.rspSent := rfl
@[simp] theorem writeFrame_call (h : HostState) : (writeFrame h).call = h.call := rfl

@[simp] theorem frameBuilt_data (r : Response) (h : HostState) : (frameBuilt r h).data = h.data := rfl
@[simp] theorem frameBuilt_capacity (r : Response) (h : HostState) : (frameBuilt r h).capacity = h.capacity := rfl
@[simp] theorem frameBuilt_offset (r : Response) (h : HostState) : (frameBuilt r h).offset = h.offset := rfl
@[simp] theorem frameBuilt_st (r : Response) (h : HostState) : (frameBuilt r h).st = builtState h.st := rfl
@[simp] theorem frameBuilt_frame (r : Response) (h : HostState) : (frameBuilt r h).frame = r.bytes := rfl
@[simp] theorem frameBuilt_txo (r : Response) (h : HostState) : (frameBuilt r h).txo = h.txo := rfl
@[simp] theorem frameBuilt_taken (r : Response) (h : HostState) : (frameBuilt r h).taken = h.taken := rfl
@[simp] theorem frameBuilt_rxSent (r : Response) (h : HostState) : (frameBuilt r h).rxSent = h.rxSent := rfl
@[simp] theorem frameBuilt_rspTaken (r : Response) (h : HostState) : (frameBuilt r h).rspTaken = h.rspTaken := rfl
@[simp] theorem frameBuilt_rspSent (r : Response) (h : HostState) : (frameBuilt r h).rspSent = h.rspSent := rfl
@[simp] theorem frameBuilt_call (r : Response) (h : HostState) : (frameBuilt r h).call = .idle := rfl

/-! ### What each operation can do -/

/-- `sendNextChunk` (R159): a chunk command is issued while data remains, else the engine is done. -/
theorem sendNextChunk_cases {s t : State} (h : sendNextChunk s = .next t) :
    (s.host.offset < fileLength s.host ∧
      t = issueCommand .chunk (chunkAt s.host.data s.host.capacity s.host.offset) s) ∨
    (fileLength s.host ≤ s.host.offset ∧ t = { s with host := { s.host with st := .done } }) := by
  simp only [sendNextChunk] at h
  split at h
  · cases h; exact .inl ⟨‹_›, rfl⟩
  · cases h; exact .inr ⟨by omega, rfl⟩

/-- `onAcknowledgement` (R157): a matching token in an awaiting state sends, anything else changes nothing. -/
theorem onAcknowledgement_cases {p : List Byte} {s t : State} (h : onAcknowledgement p s = .next t) :
    (acknowledges s.host.st p = true ∧ sendNextChunk s = .next t) ∨ (acknowledges s.host.st p = false ∧ t = s) := by
  simp only [onAcknowledgement] at h
  split at h
  · exact .inl ⟨‹_›, h⟩
  · cases h; exact .inr ⟨by simpa using ‹¬acknowledges s.host.st p = true›, rfl⟩

/-- A matching token means an awaiting state (R157). -/
theorem acknowledges_cases {st : EngineState} {p : List Byte} (h : acknowledges st p = true) :
    (st = .awaitingSizeAck ∧ p = tokSizeAck) ∨ (st = .awaitingChunkAck ∧ p = tokAck) := by
  cases st <;> simp_all [acknowledges]

/-- Taking an event (R157, R158): none to take or the thread not free, an error taken, or a message handed to the engine. -/
theorem hostTakeEvent_cases {s t : State} (h : hostTakeEvent s = .next t) :
    t = s ∨ hostFree s = true ∧
    ((∃ code, s.rxo[s.host.taken]? = some (.err code) ∧
      t = { s with host := { s.host with taken := s.host.taken + 1, rxSent := 0 } }) ∨
    (∃ p, s.rxo[s.host.taken]? = some (.msg p) ∧
      onAcknowledgement p { s with host := { s.host with taken := s.host.taken + 1, rxSent := 0 } } = .next t)) := by
  simp only [hostTakeEvent] at h
  split at h
  · rename_i hf
    split at h
    · cases h; exact .inl rfl
    · rename_i e he
      cases e with
      | msg p => exact .inr ⟨hf, .inr ⟨p, he, h⟩⟩
      | err code => cases h; exact .inr ⟨hf, .inl ⟨code, he, rfl⟩⟩
  · cases h; exact .inl rfl

/-- A beat on `rx_out` (R60): one more transferred, or the event taken. -/
theorem hostRxBeat_cases {s t : State} (h : hostRxBeat s = .next t) :
    (moreRxBeats s = true ∧ t = { s with host := { s.host with rxSent := s.host.rxSent + 1 } }) ∨
    (moreRxBeats s = false ∧ hostTakeEvent s = .next t) := by
  simp only [hostRxBeat] at h
  split at h
  · cases h; exact .inl ⟨‹_›, rfl⟩
  · exact .inr ⟨by simpa using ‹¬moreRxBeats s = true›, h⟩

/-- Taking a response (R65): none to take, the one the engine waits for, or another. -/
theorem hostTakeResponse_cases {s t : State} (h : hostTakeResponse s = .next t) :
    t = s ∨ ∃ r, s.rspo[s.host.rspTaken]? = some r ∧
      ((s.host.call = .waits s.host.rspTaken ∧
        t = { s with host := frameBuilt r { s.host with rspTaken := s.host.rspTaken + 1, rspSent := 0 } }) ∨
       (s.host.call ≠ .waits s.host.rspTaken ∧
        t = { s with host := { s.host with rspTaken := s.host.rspTaken + 1, rspSent := 0 } })) := by
  simp only [hostTakeResponse] at h
  split at h
  · cases h; exact .inl rfl
  · rename_i r hr
    refine .inr ⟨r, hr, ?_⟩
    cases h
    by_cases hc : s.host.call = .waits s.host.rspTaken
    · exact .inl ⟨hc, by rw [if_pos hc]⟩
    · exact .inr ⟨hc, by rw [if_neg hc]⟩

/-- A beat on `rsp_out` (R60): one more transferred, or the response taken. -/
theorem hostRspBeat_cases {s t : State} (h : hostRspBeat s = .next t) :
    (moreRspBeats s = true ∧ t = { s with host := { s.host with rspSent := s.host.rspSent + 1 } }) ∨
    (moreRspBeats s = false ∧ hostTakeResponse s = .next t) := by
  simp only [hostRspBeat] at h
  split at h
  · cases h; exact .inl ⟨‹_›, rfl⟩
  · exact .inr ⟨by simpa using ‹¬moreRspBeats s = true›, h⟩

/-- `START` (R156). -/
theorem hostStart_cases {s t : State} (h : hostStart s = .next t) :
    (s.host.st = .idle ∧ configAccepted s.host = true ∧ hostFree s = true ∧
      t = issueCommand .frame (le32 (BitVec.ofNat 32 (fileLength s.host))) s) ∨ t = s := by
  simp only [hostStart, announceSize] at h
  split at h
  · rename_i hc; cases h; exact .inl ⟨hc.1, hc.2.1, hc.2.2, rfl⟩
  · cases h; exact .inr rfl

/-- The gate opens (R153, R154). -/
theorem hostWritable_cases {s t : State} (h : hostWritable s = .next t) :
    (s.host.st = .announcingSize ∧ t = { s with host := { writeFrame s.host with st := .awaitingSizeAck } }) ∨
    (s.host.st = .sendingChunk ∧
      t = { s with host := { writeFrame s.host with st := .awaitingChunkAck,
                                                    offset := s.host.offset + s.host.capacity } }) ∨
    (s.host.st ≠ .announcingSize ∧ s.host.st ≠ .sendingChunk ∧ t = s) := by
  unfold hostWritable at h
  split at h <;> cases h <;> simp_all

/-- A failed write never goes on; where no frame waits nothing happens (R154). -/
theorem hostWriteFails_cases {s t : State} (h : hostWriteFails s = .next t) :
    s.host.st ≠ .announcingSize ∧ s.host.st ≠ .sendingChunk ∧ t = s := by
  unfold hostWriteFails at h
  split at h <;> cases h <;> simp_all

/-- What no move of the host writes: the block's own state and the parameters. -/
structure SameBlock (s t : State) : Prop where
  carry : t.carry = s.carry
  poison : t.poison = s.poison
  closed : t.closed = s.closed
  rxo : t.rxo = s.rxo
  operand : t.operand = s.operand
  tooLong : t.tooLong = s.tooLong
  rspo : t.rspo = s.rspo
  wire : t.wire = s.wire
  params : t.params = s.params
  rxIn : t.rxIn = s.rxIn
  sched : t.sched = s.sched

theorem sameBlock_refl (s : State) : SameBlock s s := ⟨rfl, rfl, rfl, rfl, rfl, rfl, rfl, rfl, rfl, rfl, rfl⟩

/-- Two states that differ in the host and in what is offered on `cmd_in` only. -/
theorem sameBlock_host (s : State) (ws : List (BitVec 10)) (h : HostState) : SameBlock s { s with cmdIn := ws, host := h } :=
  ⟨rfl, rfl, rfl, rfl, rfl, rfl, rfl, rfl, rfl, rfl, rfl⟩

/-- What a move of the host that goes on can do, one case per effect (R152 to R159). -/
inductive HostEffect (s : State) : State → Prop where
  /-- Nothing. -/
  | none : HostEffect s s
  /-- `START` issues the size command. -/
  | started (idle : s.host.st = .idle) (ok : configAccepted s.host = true) (free : hostFree s = true) :
      HostEffect s (issueCommand .frame (le32 (BitVec.ofNat 32 (fileLength s.host))) s)
  /-- The gate opens for the size frame. -/
  | sizeOut (st : s.host.st = .announcingSize) :
      HostEffect s { s with host := { writeFrame s.host with st := .awaitingSizeAck } }
  /-- The gate opens for a chunk frame. -/
  | chunkOut (st : s.host.st = .sendingChunk) :
      HostEffect s { s with host := { writeFrame s.host with st := .awaitingChunkAck,
                                                             offset := s.host.offset + s.host.capacity } }
  /-- A beat that is not the last of its event or response is transferred. -/
  | beat (m n : Nat) : HostEffect s { s with host := { s.host with rxSent := m, rspSent := n } }
  /-- An event that the engine ignores is taken. -/
  | ignored (free : hostFree s = true) (e : Event) (taken : s.rxo[s.host.taken]? = some e) :
      HostEffect s { s with host := { s.host with taken := s.host.taken + 1, rxSent := 0 } }
  /-- The awaited token is taken, and the chunk command issued. -/
  | next (free : hostFree s = true) (p : List Byte) (taken : s.rxo[s.host.taken]? = some (.msg p))
      (ack : acknowledges s.host.st p = true) (more : s.host.offset < fileLength s.host) :
      HostEffect s (issueCommand .chunk (chunkAt s.host.data s.host.capacity s.host.offset)
        { s with host := { s.host with taken := s.host.taken + 1, rxSent := 0 } })
  /-- The awaited token is taken, and nothing is left to send. -/
  | finished (free : hostFree s = true) (p : List Byte) (taken : s.rxo[s.host.taken]? = some (.msg p))
      (ack : acknowledges s.host.st p = true) (noMore : fileLength s.host ≤ s.host.offset) :
      HostEffect s { s with host := { s.host with taken := s.host.taken + 1, rxSent := 0, st := .done } }
  /-- The response that the engine waits for is taken. -/
  | built (r : Response) (taken : s.rspo[s.host.rspTaken]? = some r) (call : s.host.call = .waits s.host.rspTaken) :
      HostEffect s { s with host := frameBuilt r { s.host with rspTaken := s.host.rspTaken + 1, rspSent := 0 } }
  /-- Another response is taken. -/
  | answered (r : Response) (taken : s.rspo[s.host.rspTaken]? = some r) (call : s.host.call ≠ .waits s.host.rspTaken) :
      HostEffect s { s with host := { s.host with rspTaken := s.host.rspTaken + 1, rspSent := 0 } }

theorem hostTakeEvent_effect {s t : State} (h : hostTakeEvent s = .next t) : HostEffect s t := by
  obtain rfl | ⟨hf, ⟨c, hc, rfl⟩ | ⟨p, hp, h⟩⟩ := hostTakeEvent_cases h
  · exact .none
  · exact .ignored hf _ hc
  · obtain ⟨ha, h⟩ | ⟨-, rfl⟩ := onAcknowledgement_cases h
    · obtain ⟨hm, rfl⟩ | ⟨hm, rfl⟩ := sendNextChunk_cases h
      · exact .next hf p hp ha hm
      · exact .finished hf p hp ha hm
    · exact .ignored hf _ hp

theorem hostTakeResponse_effect {s t : State} (h : hostTakeResponse s = .next t) : HostEffect s t := by
  obtain rfl | ⟨r, hr, ⟨hc, rfl⟩ | ⟨hc, rfl⟩⟩ := hostTakeResponse_cases h
  · exact .none
  · exact .built r hr hc
  · exact .answered r hr hc

/-- Every move of the host that goes on has one of these effects. -/
theorem hostMove_effect {x : HostMove} {s t : State} (h : hostMove x s = .next t) : HostEffect s t := by
  cases x with
  | start =>
    obtain ⟨hi, ho, hf, rfl⟩ | rfl := hostStart_cases h
    · exact .started hi ho hf
    · exact .none
  | writable =>
    obtain ⟨hs, rfl⟩ | ⟨hs, rfl⟩ | ⟨-, -, rfl⟩ := hostWritable_cases h
    · exact .sizeOut hs
    · exact .chunkOut hs
    · exact .none
  | writeFails => obtain ⟨-, -, rfl⟩ := hostWriteFails_cases h; exact .none
  | takeEvent => exact hostTakeEvent_effect h
  | rxBeat =>
    obtain ⟨-, rfl⟩ | ⟨-, h⟩ := hostRxBeat_cases h
    · exact .beat _ _
    · exact hostTakeEvent_effect h
  | takeResponse => exact hostTakeResponse_effect h
  | rspBeat =>
    obtain ⟨-, rfl⟩ | ⟨-, h⟩ := hostRspBeat_cases h
    · exact .beat _ _
    · exact hostTakeResponse_effect h

/-- The host reaches the block through its ports only (R7, R168). -/
theorem hostMove_sameBlock {x : HostMove} {s t : State} (h : hostMove x s = .next t) : SameBlock s t := by
  cases hostMove_effect h <;> first | exact sameBlock_refl _ | exact sameBlock_host _ _ _

/-- A command answered OK is answered by its operation (R189). -/
theorem command_of_ok {p : Params} {op : CmdOp} {w : List Byte} (h : (command p op w).status = .ok) :
    command p op w = answerOf p.tail01 op w := by
  unfold command at *
  split at h
  · cases h
  · rw [if_neg (by assumption)]

end Sys2Proof.Machine
end

