-- ==== Sys2Proof/Laws/Ops.lean ====
section
/-! SUPPORT. What each shared operation can do, said once. -/

namespace Sys2Proof.Machine

/-- Room under no capacity. -/
@[simp] theorem roomFor_none (n : Nat) : roomFor none n = true := rfl

/-- Room under a capacity. -/
@[simp] theorem roomFor_some (k n : Nat) : roomFor (some k) n = decide (n < k) := rfl

/-- No room is left: the capacity is finite and reached. -/
theorem roomFor_false {cap : Option Nat} {n : Nat} (h : roomFor cap n = false) : ∃ k, cap = some k ∧ k ≤ n := by
  cases cap with
  | none => simp at h
  | some k => exact ⟨k, rfl, by simpa using h⟩

/-- A step that `whileOpen` guards: the token is not accepted when closed, else it is the step itself. -/
theorem whileOpen_cases {s : State} {k : State → Result} {t : State} (h : whileOpen s k = .next t) :
    (s.closed = true ∧ t = s) ∨ (s.closed = false ∧ k s = .next t) := by
  unfold whileOpen at h
  split at h
  · cases h; exact .inl ⟨‹_›, rfl⟩
  · exact .inr ⟨by simpa using ‹¬s.closed = true›, h⟩

@[simp] theorem whileOpen_open {s : State} (k : State → Result) (h : s.closed = false) : whileOpen s k = k s := by
  simp [whileOpen, h]

@[simp] theorem whileOpen_closed {s : State} (k : State → Result) (h : s.closed = true) :
    whileOpen s k = .next s := by
  simp [whileOpen, h]

/-- Reading the buffer after an append: the new byte at the old length (R41). -/
theorem memByte_appendByte (b : Byte) (s : State) (a : Nat) :
    memByte (appendByte b s) a = if a = s.carry.length then some b else memByte s a := by
  unfold memByte
  rw [appendByte_carry, List.getElem?_append]
  split
  · have : a ≠ s.carry.length := by omega
    simp [this]
  · split
    · subst a; simp
    · rw [List.getElem?_eq_none (by simp; omega), List.getElem?_eq_none (by omega)]

/-- A read of bytes that are not there is not defined (R14). -/
theorem memRead_whole (s : State) : memRead s 0 s.carry.length = some s.carry := by
  simp [memRead, slice]

/-- Cells numbered from `a` are in canonical form. -/
theorem cellsFrom_zipIdx (l : List Byte) (a : Nat) : cellsFrom a ((l.zipIdx a).map (fun x => (x.2, x.1))) = true := by
  induction l generalizing a with
  | nil => rfl
  | cons b l ih => simpa [cellsFrom] using ih (a + 1)

/-- Every buffer is in canonical form, so every operation keeps the form. -/
theorem memory_wf (carry : List Byte) : Memory.wf carry = true := cellsFrom_zipIdx carry 0

theorem memory_wf_appendByte (b : Byte) (s : State) : Memory.wf (appendByte b s).carry = true := memory_wf _

theorem memory_wf_cutFrame (s : State) : Memory.wf (cutFrame s).carry = true := memory_wf _

theorem memory_wf_reset : Memory.wf State.reset.carry = true := memory_wf _

/-- The event of a frame: one of the three shapes of R112. -/
theorem frameEvent_cases (f : List Byte) (poisoned : Bool) :
    (poisoned = true ∧ frameEvent f poisoned = .err .overflow) ∨
    (poisoned = false ∧ ∃ p, codecDecode f = .ok p ∧ frameEvent f poisoned = .msg p) ∨
    (poisoned = false ∧ ∃ code, codecDecode f = .err code ∧ frameEvent f poisoned = .err code) := by
  cases poisoned with
  | true => exact .inl ⟨rfl, rfl⟩
  | false =>
    cases h : codecDecode f with
    | ok p => exact .inr (.inl ⟨rfl, p, rfl, by simp [frameEvent, h, eventOf]⟩)
    | err code => exact .inr (.inr ⟨rfl, code, rfl, by simp [frameEvent, h, eventOf]⟩)

/-- An operation's own failures (R190): every status but the two of the port. -/
theorem answerOf_status (tail01 : Bool) (op : CmdOp) (w : List Byte) :
    (answerOf tail01 op w).status = .ok ∨ (answerOf tail01 op w).bytes = [] := by
  cases op with
  | enc => exact .inl rfl
  | frame => exact .inl rfl
  | crc => exact .inl rfl
  | attach => exact .inl rfl
  | chunk => exact .inl rfl
  | dec =>
    simp only [answerOf, answerDec]
    split
    · exact .inl rfl
    · exact .inr rfl
  | validate =>
    simp only [answerOf, answerValidate]
    split
    · exact .inr rfl
    · split
      · exact .inl rfl
      · exact .inr rfl

end Sys2Proof.Machine
end

