-- ==== Sys2Proof/Laws/Exec.lean ====
section
/-! SUPPORT. What `exec` can do, said once per format: every instruction's next state. -/

namespace Sys2Proof.Machine

/-- The RX tokens while open (R110). -/
theorem exec_data {b : Byte} {s : State} (h : s.closed = false) :
    exec (.data b) s = .next (if roomFor s.params.bufCap s.carry.length then appendByte b s else setPoison s) := by
  simp [exec, execData, h]

theorem exec_delim {s : State} (h : s.closed = false) : exec .delim s = .next (endFrame s) := by
  simp [exec, execDelim, h]

theorem exec_endStream {s : State} (h : s.closed = false) :
    exec .endStream s = .next (setClosed (if s.poison = true ∨ s.carry ≠ [] then endFrame s else cutFrame s)) := by
  simp [exec, execEndStream, h]

/-- `PUSH` of a byte (R77). -/
theorem exec_push {b : Byte} {s : State} (h : s.closed = false) :
    exec (pushInstr b) s = .next (if b = delimByte then endFrame s
      else if roomFor s.params.bufCap s.carry.length then appendByte b s else setPoison s) := by
  unfold pushInstr
  split
  · rw [exec_delim h]
  · rw [exec_data h]

theorem exec_rxi_closed {i : Instr} (hi : i.format = .rxi) {s : State} (h : s.closed = true) :
    exec i s = .next s := by
  cases i <;> simp_all [Instr.format, exec, execData, execDelim, execEndStream]

/-- The RX tokens: nothing changes when closed (R114), else one of these next states (R111 to R113). -/
theorem exec_rxi_cases {i : Instr} (hi : i.format = .rxi) {s t : State} (h : exec i s = .next t) :
    (s.closed = true ∧ t = s) ∨ s.closed = false ∧
    ((∃ b, i = .data b ∧ roomFor s.params.bufCap s.carry.length = true ∧ t = appendByte b s) ∨
     (∃ b, i = .data b ∧ roomFor s.params.bufCap s.carry.length = false ∧ t = setPoison s) ∨
     (i = .delim ∧ t = endFrame s) ∨
     (i = .endStream ∧ (s.poison = true ∨ s.carry ≠ []) ∧ t = setClosed (endFrame s)) ∨
     (i = .endStream ∧ s.poison = false ∧ s.carry = [] ∧ t = setClosed (cutFrame s))) := by
  cases hc : s.closed with
  | true => rw [exec_rxi_closed hi hc] at h; cases h; exact .inl ⟨rfl, rfl⟩
  | false =>
  refine .inr ⟨rfl, ?_⟩
  cases i with
  | data b =>
    rw [exec_data hc] at h
    cases hr : roomFor s.params.bufCap s.carry.length with
    | true => rw [hr] at h; cases h; exact .inl ⟨b, rfl, rfl, rfl⟩
    | false => rw [hr] at h; cases h; exact .inr (.inl ⟨b, rfl, rfl, rfl⟩)
  | delim => rw [exec_delim hc] at h; cases h; exact .inr (.inr (.inl ⟨rfl, rfl⟩))
  | endStream =>
    rw [exec_endStream hc] at h
    by_cases hp : s.poison = true ∨ s.carry ≠ []
    · rw [if_pos hp] at h; cases h; exact .inr (.inr (.inr (.inl ⟨rfl, hp, rfl⟩)))
    · rw [if_neg hp] at h; cases h
      simp only [not_or, Bool.not_eq_true, ne_eq, not_not] at hp
      exact .inr (.inr (.inr (.inr ⟨rfl, hp.1, hp.2, rfl⟩)))
  | blk c => simp [Instr.format] at hi
  | full => simp [Instr.format] at hi
  | zero => simp [Instr.format] at hi
  | enc => simp [Instr.format] at hi
  | dec => simp [Instr.format] at hi
  | frame => simp [Instr.format] at hi
  | crc => simp [Instr.format] at hi
  | attach => simp [Instr.format] at hi
  | chunk => simp [Instr.format] at hi
  | validate => simp [Instr.format] at hi
  | opbyte b => simp [Instr.format] at hi
  | op7 => simp [Instr.format] at hi
  | cmdRsvd t d => simp [Instr.format] at hi

/-- The answer of a closing beat's instruction. -/
theorem exec_opInstr (op : CmdOp) (s : State) :
    exec (opInstr op) s = .next (closeCommand (answerOf s.params.tail01 op) s) := by
  cases op <;> rfl

theorem exec_opbyte (b : Byte) (s : State) : exec (.opbyte b) s = .next (collectByte b s) := rfl

/-- The instructions of the command port, in three shapes: an operand byte, a rejected beat, a closed command. -/
theorem cmd_shapes {i : Instr} (hi : i.format = .cmd) :
    (∃ b, i = .opbyte b) ∨ (∀ s, exec i s = .next (rejectCommand s)) ∨ (∃ op, i = opInstr op) := by
  cases i with
  | data b => simp [Instr.format] at hi
  | delim => simp [Instr.format] at hi
  | endStream => simp [Instr.format] at hi
  | blk c => simp [Instr.format] at hi
  | full => simp [Instr.format] at hi
  | zero => simp [Instr.format] at hi
  | opbyte b => exact .inl ⟨b, rfl⟩
  | op7 => exact .inr (.inl fun _ => rfl)
  | cmdRsvd t d => exact .inr (.inl fun _ => rfl)
  | enc => exact .inr (.inr ⟨.enc, rfl⟩)
  | dec => exact .inr (.inr ⟨.dec, rfl⟩)
  | frame => exact .inr (.inr ⟨.frame, rfl⟩)
  | crc => exact .inr (.inr ⟨.crc, rfl⟩)
  | attach => exact .inr (.inr ⟨.attach, rfl⟩)
  | chunk => exact .inr (.inr ⟨.chunk, rfl⟩)
  | validate => exact .inr (.inr ⟨.validate, rfl⟩)

/-- Their next states. -/
theorem exec_cmd_cases {i : Instr} (hi : i.format = .cmd) (s : State) :
    (∃ b, i = .opbyte b ∧ exec i s = .next (collectByte b s)) ∨
    (exec i s = .next (rejectCommand s)) ∨
    (∃ op, i = opInstr op ∧ exec i s = .next (closeCommand (answerOf s.params.tail01 op) s)) := by
  rcases cmd_shapes hi with ⟨b, rfl⟩ | h | ⟨op, rfl⟩
  · exact .inl ⟨b, rfl, rfl⟩
  · exact .inr (.inl (h s))
  · exact .inr (.inr ⟨op, rfl, exec_opInstr op s⟩)

/-- The wire operations write `wire` only. -/
theorem exec_wire {i : Instr} (hi : i.format = .wire) (s : State) :
    ∃ u, exec i s = .next { s with wire := u } := by
  cases i with
  | blk c => exact ⟨_, rfl⟩
  | full => exact ⟨_, rfl⟩
  | zero => exact ⟨_, rfl⟩
  | data b => simp [Instr.format] at hi
  | delim => simp [Instr.format] at hi
  | endStream => simp [Instr.format] at hi
  | enc => simp [Instr.format] at hi
  | dec => simp [Instr.format] at hi
  | frame => simp [Instr.format] at hi
  | crc => simp [Instr.format] at hi
  | attach => simp [Instr.format] at hi
  | chunk => simp [Instr.format] at hi
  | validate => simp [Instr.format] at hi
  | opbyte b => simp [Instr.format] at hi
  | op7 => simp [Instr.format] at hi
  | cmdRsvd t d => simp [Instr.format] at hi

/-- An RX token always has a next state. -/
theorem exec_rxi_next {i : Instr} (hi : i.format = .rxi) (s : State) : ∃ t, exec i s = .next t := by
  cases hc : s.closed with
  | true => exact ⟨s, exec_rxi_closed hi hc⟩
  | false =>
    cases i with
    | data b => exact ⟨_, exec_data hc⟩
    | delim => exact ⟨_, exec_delim hc⟩
    | endStream => exact ⟨_, exec_endStream hc⟩
    | blk c => simp [Instr.format] at hi
    | full => simp [Instr.format] at hi
    | zero => simp [Instr.format] at hi
    | enc => simp [Instr.format] at hi
    | dec => simp [Instr.format] at hi
    | frame => simp [Instr.format] at hi
    | crc => simp [Instr.format] at hi
    | attach => simp [Instr.format] at hi
    | chunk => simp [Instr.format] at hi
    | validate => simp [Instr.format] at hi
    | opbyte b => simp [Instr.format] at hi
    | op7 => simp [Instr.format] at hi
    | cmdRsvd t d => simp [Instr.format] at hi

/-- Every operation has a next state: no instruction stops the machine. -/
theorem exec_next (i : Instr) (s : State) : ∃ t, exec i s = .next t := by
  rcases hf : i.format with _ | _ | _
  · exact exec_rxi_next hf s
  · rcases exec_cmd_cases hf s with ⟨b, -, h⟩ | h | ⟨op, -, h⟩ <;> exact ⟨_, h⟩
  · obtain ⟨u, h⟩ := exec_wire hf s
    exact ⟨_, h⟩

/-- What no instruction writes: the ports, the host, the schedule, the parameters. -/
structure SameOutside (s t : State) : Prop where
  rxIn : t.rxIn = s.rxIn
  cmdIn : t.cmdIn = s.cmdIn
  host : t.host = s.host
  sched : t.sched = s.sched
  params : t.params = s.params

theorem sameOutside_refl (s : State) : SameOutside s s := ⟨rfl, rfl, rfl, rfl, rfl⟩

/-- Every instruction's next state keeps what is outside the block. -/
theorem exec_sameOutside {i : Instr} {s t : State} (h : exec i s = .next t) : SameOutside s t := by
  rcases hf : i.format with _ | _ | _
  · obtain ⟨-, rfl⟩ | ⟨-, h' | h' | h' | h' | h'⟩ := exec_rxi_cases hf h
    · exact sameOutside_refl _
    · obtain ⟨b, -, -, rfl⟩ := h'; exact ⟨rfl, rfl, rfl, rfl, rfl⟩
    · obtain ⟨b, -, -, rfl⟩ := h'; exact ⟨rfl, rfl, rfl, rfl, rfl⟩
    · obtain ⟨-, rfl⟩ := h'; exact ⟨rfl, rfl, rfl, rfl, rfl⟩
    · obtain ⟨-, -, rfl⟩ := h'; exact ⟨rfl, rfl, rfl, rfl, rfl⟩
    · obtain ⟨-, -, -, rfl⟩ := h'; exact ⟨rfl, rfl, rfl, rfl, rfl⟩
  · rcases exec_cmd_cases hf s with ⟨b, -, h'⟩ | h' | ⟨op, -, h'⟩
    · rw [h'] at h; cases h
      exact ⟨collectByte_rxIn b s, collectByte_cmdIn b s, collectByte_host b s, collectByte_sched b s, collectByte_params b s⟩
    · rw [h'] at h; cases h; exact ⟨rfl, rfl, rfl, rfl, rfl⟩
    · rw [h'] at h; cases h; exact ⟨rfl, rfl, rfl, rfl, rfl⟩
  · obtain ⟨u, h'⟩ := exec_wire hf s
    rw [h'] at h; cases h; exact ⟨rfl, rfl, rfl, rfl, rfl⟩

end Sys2Proof.Machine
end

