-- ==== Sys2Proof/Laws/PerInstr.lean ====
section
/-! SUPPORT. The family TableRow: the encoding of a well-formed instruction lies in its row of spec/opcode_table.json. -/

namespace Sys2Proof.Laws

/-- The mask of an instruction's row. -/
def rowMask : Instr → Nat
  | .data _ => 0x100
  | .delim => 0x1FF
  | .endStream => 0x100
  | .enc => 0x3FF
  | .dec => 0x3FF
  | .frame => 0x3FF
  | .crc => 0x3FF
  | .attach => 0x3FF
  | .chunk => 0x3FF
  | .validate => 0x3FF
  | .opbyte _ => 0x300
  | .blk _ => 0x00
  | .full => 0xFF
  | .zero => 0xFF
  | .op7 => 0x3FF
  | .cmdRsvd _ _ => 0x000

/-- The match value of an instruction's row. -/
def rowMatch : Instr → Nat
  | .data _ => 0x000
  | .delim => 0x000
  | .endStream => 0x100
  | .enc => 0x100
  | .dec => 0x101
  | .frame => 0x102
  | .crc => 0x103
  | .attach => 0x104
  | .chunk => 0x105
  | .validate => 0x106
  | .opbyte _ => 0x000
  | .blk _ => 0x00
  | .full => 0xFF
  | .zero => 0x00
  | .op7 => 0x107
  | .cmdRsvd _ _ => 0x000

/-- The least and the greatest word of an instruction's row, from its constraint. -/
def rowRange : Instr → Nat × Nat
  | .data _ => (0x001, 0x0FF)
  | .delim => (0x000, 0x000)
  | .endStream => (0x100, 0x1FF)
  | .enc => (0x100, 0x100)
  | .dec => (0x101, 0x101)
  | .frame => (0x102, 0x102)
  | .crc => (0x103, 0x103)
  | .attach => (0x104, 0x104)
  | .chunk => (0x105, 0x105)
  | .validate => (0x106, 0x106)
  | .opbyte _ => (0x000, 0x0FF)
  | .blk _ => (0x01, 0xFE)
  | .full => (0xFF, 0xFF)
  | .zero => (0x00, 0x00)
  | .op7 => (0x107, 0x107)
  | .cmdRsvd _ _ => (0x108, 0x3FF)

/-- The word of a well-formed instruction has its row's format, fits its row's mask and match, and meets its row's constraint. -/
def TableRow.Statement (i : Instr) : Prop :=
  i.wellFormed = true →
    (encode i).format = i.format ∧ (encode i).bits &&& rowMask i = rowMatch i ∧
      (rowRange i).1 ≤ (encode i).bits ∧ (encode i).bits ≤ (rowRange i).2

theorem TableRow.data (b : Byte) : TableRow.Statement (.data b) := by
  unfold TableRow.Statement; revert b; decide

theorem TableRow.delim : TableRow.Statement .delim := by unfold TableRow.Statement; decide

theorem TableRow.endStream : TableRow.Statement .endStream := by unfold TableRow.Statement; decide

theorem TableRow.enc : TableRow.Statement .enc := by unfold TableRow.Statement; decide

theorem TableRow.dec : TableRow.Statement .dec := by unfold TableRow.Statement; decide

theorem TableRow.frame : TableRow.Statement .frame := by unfold TableRow.Statement; decide

theorem TableRow.crc : TableRow.Statement .crc := by unfold TableRow.Statement; decide

theorem TableRow.attach : TableRow.Statement .attach := by unfold TableRow.Statement; decide

theorem TableRow.chunk : TableRow.Statement .chunk := by unfold TableRow.Statement; decide

theorem TableRow.validate : TableRow.Statement .validate := by unfold TableRow.Statement; decide

theorem TableRow.opbyte (b : Byte) : TableRow.Statement (.opbyte b) := by
  unfold TableRow.Statement; revert b; decide

theorem TableRow.blk (c : Byte) : TableRow.Statement (.blk c) := by
  unfold TableRow.Statement; revert c; decide

theorem TableRow.full : TableRow.Statement .full := by unfold TableRow.Statement; decide

theorem TableRow.zero : TableRow.Statement .zero := by unfold TableRow.Statement; decide

theorem TableRow.op7 : TableRow.Statement .op7 := by unfold TableRow.Statement; decide

theorem TableRow.cmdRsvd (t : BitVec 2) (d : Byte) : TableRow.Statement (.cmdRsvd t d) := by
  intro h
  have hb : (encode (.cmdRsvd t d)).bits = 256 * t.toNat + d.toNat := cmdBeat_toNat t d
  have ht := t.isLt
  have hd := d.isLt
  have hlow : 0x108 ≤ 256 * t.toNat + d.toNat := by
    simp only [Instr.wellFormed, Bool.or_eq_true, Bool.and_eq_true, beq_iff_eq, decide_eq_true_eq] at h
    rcases h with ⟨rfl, h⟩ | h
    · simp at h ⊢; omega
    · omega
  refine ⟨rfl, by simp [rowMask, rowMatch], ?_, ?_⟩
  · rw [hb]; exact hlow
  · rw [hb]; simp only [rowRange]; omega

end Sys2Proof.Laws
end

