-- ==== Sys2Proof/Laws/Step.lean ====
section
/-! SUPPORT. What a step can do, said once. -/

namespace Sys2Proof.Machine

/-! ### What a reset leaves, field by field (R34, R210, R211) -/

@[simp] theorem resetHost_data (h : HostState) : (resetHost h).data = h.data := rfl
@[simp] theorem resetHost_capacity (h : HostState) : (resetHost h).capacity = h.capacity := rfl
@[simp] theorem resetHost_offset (h : HostState) : (resetHost h).offset = h.offset := rfl
@[simp] theorem resetHost_st (h : HostState) : (resetHost h).st = h.st := rfl
@[simp] theorem resetHost_frame (h : HostState) : (resetHost h).frame = h.frame := rfl
@[simp] theorem resetHost_txo (h : HostState) : (resetHost h).txo = h.txo := rfl
@[simp] theorem resetHost_taken (h : HostState) : (resetHost h).taken = 0 := rfl
@[simp] theorem resetHost_rxSent (h : HostState) : (resetHost h).rxSent = 0 := rfl
@[simp] theorem resetHost_rspTaken (h : HostState) : (resetHost h).rspTaken = 0 := rfl
@[simp] theorem resetHost_rspSent (h : HostState) : (resetHost h).rspSent = 0 := rfl
@[simp] theorem resetHost_call (h : HostState) : (resetHost h).call = .idle := rfl

@[simp] theorem applyReset_carry (a b : Bool) (s : State) :
    (applyReset a b s).carry = [] := rfl
@[simp] theorem applyReset_poison (a b : Bool) (s : State) :
    (applyReset a b s).poison = false := rfl
@[simp] theorem applyReset_closed (a b : Bool) (s : State) :
    (applyReset a b s).closed = false := rfl
@[simp] theorem applyReset_rxo (a b : Bool) (s : State) :
    (applyReset a b s).rxo = [] := rfl
@[simp] theorem applyReset_operand (a b : Bool) (s : State) :
    (applyReset a b s).operand = [] := rfl
@[simp] theorem applyReset_tooLong (a b : Bool) (s : State) :
    (applyReset a b s).tooLong = false := rfl
@[simp] theorem applyReset_rspo (a b : Bool) (s : State) :
    (applyReset a b s).rspo = [] := rfl
@[simp] theorem applyReset_wire (a b : Bool) (s : State) :
    (applyReset a b s).wire = Wire.idle := rfl
@[simp] theorem applyReset_rxIn (a b : Bool) (s : State) :
    (applyReset a b s).rxIn = if a then s.rxIn else [] := rfl
@[simp] theorem applyReset_cmdIn (a b : Bool) (s : State) :
    (applyReset a b s).cmdIn = if b then s.cmdIn else [] := rfl
@[simp] theorem applyReset_host (a b : Bool) (s : State) :
    (applyReset a b s).host = resetHost s.host := rfl
@[simp] theorem applyReset_sched (a b : Bool) (s : State) :
    (applyReset a b s).sched = s.sched := rfl
@[simp] theorem applyReset_params (a b : Bool) (s : State) :
    (applyReset a b s).params = s.params := rfl

/-! ### What a step can do -/

/-- A step performs the next move of the schedule; with none left it changes nothing. -/
theorem step_cases {s t : State} (h : step s = .next t) :
    (s.sched = [] ∧ t = s) ∨
    (∃ m ms, s.sched = m :: ms ∧ perform m { s with sched := ms } = .next t) := by
  simp only [step, stepSchedule] at h
  split at h
  · rename_i hs; cases h; exact .inl ⟨hs, rfl⟩
  · rename_i m ms hs; exact .inr ⟨m, ms, hs, h⟩

/-- The RX agent idles, or is ready and runs the instruction its oldest beat decodes to. -/
theorem rxAgent_cases {s t : State} (h : rxAgent s = .next t) :
    t = s ∨ ∃ w ws, s.rxIn = w :: ws ∧ rxReady s = true ∧ exec (decode (.rxi w)) { s with rxIn := ws } = .next t := by
  unfold rxAgent at h
  split at h
  · cases h; exact .inl rfl
  · rename_i w ws hw
    split at h
    · exact .inr ⟨w, ws, hw, ‹_›, h⟩
    · cases h; exact .inl rfl

/-- The command agent idles, or runs the instruction its oldest beat decodes to. -/
theorem cmdAgent_cases {s t : State} (h : cmdAgent s = .next t) :
    t = s ∨ ∃ w ws, s.cmdIn = w :: ws ∧ exec (decode (.cmd w)) { s with cmdIn := ws } = .next t := by
  unfold cmdAgent at h
  split at h
  · cases h; exact .inl rfl
  · rename_i w ws hw; exact .inr ⟨w, ws, hw, h⟩

/-- The loop's next operation is one of the wire format. -/
theorem wireNext_format {u : Wire} {i : Instr} (h : wireNext u = some i) : i.format = .wire := by
  unfold wireNext at h
  split at h
  · cases h
  · cases h
  · split at h
    · cases h; rfl
    · split at h
      · cases h
      · cases h; exact decode_format _

/-- The decode loop idles, or one block changes `wire` only. -/
theorem blockAgent_cases {s t : State} (h : blockAgent s = .next t) :
    t = s ∨ ∃ i u, wireNext s.wire = some i ∧ exec i s = .next t ∧ t = { s with wire := u } := by
  unfold blockAgent at h
  split at h
  · cases h; exact .inl rfl
  · rename_i i hi
    obtain ⟨u, hu⟩ := exec_wire (wireNext_format hi) s
    refine .inr ⟨i, u, hi, h, ?_⟩
    rw [hu] at h; cases h; rfl

/-- What a move can do. -/
theorem perform_cases {m : Move} {s t : State} (h : perform m s = .next t) :
    (∃ w, m = .offerRx w ∧ t = { s with rxIn := s.rxIn ++ [w] }) ∨
    (∃ w, m = .offerCmd w ∧ t = { s with cmdIn := s.cmdIn ++ [w] }) ∨
    (m = .rx ∧ rxAgent s = .next t) ∨ (m = .cmd ∧ cmdAgent s = .next t) ∨ (m = .block ∧ blockAgent s = .next t) ∨
    (∃ a b, m = .rst a b ∧ t = applyReset a b s) ∨ (∃ x, m = .host x ∧ hostMove x s = .next t) := by
  cases m with
  | offerRx w => cases h; exact .inl ⟨w, rfl, rfl⟩
  | offerCmd w => cases h; exact .inr (.inl ⟨w, rfl, rfl⟩)
  | rx => exact .inr (.inr (.inl ⟨rfl, h⟩))
  | cmd => exact .inr (.inr (.inr (.inl ⟨rfl, h⟩)))
  | block => exact .inr (.inr (.inr (.inr (.inl ⟨rfl, h⟩))))
  | rst a b => cases h; exact .inr (.inr (.inr (.inr (.inr (.inl ⟨a, b, rfl, rfl⟩)))))
  | host x => exact .inr (.inr (.inr (.inr (.inr (.inr ⟨x, rfl, h⟩)))))
  | kill => cases h

end Sys2Proof.Machine
end

