-- ==== Sys2Proof/Laws/Ports.lean ====
section
/-! SUPPORT. What a beat on `cmd_in` can do, said once, and what the responses to the beats already offered depend on. -/

namespace Sys2Proof.Machine

/-- A beat on `cmd_in` always has this next state (R73). -/
theorem exec_cmd_afterBeat (w : BitVec 10) (s : State) : exec (decode (.cmd w)) s = .next (afterBeat s w) := by
  obtain ⟨t, h⟩ := exec_next (decode (.cmd w)) s
  simp [afterBeat, h]

/-- What a beat does, in three shapes: collect a byte, reject, close a command (R64, R73). -/
theorem afterBeat_cases (w : BitVec 10) :
    (∃ b, ∀ s, afterBeat s w = collectByte b s) ∨ (∀ s, afterBeat s w = rejectCommand s) ∨
    (∃ op, ∀ s, afterBeat s w = closeCommand (answerOf s.params.tail01 op) s) := by
  rcases cmd_shapes (decode_format (.cmd w)) with ⟨b, hb⟩ | h | ⟨op, ho⟩
  · exact .inl ⟨b, fun s => by simp [afterBeat, hb, exec_opbyte]⟩
  · exact .inr (.inl fun s => by simp [afterBeat, h s])
  · exact .inr (.inr ⟨op, fun s => by simp only [afterBeat, ho, exec_opInstr]⟩)

/-- The two states agree on what the command agent reads and writes (R32). -/
structure SameCommand (s t : State) : Prop where
  operand : t.operand = s.operand
  tooLong : t.tooLong = s.tooLong
  rspo : t.rspo = s.rspo
  params : t.params = s.params

theorem afterBeat_congr {s t : State} (w : BitVec 10) (h : SameCommand s t) : SameCommand (afterBeat s w) (afterBeat t w) := by
  rcases afterBeat_cases w with ⟨b, hb⟩ | hb | ⟨op, hb⟩ <;> rw [hb s, hb t]
  · refine ⟨?_, ?_, ?_, ?_⟩ <;> simp [h.operand, h.tooLong, h.rspo, h.params]
  · refine ⟨?_, ?_, ?_, ?_⟩ <;> simp [h.rspo, h.params]
  · refine ⟨?_, ?_, ?_, ?_⟩ <;> simp [h.operand, h.tooLong, h.rspo, h.params]

theorem foldl_afterBeat_congr (ws : List (BitVec 10)) {s t : State} (h : SameCommand s t) :
    SameCommand (ws.foldl afterBeat s) (ws.foldl afterBeat t) := by
  induction ws generalizing s t with
  | nil => exact h
  | cons w ws ih => exact ih (afterBeat_congr w h)

/-- The responses ahead depend on the command agent's state and on what is offered, and on nothing else. -/
theorem answersAhead_congr {s t : State} (h : SameCommand s t) (hc : t.cmdIn = s.cmdIn) : answersAhead t = answersAhead s := by
  unfold answersAhead
  rw [hc]
  exact (foldl_afterBeat_congr s.cmdIn h).rspo

/-- No beat takes a response back. -/
theorem afterBeat_rspo (s : State) (w : BitVec 10) : s.rspo <+: (afterBeat s w).rspo := by
  rcases afterBeat_cases w with ⟨b, hb⟩ | hb | ⟨op, hb⟩ <;> rw [hb s] <;> simp

theorem foldl_afterBeat_rspo (ws : List (BitVec 10)) (s : State) : s.rspo <+: (ws.foldl afterBeat s).rspo := by
  induction ws generalizing s with
  | nil => exact List.prefix_rfl
  | cons w ws ih => exact (afterBeat_rspo s w).trans (ih _)

end Sys2Proof.Machine
end

