-- ==== Sys2Proof/Tests/Slice0.lean ====
section
/-! SUPPORT. Small tests. Expected values come from the spec (95_test_vectors.md unless said otherwise). A name that begins witness_ shows a state and operands
that meet a statement's hypotheses; the statement is named after it. -/

namespace Sys2Proof.Tests

open Sys2Proof.Machine

/-- The next state of a result, if it is one. -/
def nextOf (r : Result) : Option State :=
  match r with
  | .next s => some s
  | .fault _ => none
  | .refused _ => none

/-- The reset state with a buffer content and a buffer capacity. -/
def withCarry (carry : List Byte) (cap : Option Nat) : State :=
  { State.reset with carry := carry, params := { Params.default with bufCap := cap } }

/-- The reset state with a collected operand and an operand capacity. -/
def withOperand (operand : List Byte) (cap : Option Nat) : State :=
  { State.reset with operand := operand, params := { Params.default with opCap := cap } }

/-- The reset state with a schedule. -/
def withSched (ms : List Move) : State := { State.reset with sched := ms }

/-- The reset state inside a decode of `w`. -/
def withWire (w : List Byte) : State := { State.reset with wire := wireStart w }

/-- A host with a file of ten bytes and a capacity of four (program P4). -/
def hostP4 (st : EngineState) (offset : Nat) : HostState :=
  { HostState.initial with
    data := [0x10#8, 0x00#8, 0x20#8, 0x00#8, 0x00#8, 0x30#8, 0xFF#8, 0x01#8, 0x00#8, 0x40#8]
    capacity := 4
    st := st
    offset := offset }

/-! ### Well-formedness refuses -/

theorem test_data_zero_ill_formed : (Instr.data 0x00#8).wellFormed = false := by decide

theorem test_blk_zero_ill_formed : (Instr.blk 0x00#8).wellFormed = false := by decide

theorem test_blk_full_ill_formed : (Instr.blk 0xFF#8).wellFormed = false := by decide

theorem test_rsvd_operation_ill_formed : (Instr.cmdRsvd 1#2 0x07#8).wellFormed = false := by decide

theorem test_rsvd_byte_ill_formed : (Instr.cmdRsvd 0#2 0x41#8).wellFormed = false := by decide

theorem test_rsvd_edge_well_formed : (Instr.cmdRsvd 1#2 0x08#8).wellFormed = true := by decide

/-! ### Words written out from R61, R64, R67 -/

theorem test_decode_data : decode (.rxi 0b001000001#9) = .data 0x41#8 := by decide

theorem test_decode_delim : decode (.rxi 0b000000000#9) = .delim := by decide

theorem test_decode_end : decode (.rxi 0b100000000#9) = .endStream := by decide

theorem test_decode_end_any_data : decode (.rxi 0b110101010#9) = .endStream := by decide

theorem test_decode_opbyte : decode (.cmd 0b0000010001#10) = .opbyte 0x11#8 := by decide

theorem test_decode_enc : decode (.cmd 0b0100000000#10) = .enc := by decide

theorem test_decode_dec : decode (.cmd 0b0100000001#10) = .dec := by decide

theorem test_decode_frame : decode (.cmd 0b0100000010#10) = .frame := by decide

theorem test_decode_crc : decode (.cmd 0b0100000011#10) = .crc := by decide

theorem test_decode_attach : decode (.cmd 0b0100000100#10) = .attach := by decide

theorem test_decode_chunk : decode (.cmd 0b0100000101#10) = .chunk := by decide

theorem test_decode_validate : decode (.cmd 0b0100000110#10) = .validate := by decide

theorem test_decode_op7 : decode (.cmd 0b0100000111#10) = .op7 := by decide

theorem test_decode_rsvd_go : decode (.cmd 0b0100001000#10) = .cmdRsvd 1#2 0x08#8 := by decide

theorem test_decode_rsvd_tag : decode (.cmd 0b1100000101#10) = .cmdRsvd 3#2 0x05#8 := by decide

theorem test_decode_blk : decode (.wire 0b11111110#8) = .blk 0xFE#8 := by decide

theorem test_decode_full : decode (.wire 0b11111111#8) = .full := by decide

theorem test_decode_zero : decode (.wire 0b00000000#8) = .zero := by decide

theorem test_encode_chunk : encode .chunk = .cmd 0x105#10 := by decide

theorem test_too_wide_rejected : decodeNat .rxi 0x200 = .error .tooWide := by rfl

theorem test_table_word_no_format : decodeTableWord 32 0 = none := by decide

theorem test_placed_word_runs :
    (nextOf (step (State.reset.withFetchWord 10 0x041))).map (·.operand) = some [0x41#8] := by decide

/-! ### One step of each instruction -/

theorem test_data_appends :
    (nextOf (exec (.data 0x43#8) (withCarry [0x04#8, 0x41#8] none))).map (·.carry) = some [0x04#8, 0x41#8, 0x43#8] := by
  decide

theorem test_data_overflow :
    (nextOf (exec (.data 0x44#8) (withCarry [0x05#8, 0x11#8, 0x22#8, 0x33#8] (some 4)))).map (fun s => (s.carry, s.poison)) =
      some ([0x05#8, 0x11#8, 0x22#8, 0x33#8], true) := by decide

theorem test_delim_message :
    (nextOf (exec .delim (withCarry [0x04#8, 0x41#8, 0x43#8, 0x4B#8] none))).map (fun s => (s.carry, s.rxo)) =
      some ([], [.msg [0x41#8, 0x43#8, 0x4B#8]]) := by decide

theorem test_delim_error :
    (nextOf (exec .delim (withCarry [0x05#8, 0x11#8, 0x22#8] none))).map (·.rxo) = some [.err .overrun] := by decide

theorem test_end_final_frame :
    (nextOf (exec .endStream (withCarry [0x03#8, 0x11#8, 0x22#8] none))).map (fun s => (s.rxo, s.closed)) =
      some ([.msg [0x11#8, 0x22#8]], true) := by decide

theorem test_end_empty :
    (nextOf (exec .endStream State.reset)).map (fun s => (s.rxo, s.closed)) = some ([], true) := by decide

theorem test_enc :
    (nextOf (exec .enc (withOperand [0x11#8, 0x22#8, 0x00#8, 0x33#8] none))).map (·.rspo) =
      some [⟨.ok, [0x03#8, 0x11#8, 0x22#8, 0x02#8, 0x33#8]⟩] := by decide

theorem test_enc_trailing_zero :
    (nextOf (exec .enc (withOperand [0x41#8, 0x00#8] none))).map (·.rspo) = some [⟨.ok, [0x02#8, 0x41#8, 0x01#8]⟩] := by
  decide

theorem test_dec_second_block_overruns :
    (nextOf (exec .dec (withOperand [0x02#8, 0x41#8, 0x03#8, 0x42#8] none))).map (·.rspo) = some [⟨.overrun, []⟩] := by
  decide

theorem test_dec_zero_first :
    (nextOf (exec .dec (withOperand [0x05#8, 0x00#8] none))).map (·.rspo) = some [⟨.zero, []⟩] := by decide

theorem test_frame_size_announcement :
    (nextOf (exec .frame (withOperand [0x58#8, 0x02#8, 0x00#8, 0x00#8] none))).map (·.rspo) =
      some [⟨.ok, [0x03#8, 0x58#8, 0x02#8, 0x01#8, 0x01#8, 0x00#8]⟩] := by decide

theorem test_crc :
    (nextOf (exec .crc (withOperand [0x01#8, 0x02#8, 0x03#8] none))).map (·.rspo) =
      some [⟨.ok, [0x1D#8, 0x80#8, 0xBC#8, 0x55#8]⟩] := by decide +kernel

theorem test_attach :
    (nextOf (exec .attach (withOperand [0xFF#8] none))).map (·.rspo) =
      some [⟨.ok, [0xFF#8, 0x00#8, 0x00#8, 0x00#8, 0xFF#8]⟩] := by decide

theorem test_chunk :
    (nextOf (exec .chunk (withOperand [0x11#8, 0x00#8, 0x22#8] none))).map (·.rspo) =
      some [⟨.ok, [0x02#8, 0x11#8, 0x06#8, 0x22#8, 0xB1#8, 0x51#8, 0xC5#8, 0x37#8, 0x00#8]⟩] := by decide +kernel

theorem test_validate_ok :
    (nextOf (exec .validate (withOperand [0x00#8, 0x00#8, 0xFF#8, 0x12#8, 0xD9#8, 0x41#8] none))).map (·.rspo) =
      some [⟨.ok, [0x00#8, 0x00#8]⟩] := by decide

theorem test_validate_badsum :
    (nextOf (exec .validate (withOperand [0x01#8, 0x02#8, 0x03#8, 0x1D#8, 0x80#8, 0xBC#8, 0x54#8] none))).map (·.rspo) =
      some [⟨.badsum, []⟩] := by decide +kernel

theorem test_opbyte_at_limit :
    (nextOf (exec (.opbyte 0x05#8) (withOperand [0x01#8, 0x02#8, 0x03#8, 0x04#8] (some 4)))).map
      (fun s => (s.operand, s.tooLong)) = some ([0x01#8, 0x02#8, 0x03#8, 0x04#8], true) := by decide

theorem test_op7_before_too_long :
    (nextOf (exec .op7 { withOperand [0x01#8] (some 1) with tooLong := true })).map (fun s => (s.operand, s.tooLong, s.rspo)) =
      some ([], false, [⟨.illegal, []⟩]) := by decide

theorem test_rsvd :
    (nextOf (exec (.cmdRsvd 3#2 0xFF#8) (withOperand [0x01#8] none))).map (fun s => (s.operand, s.rspo)) =
      some ([], [⟨.illegal, []⟩]) := by decide

theorem test_blk_implies_zero :
    (nextOf (exec (.blk 0x03#8) (withWire [0x03#8, 0x11#8, 0x22#8, 0x02#8, 0x33#8]))).map (fun s => (s.wire.out, s.wire.pos)) =
      some ([0x11#8, 0x22#8, 0x00#8], 3) := by decide

theorem test_blk_last :
    (nextOf (exec (.blk 0x02#8) (withWire [0x02#8, 0x33#8]))).map (fun s => (s.wire.out, s.wire.status)) =
      some ([0x33#8], .done) := by decide

theorem test_full_no_zero :
    (nextOf (exec .full (withWire (0xFF#8 :: List.replicate 254 0x41#8 ++ [0x02#8, 0x42#8])))).map
      (fun s => (s.wire.out, s.wire.pos)) = some (List.replicate 254 0x41#8, 255) := by decide +kernel

theorem test_full_overrun :
    (nextOf (exec .full (withWire [0xFF#8]))).map (fun s => s.wire.status) = some (.failed .overrun) := by decide

theorem test_zero :
    (nextOf (exec .zero (withWire [0x02#8, 0x41#8, 0x00#8]))).map (fun s => s.wire.status) = some (.failed .zero) := by decide

/-! ### The codec at a full run, and the checksum -/

theorem test_encode_full_run :
    codecEncode false (List.replicate 254 0x41#8) = 0xFF#8 :: List.replicate 254 0x41#8 := by decide +kernel

theorem test_encode_full_run_tail :
    codecEncode true (List.replicate 254 0x41#8) = 0xFF#8 :: List.replicate 254 0x41#8 ++ [0x01#8] := by decide +kernel

theorem test_encode_full_run_zero :
    codecEncode false (List.replicate 254 0x01#8 ++ [0x00#8]) =
      0xFF#8 :: List.replicate 254 0x01#8 ++ [0x01#8, 0x01#8] := by decide +kernel

theorem test_stream_encoder : streamEncode false [0x00#8, 0x11#8, 0x00#8] = [0x01#8, 0x02#8, 0x11#8, 0x01#8] := by decide

theorem test_crc_check_string :
    crc32 [0x31#8, 0x32#8, 0x33#8, 0x34#8, 0x35#8, 0x36#8, 0x37#8, 0x38#8, 0x39#8] = 0xCBF43926#32 := by decide +kernel

theorem test_crc_table_check_string :
    crc32Table [0x31#8, 0x32#8, 0x33#8, 0x34#8, 0x35#8, 0x36#8, 0x37#8, 0x38#8, 0x39#8] = 0xCBF43926#32 := by decide

theorem test_event_beats : eventBeats (.msg [0x41#8, 0x43#8, 0x4B#8]) = [0x041#10, 0x043#10, 0x04B#10, 0x100#10] := by decide

theorem test_error_beats : eventBeats (.err .overflow) = [0x203#10] := by decide

theorem test_response_beats : responseBeats ⟨.toolong, []⟩ = [0x107#10] := by decide

/-! ### The ports -/

/-- A closed splitter that is offered a byte. -/
def closedOffered : State := { State.reset with closed := true, rxIn := [0x041#9], sched := [.rx] }

theorem test_closed_holds_beat :
    (nextOf (step closedOffered)).map (fun s => (s.rxIn, s.carry, s.closed)) = some ([0x041#9], [], true) := by decide

theorem test_closed_token_no_effect : exec .delim closedOffered = .next closedOffered := by rfl

theorem test_reset_lets_receive :
    (nextOf (runSteps 3 { closedOffered with sched := [.rx, .rst true true, .rx] })).map (fun s => (s.rxIn, s.carry, s.closed)) =
      some ([], [0x41#8], false) := by decide

/-- One beat of a message taken, then the EOM. -/
theorem test_rx_beats :
    let s := { State.reset with rxo := [.msg [0x41#8]], sched := [.host .rxBeat, .host .rxBeat] }
    rxOutBeat s = some 0x041#10 ∧
    (nextOf (step s)).map (fun t => (rxOutBeat t, t.host.taken)) = some (some 0x100#10, 0) ∧
    (nextOf (runSteps 2 s)).map (fun t => (rxOutBeat t, t.host.taken, t.host.rxSent)) = some (none, 1, 0) := by decide

/-! ### The host (programs P4 and P6, section 2.7) -/

theorem test_cap : capOf 256 = 250 ∧ capOf 10 = 4 ∧ capOf 7 = 1 ∧ capOf 6 = 0 := by decide

/-- `START` offers `FRAME` of the little-endian length. -/
theorem test_start_offers_size_command :
    (nextOf (step { withSched [.host .start] with host := hostP4 .idle 0 })).map (fun s => (s.cmdIn, s.host.call, s.host.st)) =
      some ([0x00A#10, 0x000#10, 0x000#10, 0x000#10, 0x102#10], .waits 0, .idle) := by decide

/-- The reset abandons the engine's command (R168: anything in flight is lost), and the host takes events again. -/
theorem test_reset_abandons_command :
    (nextOf (step { withSched [.rst false false] with
      cmdIn := [0x105#10], host := { hostP4 .awaitingChunkAck 4 with call := .waits 0 } })).map
      (fun s => (s.host.call, s.host.st, s.host.offset, hostFree s)) = some (.idle, .awaitingChunkAck, 4, true) := by decide

/-- From `START` to the gate: the size frame of program P4. -/
theorem test_start_writes_size :
    (nextOf (runSteps 8 { withSched startMoves with host := hostP4 .idle 0 })).map (fun s => (s.host.txo, s.host.st)) =
      some ([[0x02#8, 0x0A#8, 0x01#8, 0x01#8, 0x01#8, 0x00#8]], .awaitingSizeAck) := by decide +kernel

theorem test_first_chunk_command :
    (nextOf (onAcknowledgement tokSizeAck { State.reset with host := hostP4 .awaitingSizeAck 0 })).map (fun s => s.cmdIn) =
      some [0x010#10, 0x000#10, 0x020#10, 0x000#10, 0x105#10] := by decide

theorem test_overshoot_then_done :
    (nextOf (onAcknowledgement tokAck { State.reset with host := hostP4 .awaitingChunkAck 12 })).map
      (fun s => (s.host.st, s.host.offset)) = some (.done, 12) := by decide

theorem test_early_ack_lost :
    (nextOf (onAcknowledgement tokAck { State.reset with host := hostP4 .sendingChunk 4 })).map (fun s => s.host.st) =
      some .sendingChunk := by decide

/-- The engine's command waits behind a command offered before it (R48). -/
theorem test_engine_command_waits_its_turn :
    (nextOf (step { withSched [.host .start] with cmdIn := [0x100#10], host := hostP4 .idle 0 })).map
      (fun s => (s.cmdIn.take 2, s.host.call)) = some ([0x100#10, 0x00A#10], .waits 1) := by decide

theorem test_write_failure :
    hostWriteFails { State.reset with host := hostP4 .sendingChunk 4 } = .fault .transportError := by rfl

theorem test_kill : step (withSched [.kill]) = .fault .killed := by rfl

/-! ### Witnesses: encoding -/

theorem witness_RxiBeatSelectsEvent :
    (0x1FF#9).getLsbD 8 = true ∧
    ((0x000#9).getLsbD 8 = false ∧ (0x000#9).extractLsb' 0 8 = 0x00#8) ∧
    ((0x001#9).getLsbD 8 = false ∧ (0x001#9).extractLsb' 0 8 ≠ 0x00#8) ∧
    ((0x0FF#9).getLsbD 8 = false ∧ (0x0FF#9).extractLsb' 0 8 ≠ 0x00#8) := by decide

theorem witness_BeatsSelectOperations :
    (8 ≤ (0x08#8).toNat ∧ 8 ≤ (0xFF#8).toNat ∧ 2 ≤ (2#2).toNat ∧ 2 ≤ (3#2).toNat) ∧
    (0x01#8 ≠ 0x00#8 ∧ 0x01#8 ≠ 0xFF#8) ∧ (0xFE#8 ≠ 0x00#8 ∧ 0xFE#8 ≠ 0xFF#8) := by decide

theorem witness_DecodeOfEncode :
    (Instr.data 0x01#8).wellFormed = true ∧ (Instr.blk 0xFE#8).wellFormed = true ∧
    (Instr.cmdRsvd 2#2 0x00#8).wellFormed = true := by decide

theorem witness_EncodeOfDecode :
    decode (.cmd 0x1FF#10) ≠ .endStream ∧ decode (.rxi 0x1FF#9) = .endStream := by decide

/-! ### Witnesses: the step -/

theorem witness_StepRunsDecodedOperation :
    (∃ s : State, s.sched = [.rx] ∧ s.rxIn = [0x041#9] ∧ s.closed = false ∧ s.params.evCap = some 1 ∧
      s.rxo.length - s.host.taken < 1) ∧
    (∃ s : State, s.sched = [.cmd] ∧ s.cmdIn = [0x100#10]) ∧
    (∃ s : State, s.sched = [.block] ∧ wireNext s.wire = some (.blk 0x01#8)) :=
  ⟨⟨{ State.reset with sched := [.rx], rxIn := [0x041#9], params := { Params.default with evCap := some 1 } }, by decide⟩,
   ⟨{ State.reset with sched := [.cmd], cmdIn := [0x100#10] }, by decide⟩,
   ⟨{ withWire [0x01#8] with sched := [.block] }, by decide⟩⟩

/-- A block that can hold one event and holds one. -/
def fullBlock : State :=
  { State.reset with rxo := [.msg []], rxIn := [0x041#9], sched := [.rx], params := { Params.default with evCap := some 1 } }

theorem witness_WaitingBlockKeepsState :
    State.reset.sched = [] ∧ ((withSched [.rx]).sched = [.rx] ∧ (withSched [.rx]).rxIn = []) ∧
    ((withSched [.cmd]).sched = [.cmd] ∧ (withSched [.cmd]).cmdIn = []) ∧
    (fullBlock.params.evCap = some 1 ∧ 1 ≤ fullBlock.rxo.length - fullBlock.host.taken ∧ fullBlock.sched = [.rx]) := by decide

/-- A reset while the engine waits for a response and the host goes on offering on one port. -/
def resetWhileCalling : State :=
  { State.reset with sched := [.rst true false], rxIn := [0x041#9], cmdIn := [0x100#10],
                     host := { hostP4 .awaitingSizeAck 0 with call := .waits 0 } }

theorem witness_ResetDiscardsWhatIsInFlight :
    (resetWhileCalling.sched = [.rst true false] ∧ resetWhileCalling.host.call = .waits 0) ∧
    (let s := { resetWhileCalling with sched := [.rst true true] }
     s.sched = [.rst true true] ∧ s.cmdIn.getLast? = some 0x100#10 ∧ closesCommand 0x100#10 = true) ∧
    (withSched [.rst false true]).cmdIn = [] := by decide

theorem witness_ClosedHoldsRxTokens :
    (closedOffered.closed = true ∧ Instr.endStream.format = .rxi ∧ closedOffered.sched = [.rx]) ∧
    (nextOf (step closedOffered)).isSome = true ∧
    (let s := { closedOffered with sched := [.rx, .rst true false, .rx] }
     s.closed = true ∧ s.rxIn = [0x041#9] ∧ s.params.evCap ≠ some 0 ∧ s.sched = .rx :: .rst true false :: .rx :: []) := by decide

theorem witness_StepStopsOnlyAsNamed :
    step (withSched [.kill]) = .fault .killed ∧
    step { withSched [.host .writeFails] with host := hostP4 .announcingSize 0 } = .fault .transportError ∧
    step { withSched [.host .writeFails] with host := hostP4 .sendingChunk 4 } = .fault .transportError :=
  ⟨rfl, rfl, rfl⟩

theorem witness_ParametersNeverChange :
    (nextOf (step { withSched [.host .start] with host := hostP4 .idle 0 })).isSome = true := by decide

theorem witness_TraceLinesAreTokens :
    (withSched [.offerRx 0x041#9]).sched = [.offerRx 0x041#9] ∧ (withSched [.offerCmd 0x100#10]).sched = [.offerCmd 0x100#10] ∧
    (let s := withSched (lineMoves (.rx [0x02#8, 0x41#8, 0x00#8]) ++ [.kill])
     s.rxIn = [] ∧ s.closed = false ∧ s.params.evCap = none ∧ s.cmdIn = [] ∧
       s.sched = lineMoves (.rx [0x02#8, 0x41#8, 0x00#8]) ++ [.kill]) ∧
    (withSched (deliveryMoves [0x41#8, 0x00#8])).sched = deliveryMoves [0x41#8, 0x00#8] ++ [] ∧
    (withSched (lineMoves .endToken)).sched = lineMoves .endToken ++ [] ∧
    (withSched (lineMoves (.cmd .enc [0x41#8]))).sched = lineMoves (.cmd .enc [0x41#8]) ++ [] ∧
    (withSched (lineMoves (.cmdOp7 []))).sched = lineMoves (.cmdOp7 []) ++ [] ∧
    (withSched (lineMoves .rst)).sched = lineMoves .rst ++ [] := by decide

/-! ### Witnesses: the splitter -/

theorem witness_DataAppendsOrPoisons :
    ((0x01#8 ≠ 0x00#8 ∧ 0xFF#8 ≠ 0x00#8) ∧ State.reset.closed = false ∧ State.reset.params.bufCap = none) ∧
    ((withCarry [0x02#8] (some 2)).params.bufCap = some 2 ∧ (withCarry [0x02#8] (some 2)).carry.length < 2) ∧
    ((withCarry [0x02#8, 0x41#8] (some 2)).params.bufCap = some 2 ∧ 2 ≤ (withCarry [0x02#8, 0x41#8] (some 2)).carry.length) := by
  decide

theorem witness_DelimEmitsOneEvent :
    State.reset.closed = false ∧ ({ State.reset with poison := true } : State).poison = true ∧
    codecDecode [0x02#8, 0x41#8] = .ok [0x41#8] ∧ codecDecode [0x02#8] = .err .overrun ∧ 0x00#8 ∉ [0x02#8, 0x41#8] ∧
    (withCarry [0x01#8] none).carry = [0x01#8] := by decide

theorem witness_EndEmitsLastFrame :
    (State.reset.closed = false ∧ State.reset.poison = false ∧ State.reset.carry = []) ∧
    ({ withCarry [0x02#8] (some 1) with poison := true } : State).poison = true ∧
    ((withCarry [0x02#8, 0x41#8] none).carry ≠ [] ∧ codecDecode (withCarry [0x02#8, 0x41#8] none).carry = .ok [0x41#8]) ∧
    ((withCarry [0x02#8] none).carry ≠ [] ∧ codecDecode (withCarry [0x02#8] none).carry = .err .overrun) ∧
    0x00#8 ∉ (withCarry [0x02#8] none).carry := by decide

theorem witness_RxTokenFrame :
    (Instr.data 0x41#8).format = .rxi ∧ (nextOf (exec (.data 0x41#8) State.reset)).isSome = true ∧ 3 ≠ State.reset.carry.length ∧
    (nextOf (exec .delim State.reset)).isSome = true := by decide

theorem witness_CommandFrame :
    Instr.validate.format = .cmd ∧ (Instr.opbyte 0x41#8).format = .cmd ∧ (∀ b, Instr.validate ≠ .opbyte b) := by decide

theorem witness_AgentsCommute : Instr.delim.format = .rxi ∧ Instr.enc.format = .cmd := by decide

theorem witness_SelfSynchronisation :
    (∀ i ∈ [Instr.data 0x02#8, .data 0x41#8, .endStream], i.format = .rxi) ∧
    (withCarry [0x05#8] none).params.bufCap = State.reset.params.bufCap ∧
    (withCarry [0x05#8] none).closed = false ∧ State.reset.closed = false := by decide

theorem witness_SplitInvariance :
    ((withCarry [0x03#8] none).params.bufCap = none ∧ (withCarry [0x03#8] none).closed = false ∧
      (withCarry [0x03#8] none).poison = false ∧ 0x00#8 ∉ (withCarry [0x03#8] none).carry) ∧
    ([[0x02#8], [], [0x41#8, 0x00#8]] : List (List Byte)).flatten = [[0x02#8, 0x41#8], [0x00#8]].flatten ∧
    ((withCarry [0x03#8] (some 4)).rxIn = [] ∧ (withCarry [0x03#8] (some 4)).closed = false ∧
      (withCarry [0x03#8] (some 4)).params.evCap = none) := by decide

theorem witness_DeliveryMatchesDocument :
    (withCarry [0x03#8, 0x11#8] none).params.bufCap = none ∧ (withCarry [0x03#8, 0x11#8] none).closed = false ∧
    (withCarry [0x03#8, 0x11#8] none).poison = false ∧ 0x00#8 ∉ (withCarry [0x03#8, 0x11#8] none).carry := by decide

theorem witness_WholeStreamFunction :
    (withCarry [] (some 4)).closed = false ∧ (withCarry [] (some 4)).carry = [] ∧ (withCarry [] (some 4)).poison = false ∧
    (withCarry [] (some 4)).params.bufCap = some 4 ∧
    ∀ p ∈ [tokAck, [], [0x00#8]], (codecEncode false p).length ≤ 4 := by decide

theorem witness_EventsCountDelimiters :
    (∀ i ∈ [Instr.data 0x02#8, .delim, .data 0x41#8], i.format = .rxi) ∧ .endStream ∉ [Instr.data 0x02#8, .delim, .data 0x41#8] ∧
    State.reset.closed = false ∧ (nextOf (execAll [.data 0x02#8, .delim, .data 0x41#8] State.reset)).isSome = true := by decide

/-! ### Witnesses: the codec, the commands, the checksum -/

theorem witness_EncodeOverhead : (List.replicate 254 0x41#8).length ≤ 254 ∧ 0x00#8 ∉ List.replicate 254 0x41#8 := by decide +kernel

theorem witness_WireBlocksRunDecode : (withWire [0x02#8, 0x41#8]).wire = wireStart [0x02#8, 0x41#8] := by decide

theorem witness_WireBlockResults :
    (Instr.blk 0x01#8).format = .wire ∧ Instr.full.format = .wire ∧ Instr.zero.format = .wire ∧
    (0xFE#8 ≠ 0x00#8 ∧ 0xFE#8 ≠ 0xFF#8) ∧
    (withWire [0x03#8, 0x41#8]).wire.input.length < (withWire [0x03#8, 0x41#8]).wire.pos + (0x03#8).toNat ∧
    (withWire [0x02#8, 0x41#8, 0x01#8]).wire.pos + (0x02#8).toNat < (withWire [0x02#8, 0x41#8, 0x01#8]).wire.input.length ∧
    (withWire [0x02#8, 0x41#8]).wire.pos + (0x02#8).toNat = (withWire [0x02#8, 0x41#8]).wire.input.length ∧
    (withWire (0xFF#8 :: List.replicate 253 0x41#8)).wire.input.length <
      (withWire (0xFF#8 :: List.replicate 253 0x41#8)).wire.pos + 255 ∧
    (withWire (0xFF#8 :: List.replicate 254 0x41#8)).wire.pos + 255 ≤
      (withWire (0xFF#8 :: List.replicate 254 0x41#8)).wire.input.length := by decide +kernel

theorem witness_ZeroFailsDecode :
    ((wireStart [0x02#8, 0x00#8]).status = .running ∧ 0x00#8 ∈ (wireStart [0x02#8, 0x00#8]).input) ∧
    (codecDecode [0x03#8, 0x41#8] = .err .overrun ∧ 0x00#8 ∉ [0x03#8, 0x41#8]) := by decide

theorem witness_EncAnswersEncoding :
    (List.replicate 254 0x41#8).length = 254 ∧ 0x00#8 ∉ List.replicate 254 0x41#8 ∧ 0x01#8 ≠ 0x00#8 := by decide +kernel

theorem witness_DecAnswersDecoding :
    ({ State.reset with tooLong := true } : State).tooLong = true ∧
    ((withOperand [0x01#8] none).tooLong = false ∧ codecDecode (withOperand [0x01#8] none).operand = .ok []) ∧
    codecDecode (withOperand [0x02#8] none).operand = .err .overrun ∧
    ((List.replicate 253 0x41#8).length < 254 ∧ 0x00#8 ∉ List.replicate 253 0x41#8) ∧
    ((List.replicate 254 0x41#8).length = 254 ∧ 0x00#8 ∉ List.replicate 254 0x41#8) := by decide +kernel

theorem witness_FrameAnswersDelimitedEncoding : State.reset.operand = [] := by decide

theorem witness_OpbyteCollectsOrMarks :
    State.reset.params.opCap = none ∧
    ((withOperand [0x01#8] (some 2)).params.opCap = some 2 ∧ (withOperand [0x01#8] (some 2)).operand.length < 2) ∧
    ((withOperand [] (some 0)).params.opCap = some 0 ∧ 0 ≤ (withOperand [] (some 0)).operand.length) := by decide

theorem witness_ReservedBeatsAnswerIllegal :
    ((0x107#10).extractLsb' 8 2 = 1#2 ∧ 7 ≤ ((0x107#10).extractLsb' 0 8).toNat) ∧ 2 ≤ ((0x200#10).extractLsb' 8 2).toNat := by
  decide

theorem witness_CommandBeatsMakeOneCommand :
    (withOperand [] (some 4)).operand = [] ∧ (withOperand [] (some 4)).tooLong = false ∧
    (withOperand [] (some 4)).params.opCap = some 4 ∧ 4 < (List.replicate 5 0x01#8).length := by decide

/-- A command offered before the engine's, with one operand byte accepted. -/
def twoCommands : State :=
  { withOperand [0x41#8] none with cmdIn := [0x100#10], host := hostP4 .idle 0, sched := [.cmd] }

theorem witness_CommandsAnsweredInOrder :
    (nextOf (step twoCommands)).isSome = true ∧ commandOpen twoCommands = false ∧
    (answersAhead twoCommands).length = 1 := by decide

theorem witness_LittleEndianPacking : [0x58#8, 0x02#8, 0x00#8, 0x00#8].length = 4 := by decide

theorem witness_AttachAnswersChunkPayload :
    State.reset.operand = [] ∧ (withOperand [0x01#8, 0x02#8, 0x03#8] none).operand = [0x01#8, 0x02#8, 0x03#8] := by decide

theorem witness_ChunkAnswersFrame :
    State.reset.operand = [] ∧ (withOperand [0x01#8, 0x02#8, 0x03#8] none).operand = [0x01#8, 0x02#8, 0x03#8] := by decide

theorem witness_ValidateAnswersComparison :
    ({ State.reset with tooLong := true } : State).tooLong = true ∧
    ((withOperand [0x00#8, 0x00#8, 0x00#8] none).tooLong = false ∧ (withOperand [0x00#8, 0x00#8, 0x00#8] none).operand.length < 4) ∧
    (withOperand [0x00#8, 0x8D#8, 0xEF#8, 0x02#8, 0xD2#8] none).operand = [0x00#8] ++ [0x8D#8, 0xEF#8, 0x02#8, 0xD2#8] ∧
    crc32 [0x00#8] = unLe32 [0x8D#8, 0xEF#8, 0x02#8, 0xD2#8] ∧ crc32 [] ≠ unLe32 [0x00#8, 0x00#8, 0x00#8, 0x01#8] ∧
    (withOperand [0x00#8, 0x00#8, 0x00#8, 0x01#8] none).operand.length = 4 := by decide

theorem witness_AttachThenValidate :
    (withCarry [] (some 8)).closed = false ∧ (withCarry [] (some 8)).carry = [] ∧ (withCarry [] (some 8)).poison = false ∧
    (withCarry [] (some 8)).params.bufCap = some 8 ∧
    (codecEncode false (attachBytes [0x01#8, 0x02#8, 0x03#8])).length ≤ 8 := by decide +kernel

theorem witness_ChunkFrameFitsTarget :
    (7 ≤ 7 ∧ 7 ≤ 256 ∧ [0x41#8].length ≤ capOf 7) ∧ (7 ≤ 256 ∧ 256 ≤ 256 ∧ (List.replicate 250 0x41#8).length ≤ capOf 256) := by
  decide +kernel

/-! ### Witnesses: the output ports, invariants and the host -/

theorem witness_RxOutBeatsRebuildEvents : 0x100#10 ∈ rxOutBeats [.msg [0x41#8], .err .overflow] := by decide

theorem witness_RspOutBeatsRebuildResponses : 0x107#10 ∈ rspOutBeats [⟨.ok, [0x41#8]⟩, ⟨.toolong, []⟩] := by decide

/-- A message of one byte and a failed response, to be taken beat by beat. -/
def outputs (ms : List Move) : State :=
  { withSched ms with rxo := [.msg [0x41#8]], rspo := [⟨.badsum, []⟩] }

theorem witness_OutputBeatsTakeItems :
    (let s := outputs [.host .rxBeat, .host .rxBeat]
     s.rxo[s.host.taken]? = some (.msg [0x41#8]) ∧ s.host.rxSent = 0 ∧ hostFree s = true ∧
       s.sched = List.replicate (eventBeats (.msg [0x41#8])).length (.host .rxBeat) ++ [] ∧
       1 < (eventBeats (.msg [0x41#8])).length) ∧
    (let s := outputs [.host .rspBeat]
     s.rspo[s.host.rspTaken]? = some ⟨.badsum, []⟩ ∧ s.host.rspSent = 0 ∧
       s.sched = List.replicate (responseBeats ⟨.badsum, []⟩).length (.host .rspBeat) ++ [] ∧
       0 < (responseBeats ⟨.badsum, []⟩).length) ∧
    (let s := withSched [.host .rxBeat]
     s.rxo.length ≤ s.host.taken ∧ s.rspo.length ≤ s.host.rspTaken ∧ s.sched = [.host .rxBeat]) ∧
    (withSched [.host .takeEvent]).sched = [.host .takeEvent] ∧ (withSched [.host .rspBeat]).sched = [.host .rspBeat] ∧
    (withSched [.host .takeResponse]).sched = [.host .takeResponse] := by decide

/-- A poisoned frame in a buffer of four bytes. -/
def poisoned : State := { withCarry [0x05#8, 0x11#8, 0x22#8, 0x33#8] (some 4) with poison := true, sched := [.offerRx 0x044#9] }

theorem witness_StepKeepsBlockInvariants : BlockInv poisoned ∧ (nextOf (step poisoned)).isSome = true :=
  ⟨⟨by decide, fun k h => (by cases h; decide), fun _ => rfl, fun h => (by cases h)⟩, by decide⟩

/-- Two events, one taken, and a command too long. -/
def traced : State :=
  { withOperand [0x01#8] (some 1) with
    tooLong := true
    rxo := [.err .overrun, .msg [0x41#8]]
    rspo := [⟨.badsum, []⟩]
    host := { HostState.initial with taken := 1 }
    sched := [.host .takeResponse] }

theorem witness_StepKeepsTraceInvariants : BlockInv traced ∧ TraceInv traced ∧ (nextOf (step traced)).isSome = true :=
  ⟨⟨by decide, fun k h => (by cases h), fun h => (by cases h), fun h => (by cases h)⟩,
   ⟨by decide, by decide, by decide, by decide, fun k h => (by cases h; decide), fun _ => rfl⟩, by decide⟩

/-- A host in a state, about to make a move. -/
def hostMoves (m : HostMove) (h : HostState) : State := { withSched [.host m] with host := h }

theorem witness_StartAnnouncesSize :
    (let s := hostMoves .start (hostP4 .idle 0)
     s.sched = [.host .start] ∧ s.host.st = .idle ∧ 1 ≤ s.host.capacity ∧ s.host.data.length < 2 ^ 32 ∧ hostFree s = true) ∧
    (hostMoves .start (hostP4 .done 12)).host.st ≠ .idle ∧
    (hostMoves .start { HostState.initial with capacity := capOf 6 }).host.capacity = 0 ∧
    hostFree (hostMoves .start { hostP4 .idle 0 with call := .waits 0 }) = false ∧
    hostFree { hostMoves .start (hostP4 .idle 0) with cmdIn := [0x041#10] } = false := by decide

/-- A file of any length, so one of 2^32 bytes, which is a refused configuration. -/
theorem witness_StartAnnouncesSize_long_file (n : Nat) :
    n ≤ (hostMoves .start { HostState.initial with data := List.replicate n 0x00#8 }).host.data.length := by
  simp [hostMoves]

/-- A token arrives while the engine waits in a state. -/
def tokenArrives (tok : List Byte) (st : EngineState) (offset : Nat) : State :=
  { hostMoves .takeEvent (hostP4 st offset) with rxo := [.msg tok] }

/-- A response arrives while the engine waits for it or for another. -/
def responseArrives (st : EngineState) (nth : Nat) : State :=
  { hostMoves .takeResponse { hostP4 st 0 with call := .waits nth } with rspo := [⟨.ok, [0x01#8, 0x00#8]⟩] }

theorem witness_EngineTransitions :
    (let s := tokenArrives tokSizeAck .awaitingSizeAck 0
     s.sched = [.host .takeEvent] ∧ hostFree s = true ∧ s.host.st = .awaitingSizeAck ∧
       s.rxo[s.host.taken]? = some (.msg [0x53#8, 0x49#8, 0x5A#8, 0x45#8, 0x5F#8, 0x41#8, 0x43#8, 0x4B#8]) ∧
       s.host.offset < s.host.data.length) ∧
    (let s := tokenArrives tokAck .awaitingChunkAck 12
     s.sched = [.host .takeEvent] ∧ hostFree s = true ∧ s.host.st = .awaitingChunkAck ∧
       s.rxo[s.host.taken]? = some (.msg [0x41#8, 0x43#8, 0x4B#8]) ∧ s.host.data.length ≤ s.host.offset) ∧
    (let s := responseArrives .idle 0
     s.sched = [.host .takeResponse] ∧ s.rspo[s.host.rspTaken]? = some ⟨.ok, [0x01#8, 0x00#8]⟩ ∧
       s.host.call = .waits s.host.rspTaken ∧ s.host.st = .idle) ∧
    (responseArrives .awaitingSizeAck 0).host.st = .awaitingSizeAck ∧
    (let s := responseArrives .awaitingChunkAck 1
     s.rspo[s.host.rspTaken]? = some ⟨.ok, [0x01#8, 0x00#8]⟩ ∧ s.host.call ≠ .waits s.host.rspTaken) ∧
    (let s := hostMoves .writable (hostP4 .announcingSize 0)
     s.sched = [.host .writable] ∧ s.host.st = .announcingSize) ∧
    (hostMoves .writable (hostP4 .sendingChunk 4)).host.st = .sendingChunk ∧
    (let s := hostMoves .writable (hostP4 .done 12)
     s.host.st ≠ .announcingSize ∧ s.host.st ≠ .sendingChunk) := by decide

/-- "PING" arrives while the engine awaits a chunk's acknowledgement (Example 3 of the document). -/
def pinged : State := tokenArrives [0x50#8, 0x49#8, 0x4E#8, 0x47#8] .awaitingChunkAck 4

theorem witness_UnrecognisedEventsChangeNothing :
    pinged.sched = [.host .takeEvent] ∧ pinged.rxo[pinged.host.taken]? = some (.msg [0x50#8, 0x49#8, 0x4E#8, 0x47#8]) ∧
    hostFree pinged = true ∧
    ¬(pinged.host.st = .awaitingSizeAck ∧ Event.msg [0x50#8, 0x49#8, 0x4E#8, 0x47#8] = .msg tokSizeAck) ∧
    ¬(pinged.host.st = .awaitingChunkAck ∧ Event.msg [0x50#8, 0x49#8, 0x4E#8, 0x47#8] = .msg tokAck) := by decide

/-- The gate opens for a waiting chunk frame. -/
def gateOpens : State := hostMoves .writable { hostP4 .sendingChunk 4 with frame := [0x01#8, 0x00#8] }

/-- Each clause's case happens: a command is issued, its response builds a chunk's frame, the last acknowledgement ends the transfer, a frame is written. -/
theorem witness_PacingOfChunks :
    (let s := tokenArrives tokAck .awaitingChunkAck 4
     (nextOf (step s)).map (fun t => t.host.call) = some (.waits 0) ∧ s.host.call = .idle ∧ s.host.st ≠ .idle) ∧
    ((nextOf (step (responseArrives .awaitingSizeAck 0))).map (fun t => t.host.st) = some .sendingChunk ∧
      (responseArrives .awaitingSizeAck 0).host.st ≠ .sendingChunk) ∧
    ((nextOf (step (tokenArrives tokAck .awaitingChunkAck 12))).map (fun t => t.host.st) = some .done ∧
      (tokenArrives tokAck .awaitingChunkAck 12).host.st ≠ .done) ∧
    ((nextOf (step gateOpens)).map (fun t => t.host.txo) = some [[0x01#8, 0x00#8]] ∧ gateOpens.host.txo = []) := by decide

/-- The size frame and the first chunk's frame are out, and the second chunk's command is about to be issued. -/
def chunkOut : State :=
  { tokenArrives tokAck .awaitingChunkAck 4 with
    host := { hostP4 .awaitingChunkAck 4 with txo := framesWritten false (hostP4 .idle 0).data 4 1 }
    params := { Params.default with opCap := some 4 } }

theorem witness_StepKeepsTransferInvariant :
    operandsFit chunkOut ∧ TransferInv chunkOut ∧ (nextOf (step chunkOut)).isSome = true :=
  ⟨fun k h => (by cases h; decide),
   ⟨by decide, 0, by decide, by decide, by rfl, .inl (by decide), fun n h => (by cases h)⟩, by decide⟩

theorem witness_ChunkCoverage :
    1 ≤ 4 ∧ chunkCount (hostP4 .idle 0).data.length 4 = 3 ∧ 1 + 1 < chunkCount 10 4 ∧ 2 < chunkCount 10 4 := by decide

/-- Program P4 with the smallest buffers that carry its transfer. -/
def readyP4 : State := { State.reset with host := hostP4 .idle 0, params := ⟨some 9, some 4, some 1, false⟩ }

theorem witness_AcknowledgedTransferCompletes :
    let moves := transferMoves (chunkCount readyP4.host.data.length readyP4.host.capacity) readyP4.host.capacity
    TransferReady { readyP4 with sched := moves } ∧ ({ readyP4 with sched := moves } : State).sched = moves ++ [] :=
  ⟨⟨by rfl, by decide, ⟨rfl, rfl, rfl, rfl⟩, ⟨rfl, rfl⟩, ⟨rfl, rfl, rfl, rfl⟩, by decide,
    fun k h => (by cases h; decide), fun k h => (by cases h; decide), by decide⟩, by simp⟩

theorem witness_StalledEngineStays : hostStalled pinged = true ∧ (nextOf (runSteps 1 pinged)).isSome = true := by decide

end Sys2Proof.Tests
end

section
/-! PROOF. The step runs what the oldest beat decodes to (R15, R48, R60), and writes no parameter, file content or capacity (R9, R28, R33, R150). -/

namespace Sys2Proof.Machine

/-- There is room under a capacity that is not reached, and under no capacity (R9). -/
theorem roomFor_of_lt {cap : Option Nat} {n : Nat} (h : ∀ k, cap = some k → n < k) : roomFor cap n = true := by
  cases cap with
  | none => rfl
  | some k => simpa using h k rfl

/-- `rx_in.ready` is 1 while `closed = 0` and there is room for an event (R114, R226). -/
theorem rxReady_of_room {s : State} (hopen : s.closed = false)
    (hroom : ∀ k, s.params.evCap = some k → s.rxo.length - s.host.taken < k) : rxReady s = true := by
  have hr : roomFor s.params.evCap (heldEvents s) = true := roomFor_of_lt hroom
  simp [rxReady, hopen, hr]

/-- A step is the next move of the schedule (R15). -/
theorem step_of_sched {s : State} {m : Move} {ms : List Move} (h : s.sched = m :: ms) :
    step s = perform m { s with sched := ms } := by
  simp [step, stepSchedule, h]

/-- The ready RX agent runs the oldest beat of its port (R48, R60). -/
theorem rxAgent_ready {s : State} {w : BitVec 9} {ws : List (BitVec 9)} (hw : s.rxIn = w :: ws) (hr : rxReady s = true) :
    rxAgent s = exec (decode (.rxi w)) { s with rxIn := ws } := by
  simp [rxAgent, hw, hr]

/-- The command agent runs the oldest beat of its port (R48, R60). -/
theorem cmdAgent_offered {s : State} {w : BitVec 10} {ws : List (BitVec 10)} (hw : s.cmdIn = w :: ws) :
    cmdAgent s = exec (decode (.cmd w)) { s with cmdIn := ws } := by
  simp [cmdAgent, hw]

/-- The decode loop runs its next wire block (R98 to R100). -/
theorem blockAgent_running {s : State} {i : Instr} (hi : wireNext s.wire = some i) : blockAgent s = exec i s := by
  simp [blockAgent, hi]

/-- Settles O6: the move is the agent's, and the agent that can accept a beat runs what it decodes to. -/
theorem stepRunsDecodedOperation : Obligations.StepRunsDecodedOperation := by
  intro s ms
  refine ⟨fun w ws hs hw hopen hroom => ?_, fun w ws hs hw => ?_, fun i hs hi => ?_⟩
  · rw [step_of_sched hs]
    exact rxAgent_ready (s := { s with sched := ms }) hw (rxReady_of_room hopen hroom)
  · rw [step_of_sched hs]
    exact cmdAgent_offered (s := { s with sched := ms }) hw
  · rw [step_of_sched hs]
    exact blockAgent_running (s := { s with sched := ms }) hi

/-- The two states agree on what is fixed before a run: the parameters, the file content and the capacity (R9, R150). -/
structure SameFixed (s t : State) : Prop where
  params : t.params = s.params
  data : t.host.data = s.host.data
  capacity : t.host.capacity = s.host.capacity

theorem sameFixed_refl (s : State) : SameFixed s s := ⟨rfl, rfl, rfl⟩

/-- No instruction writes them, since it writes nothing outside the block. -/
theorem exec_sameFixed {i : Instr} {s t : State} (h : exec i s = .next t) : SameFixed s t := by
  have outside := exec_sameOutside h
  exact ⟨outside.params, by rw [outside.host], by rw [outside.host]⟩

/-- No effect of a host move writes them: the host writes its cursor, its frames and its counts (R150, R168). -/
theorem hostEffect_sameFixed {s t : State} (h : HostEffect s t) : SameFixed s t := by
  cases h <;> exact ⟨rfl, rfl, rfl⟩

/-- No move writes them. -/
theorem perform_sameFixed {m : Move} {s t : State} (h : perform m s = .next t) : SameFixed s t := by
  obtain ⟨w, -, rfl⟩ | ⟨w, -, rfl⟩ | ⟨-, h⟩ | ⟨-, h⟩ | ⟨-, h⟩ | ⟨keepRx, keepCmd, -, rfl⟩ | ⟨x, -, h⟩ := perform_cases h
  · exact ⟨rfl, rfl, rfl⟩
  · exact ⟨rfl, rfl, rfl⟩
  · obtain rfl | ⟨w, ws, -, -, h⟩ := rxAgent_cases h
    · exact sameFixed_refl _
    · obtain ⟨hp, hd, hc⟩ := exec_sameFixed h
      exact ⟨hp, hd, hc⟩
  · obtain rfl | ⟨w, ws, -, h⟩ := cmdAgent_cases h
    · exact sameFixed_refl _
    · obtain ⟨hp, hd, hc⟩ := exec_sameFixed h
      exact ⟨hp, hd, hc⟩
  · obtain rfl | ⟨i, u, -, h, -⟩ := blockAgent_cases h
    · exact sameFixed_refl _
    · exact exec_sameFixed h
  · exact ⟨rfl, rfl, rfl⟩
  · exact hostEffect_sameFixed (hostMove_effect h)

/-- Settles O12: an idle step changes nothing, and no move writes what is fixed. -/
theorem parametersNeverChange : Obligations.ParametersNeverChange := by
  intro s t h
  obtain ⟨-, rfl⟩ | ⟨m, ms, -, h⟩ := step_cases h
  · exact ⟨rfl, rfl, rfl⟩
  · obtain ⟨hp, hd, hc⟩ := perform_sameFixed h
    exact ⟨hp, hd, hc⟩

end Sys2Proof.Machine
end

section
/-! PROOF. The RX agent and the command agent share no state (R17, R20, R48). -/

namespace Sys2Proof.Machine

/-- The state with the fields that a command writes: the operand, the mark, the responses (R32, R65). -/
def withCommandFields (operand : List Byte) (tooLong : Bool) (rspo : List Response) (s : State) : State :=
  { s with operand := operand, tooLong := tooLong, rspo := rspo }

section
variable (o : List Byte) (l : Bool) (r : List Response) (s : State)

@[simp] theorem withCommandFields_carry : (withCommandFields o l r s).carry = s.carry := rfl
@[simp] theorem withCommandFields_poison : (withCommandFields o l r s).poison = s.poison := rfl
@[simp] theorem withCommandFields_closed : (withCommandFields o l r s).closed = s.closed := rfl
@[simp] theorem withCommandFields_params : (withCommandFields o l r s).params = s.params := rfl

end

/-- What a beat of the command port writes depends on the command's own fields and the parameters, and nothing else is written (R32, R48). -/
theorem exec_cmd_congr {j : Instr} (hj : j.format = .cmd) (s : State) :
    ∃ o l r, ∀ t, SameCommand s t → exec j t = .next (withCommandFields o l r t) := by
  rcases cmd_shapes hj with ⟨b, rfl⟩ | hrejected | ⟨op, rfl⟩
  · refine ⟨(collectByte b s).operand, (collectByte b s).tooLong, s.rspo, fun t h => ?_⟩
    rw [exec_opbyte, collectByte_operand, collectByte_tooLong, ← h.operand, ← h.tooLong, ← h.rspo, ← h.params]
    unfold collectByte
    cases roomFor t.params.opCap t.operand.length <;> rfl
  · exact ⟨[], false, s.rspo ++ [failure .illegal], fun t h => by rw [hrejected, ← h.rspo]; rfl⟩
  · refine ⟨[], false, (closeCommand (answerOf s.params.tail01 op) s).rspo, fun t h => ?_⟩
    rw [exec_opInstr, closeCommand_rspo, ← h.operand, ← h.tooLong, ← h.rspo, ← h.params]
    rfl

/-- An RX token writes none of the command's fields (R48). -/
theorem exec_rxi_sameCommand {i : Instr} (hi : i.format = .rxi) {s t : State} (h : exec i s = .next t) : SameCommand s t := by
  obtain ⟨-, rfl⟩ | ⟨-, h | h | h | h | h⟩ := exec_rxi_cases hi h
  · exact ⟨rfl, rfl, rfl, rfl⟩
  · obtain ⟨b, -, -, rfl⟩ := h; exact ⟨rfl, rfl, rfl, rfl⟩
  · obtain ⟨b, -, -, rfl⟩ := h; exact ⟨rfl, rfl, rfl, rfl⟩
  · obtain ⟨-, rfl⟩ := h; exact ⟨rfl, rfl, rfl, rfl⟩
  · obtain ⟨-, -, rfl⟩ := h; exact ⟨rfl, rfl, rfl, rfl⟩
  · obtain ⟨-, -, -, rfl⟩ := h; exact ⟨rfl, rfl, rfl, rfl⟩

/-- An RX token reads none of the command's fields (R48): other values in them stay, and the rest of its next state is the same. -/
theorem exec_rxi_withCommandFields {i : Instr} (hi : i.format = .rxi) (o : List Byte) (l : Bool) (r : List Response)
    {s t : State} (h : exec i s = .next t) : exec i (withCommandFields o l r s) = .next (withCommandFields o l r t) := by
  obtain ⟨hc, rfl⟩ | ⟨hc, h⟩ := exec_rxi_cases hi h
  · exact exec_rxi_closed hi hc
  have hc' : (withCommandFields o l r s).closed = false := hc
  obtain ⟨b, rfl, hr, rfl⟩ | ⟨b, rfl, hr, rfl⟩ | ⟨rfl, rfl⟩ | ⟨rfl, hp, rfl⟩ | ⟨rfl, hp, hcarry, rfl⟩ := h
  · rw [exec_data hc', withCommandFields_params, withCommandFields_carry, hr]
    rfl
  · rw [exec_data hc', withCommandFields_params, withCommandFields_carry, hr]
    rfl
  · exact exec_delim hc'
  · rw [exec_endStream hc', withCommandFields_poison, withCommandFields_carry, if_pos hp]
    rfl
  · rw [exec_endStream hc', withCommandFields_poison, withCommandFields_carry, if_neg (by simp [hp, hcarry])]
    rfl

/-- Settles O19: the command's fields get the same values before and after the token, and the token neither reads nor writes them. -/
theorem agentsCommute : Obligations.AgentsCommute := by
  intro i j s hi hj
  obtain ⟨t, ht⟩ := exec_rxi_next hi s
  obtain ⟨o, l, r, hcmd⟩ := exec_cmd_congr hj s
  calc andThen (exec i s) (exec j)
      _ = exec j t := by rw [ht]; rfl
      _ = .next (withCommandFields o l r t) := hcmd t (exec_rxi_sameCommand hi ht)
      _ = exec i (withCommandFields o l r s) := (exec_rxi_withCommandFields hi o l r ht).symm
      _ = andThen (exec j s) (exec i) := by rw [hcmd s ⟨rfl, rfl, rfl, rfl⟩]; rfl

end Sys2Proof.Machine
end

section
/-! PROOF. Words as four bytes, least significant byte first (R13). -/

namespace Sys2Proof.Machine

@[simp] theorem le32_length (v : Word) : (le32 v).length = 4 := rfl

/-- `unLE32` of four bytes is their weighted sum, which is less than `2^32` (R13). -/
theorem unLe32_toNat (a b c d : Byte) :
    (unLe32 [a, b, c, d]).toNat = a.toNat + 256 * b.toNat + 65536 * c.toNat + 16777216 * d.toNat := by
  simp only [unLe32, List.foldr_cons, List.foldr_nil, BitVec.toNat_ofNat]
  omega

/-- Byte `k` of a word is its digit to the base 256 (R13). -/
theorem extractByte_toNat (v : Word) (k : Nat) : (v.extractLsb' (8 * k) 8).toNat = v.toNat / 256 ^ k % 256 := by
  rw [BitVec.extractLsb'_toNat, Nat.shiftRight_eq_div_pow, Nat.pow_mul]

/-- `unLE32(LE32(v)) = v` (R13): the four digits make the word up. -/
theorem unLe32_le32 (v : Word) : unLe32 (le32 v) = v := by
  apply BitVec.eq_of_toNat_eq
  have h0 := extractByte_toNat v 0
  have h1 := extractByte_toNat v 1
  have h2 := extractByte_toNat v 2
  have h3 := extractByte_toNat v 3
  simp only [Nat.reduceMul, Nat.reducePow] at h0 h1 h2 h3
  rw [le32, unLe32_toNat]
  omega

/-- `LE32(unLE32(s)) = s` (R13): the digits of the weighted sum are the bytes. -/
theorem le32_unLe32 (a b c d : Byte) : le32 (unLe32 [a, b, c, d]) = [a, b, c, d] := by
  have digit (k : Nat) {x : Byte} (hx : (unLe32 [a, b, c, d]).toNat / 256 ^ k % 256 = x.toNat) :
      (unLe32 [a, b, c, d]).extractLsb' (8 * k) 8 = x := BitVec.eq_of_toNat_eq ((extractByte_toNat _ k).trans hx)
  have ha : (unLe32 [a, b, c, d]).extractLsb' 0 8 = a := digit 0 (by rw [unLe32_toNat]; omega)
  have hb : (unLe32 [a, b, c, d]).extractLsb' 8 8 = b := digit 1 (by rw [unLe32_toNat]; omega)
  have hc : (unLe32 [a, b, c, d]).extractLsb' 16 8 = c := digit 2 (by rw [unLe32_toNat]; omega)
  have hd : (unLe32 [a, b, c, d]).extractLsb' 24 8 = d := digit 3 (by rw [unLe32_toNat]; omega)
  rw [le32, ha, hb, hc, hd]

/-- Settles O39, from the weighted sum and its digits. -/
theorem littleEndianPacking : Obligations.LittleEndianPacking := by
  refine ⟨unLe32_le32, fun s hs => ?_, unLe32_toNat, by decide⟩
  obtain ⟨a, b, c, d, rfl⟩ := List.length_eq_four.1 hs
  exact le32_unLe32 a b c d

end Sys2Proof.Machine
end

section
/-! PROOF. The length of an encoding with `TAIL01 = false` (R91, R95), and the frame of a chunk within the capacity (R10, R151, R231). -/

namespace Sys2Proof.Machine

/-- `q` full blocks of a segment that has `q` full runs: a code byte before each run (R91). -/
theorem fullBlocks_length (q : Nat) {g : List Byte} (h : runMax * q ≤ g.length) :
    (fullBlocks q g).length = (runMax + 1) * q := by
  induction q generalizing g with
  | zero => rfl
  | succ q ih =>
    simp only [runMax] at h ih ⊢
    have hrest := ih (g := g.drop 254) (by rw [List.length_drop]; omega)
    simp only [fullBlocks, runMax, List.length_append, List.length_cons, List.length_take]
    omega

/-- The length of an encoded segment: a code byte per full run, and one for the closing block where there is one (R91). -/
theorem segenc_length (tail01 : Bool) (g : List Byte) (last : Bool) :
    (segenc tail01 g last).length = g.length + g.length / runMax +
      (if last = true ∧ 0 < g.length ∧ g.length % runMax = 0 ∧ tail01 = false then 0 else 1) := by
  have hfull := fullBlocks_length (g.length / runMax) (Nat.mul_div_le g.length runMax)
  simp only [segenc, List.length_append, hfull]
  split
  · simp only [runMax, List.length_nil] at *
    omega
  · simp only [runMax, List.length_cons, List.length_drop]
    omega

/-- R95's tighter bound, over the segments: a further segment is paid for by the zero before it. -/
theorem encodeSegments_false_length_le {gs : List (List Byte)} (hne : gs ≠ []) :
    (encodeSegments false gs).length ≤ (joinSegments gs).length + max 1 (((joinSegments gs).length + 253) / 254) := by
  induction gs with
  | nil => exact absurd rfl hne
  | cons g gs ih =>
    cases gs with
    | nil =>
      simp only [encodeSegments, joinSegments, segenc_length, true_and, and_true, runMax]
      split <;> omega
    | cons g' gs =>
      have hrest := ih (List.cons_ne_nil g' gs)
      simp only [encodeSegments, joinSegments, List.length_append, List.length_cons, segenc_length, runMax,
        Bool.false_eq_true, false_and, if_false] at hrest ⊢
      omega

/-- R95's tighter bound: with `TAIL01 = false` an encoding adds one byte per 254 begun, and one to the empty payload. -/
theorem codecEncode_false_length_le (p : List Byte) :
    (codecEncode false p).length ≤ p.length + max 1 ((p.length + 253) / 254) := by
  have h := encodeSegments_false_length_le (segments_ne_nil p)
  rwa [joinSegments_segments] at h

/-- The checksum adds four bytes (R135). -/
@[simp] theorem attachBytes_length (chunk : List Byte) : (attachBytes chunk).length = chunk.length + 4 := by
  simp [attachBytes]

/-- The delimiter adds one byte (R101). -/
@[simp] theorem frameBytes_length (tail01 : Bool) (p : List Byte) :
    (frameBytes tail01 p).length = (codecEncode tail01 p).length + 1 := by
  simp [frameBytes]

/-- Settles O46: the payload has at most `frameSize - 2` bytes, so at most 254, and its encoding adds one. -/
theorem chunkFrameFitsTarget : Obligations.ChunkFrameFitsTarget := by
  intro frameSize chunk hmin hmax hchunk
  simp only [capOf, csumSize, delimSize, codecOvh] at hchunk
  have hencoded := codecEncode_false_length_le (attachBytes chunk)
  rw [attachBytes_length] at hencoded
  rw [frameBytes_length, delimSize]
  omega

end Sys2Proof.Machine
end

section
/-! PROOF. What one exec writes: the frames of the RX tokens and of the command port (R20, R27, R32, R65). -/

namespace Sys2Proof.Machine

/-- A command operation writes the command's own fields and no other (R32, R48). -/
theorem exec_cmd_withCommandFields {i : Instr} (hi : i.format = .cmd) {s t : State} (h : exec i s = .next t) :
    ∃ o l r, t = withCommandFields o l r s := by
  obtain ⟨o, l, r, hcmd⟩ := exec_cmd_congr hi s
  rw [hcmd s ⟨rfl, rfl, rfl, rfl⟩] at h
  cases h
  exact ⟨o, l, r, rfl⟩

/-- On an input without a zero decode fails with `E_OVERRUN` only (R182). -/
theorem codecDecode_err_of_zero_free {w : List Byte} (hw : 0x00#8 ∉ w) {code : Status} (h : codecDecode w = .err code) :
    code = .overrun := by
  rw [codecDecode_eq_rest hw] at h
  exact decodeRest_err _ _ _ _ h

/-- Decode fails with `E_ZERO` or `E_OVERRUN` only (R96, R190). -/
theorem codecDecode_err {w : List Byte} {code : Status} (h : codecDecode w = .err code) : code = .zero ∨ code = .overrun := by
  by_cases hw : 0x00#8 ∈ w
  · rw [codecDecode_zero hw] at h
    cases h
    exact .inl rfl
  · exact .inr (codecDecode_err_of_zero_free hw h)

/-- `E_OVERFLOW` is no operation's status: a decode, `E_SHORT` and `E_BADSUM` are all that fails (R181, R190). -/
theorem answerOf_status_ne_overflow (tail01 : Bool) (op : CmdOp) (w : List Byte) :
    (answerOf tail01 op w).status ≠ .overflow := by
  cases op with
  | enc => exact nofun
  | frame => exact nofun
  | crc => exact nofun
  | attach => exact nofun
  | chunk => exact nofun
  | dec =>
    simp only [answerOf, answerDec]
    split
    · exact nofun
    · obtain rfl | rfl := codecDecode_err ‹codecDecode w = .err _› <;> exact nofun
  | validate =>
    simp only [answerOf, answerValidate]
    split
    · exact nofun
    · split <;> exact nofun

/-- What an operation answers to an operand is a legal response (R65, R181). -/
theorem answerOf_legal (tail01 : Bool) (op : CmdOp) (w : List Byte) : legalResponse (answerOf tail01 op w) = true := by
  simpa [legalResponse] using And.intro (answerOf_status tail01 op w) (answerOf_status_ne_overflow tail01 op w)

/-- A legal response of a non-OK status has no bytes (R65). -/
theorem bytes_of_legalResponse {r : Response} (h : legalResponse r = true) (hs : r.status ≠ .ok) : r.bytes = [] := by
  simp only [legalResponse, Bool.and_eq_true, Bool.or_eq_true, beq_iff_eq] at h
  exact h.1.resolve_left hs

/-- An operand byte makes no response (R64). -/
theorem exec_opbyte_rspo {b : Byte} {s t : State} (h : exec (.opbyte b) s = .next t) : t.rspo = s.rspo := by
  cases h
  exact collectByte_rspo b s

/-- Every beat of the command port but an operand byte makes one legal response, and the command is over (R64, R65, R73). -/
theorem exec_cmd_responds {i : Instr} (hi : i.format = .cmd) (hne : ∀ b, i ≠ .opbyte b) {s t : State}
    (h : exec i s = .next t) : ∃ r, legalResponse r = true ∧ t = respond r s := by
  rcases exec_cmd_cases hi s with ⟨b, hb, -⟩ | hrejected | ⟨op, -, hclosed⟩
  · exact absurd hb (hne b)
  · rw [hrejected] at h
    cases h
    exact ⟨failure .illegal, rfl, rfl⟩
  · rw [hclosed] at h
    cases h
    refine ⟨if s.tooLong then failure .toolong else answerOf s.params.tail01 op s.operand, ?_, rfl⟩
    split
    · rfl
    · exact answerOf_legal _ _ _

/-- Settles O18: the port writes the command's fields only, and a beat collects a byte or makes one legal response. -/
theorem commandFrame : Obligations.CommandFrame := by
  intro i s hi
  obtain ⟨t, ht⟩ := exec_next i s
  obtain ⟨o, l, r, hfields⟩ := exec_cmd_withCommandFields hi ht
  subst hfields
  refine ⟨_, ht, fun a => rfl, rfl, rfl, rfl, rfl, rfl, rfl, rfl, rfl, rfl, rfl, ?_, fun hne => ?_⟩
  · rintro b rfl
    exact exec_opbyte_rspo ht
  · obtain ⟨answer, hlegal, hresponded⟩ := exec_cmd_responds hi hne ht
    rw [hresponded]
    exact ⟨rfl, rfl, answer, rfl, bytes_of_legalResponse hlegal⟩

/-- The RX tokens leave the decode loop's variables (R20). -/
theorem exec_rxi_wire {i : Instr} (hi : i.format = .rxi) {s t : State} (h : exec i s = .next t) : t.wire = s.wire := by
  obtain ⟨-, rfl⟩ | ⟨-, ⟨b, -, -, rfl⟩ | ⟨b, -, -, rfl⟩ | ⟨-, rfl⟩ | ⟨-, -, rfl⟩ | ⟨-, -, -, rfl⟩⟩ :=
    exec_rxi_cases hi h <;> rfl

/-- Only `END` writes `closed` (R25). -/
theorem exec_rxi_closed_eq {i : Instr} (hi : i.format = .rxi) (hne : i ≠ .endStream) {s t : State}
    (h : exec i s = .next t) : t.closed = s.closed := by
  obtain ⟨-, rfl⟩ | ⟨-, ⟨b, -, -, rfl⟩ | ⟨b, -, -, rfl⟩ | ⟨-, rfl⟩ | ⟨hend, -⟩ | ⟨hend, -⟩⟩ := exec_rxi_cases hi h
  · rfl
  · rfl
  · rfl
  · rfl
  · exact absurd hend hne
  · exact absurd hend hne

/-- `DATA` emits nothing, and stores at the end of the buffer or not at all (R41, R111). -/
theorem exec_data_frame {b : Byte} {s t : State} (h : exec (.data b) s = .next t) :
    t.rxo = s.rxo ∧ ∀ a, a ≠ s.carry.length → memByte t a = memByte s a := by
  cases hc : s.closed with
  | true =>
    rw [exec_rxi_closed rfl hc] at h
    cases h
    exact ⟨rfl, fun _ _ => rfl⟩
  | false =>
    rw [exec_data hc] at h
    cases h
    split
    · exact ⟨rfl, fun a ha => by rw [memByte_appendByte, if_neg ha]⟩
    · exact ⟨rfl, fun _ _ => rfl⟩

/-- Settles O17, from the frames of the outside, of the command's fields and of the buffer. -/
theorem rxTokenFrame : Obligations.RxTokenFrame := by
  intro i s t hi h
  obtain ⟨hrxIn, hcmdIn, hhost, hsched, hparams⟩ := exec_sameOutside h
  obtain ⟨hoperand, htooLong, hrspo, -⟩ := exec_rxi_sameCommand hi h
  refine ⟨hoperand, htooLong, hrspo, exec_rxi_wire hi h, hrxIn, hcmdIn, hhost, hsched, hparams, ?_, ?_⟩
  · rintro rfl
    exact exec_rxi_closed_eq hi nofun h
  · rintro b rfl
    obtain ⟨hrxo, hbytes⟩ := exec_data_frame h
    exact ⟨hrxo, exec_rxi_closed_eq hi nofun h, hbytes⟩

end Sys2Proof.Machine
end

section
/-! PROOF. The invariants of the block and of the output traces: at reset, and through every step (R35, R181, R189). -/

namespace Sys2Proof.Machine

/-- A predicate that the ports, the schedule and the decode loop's variables do not touch, and that every agent, a reset and the host keep. -/
structure KeptByAgents (P : State → Prop) : Prop where
  ports : ∀ {s : State} (rxIn : List (BitVec 9)) (cmdIn : List (BitVec 10)) (sched : List Move) (wire : Wire), P s →
    P { s with rxIn := rxIn, cmdIn := cmdIn, sched := sched, wire := wire }
  rx : ∀ {s t : State} {w : BitVec 9}, P s → exec (decode (.rxi w)) s = .next t → P t
  cmd : ∀ {s t : State} {i : Instr}, P s → i.format = .cmd → exec i s = .next t → P t
  reset : ∀ {s : State} (keepRx keepCmd : Bool), P s → P (applyReset keepRx keepCmd s)
  host : ∀ {s t : State} {x : HostMove}, P s → hostMove x s = .next t → P t

/-- Every move keeps such a predicate. -/
theorem KeptByAgents.of_perform {P : State → Prop} (kept : KeptByAgents P) {m : Move} {s t : State} (hs : P s)
    (h : perform m s = .next t) : P t := by
  obtain ⟨w, -, rfl⟩ | ⟨w, -, rfl⟩ | ⟨-, h⟩ | ⟨-, h⟩ | ⟨-, h⟩ | ⟨keepRx, keepCmd, -, rfl⟩ | ⟨x, -, h⟩ := perform_cases h
  · exact kept.ports _ s.cmdIn s.sched s.wire hs
  · exact kept.ports s.rxIn _ s.sched s.wire hs
  · obtain rfl | ⟨w, ws, -, -, h⟩ := rxAgent_cases h
    · exact hs
    · exact kept.rx (kept.ports ws s.cmdIn s.sched s.wire hs) h
  · obtain rfl | ⟨w, ws, -, h⟩ := cmdAgent_cases h
    · exact hs
    · exact kept.cmd (kept.ports s.rxIn ws s.sched s.wire hs) (decode_format _) h
  · obtain rfl | ⟨i, u, -, -, rfl⟩ := blockAgent_cases h
    · exact hs
    · exact kept.ports s.rxIn s.cmdIn s.sched u hs
  · exact kept.reset keepRx keepCmd hs
  · exact kept.host hs h

/-- So does every step. -/
theorem KeptByAgents.of_step {P : State → Prop} (kept : KeptByAgents P) {s t : State} (hs : P s) (h : step s = .next t) :
    P t := by
  obtain ⟨-, rfl⟩ | ⟨m, ms, -, h⟩ := step_cases h
  · exact hs
  · exact kept.of_perform (kept.ports s.rxIn s.cmdIn ms s.wire hs) h

/-! ### The block's invariants (R35) -/

/-- At a frame start all four hold. -/
theorem blockInv_of_frameStart {s : State} (hcarry : s.carry = []) (hpoison : s.poison = false) : BlockInv s where
  noZero := by simp [hcarry]
  bounded := by simp [hcarry]
  poisonFull := by simp [hpoison]
  closedEmpty := fun _ => ⟨hcarry, hpoison⟩

/-- They speak of the splitter's fields and the parameters. -/
theorem blockInv_congr {s t : State} (hs : BlockInv s) (hcarry : t.carry = s.carry) (hpoison : t.poison = s.poison)
    (hclosed : t.closed = s.closed) (hparams : t.params = s.params) : BlockInv t where
  noZero := by rw [hcarry]; exact hs.noZero
  bounded := by rw [hparams, hcarry]; exact hs.bounded
  poisonFull := by rw [hpoison, hparams, hcarry]; exact hs.poisonFull
  closedEmpty := by rw [hclosed, hcarry, hpoison]; exact hs.closedEmpty

/-- Storing a byte that is not zero where there is room: the buffer was not full, so the frame is not poisoned (R111). -/
theorem blockInv_appendByte {b : Byte} (hb : b ≠ 0x00#8) {s : State} (hs : BlockInv s) (hopen : s.closed = false)
    (hroom : roomFor s.params.bufCap s.carry.length = true) : BlockInv (appendByte b s) where
  noZero := by simpa using ⟨hs.noZero, hb.symm⟩
  bounded k hk := by
    have hcap : s.params.bufCap = some k := hk
    rw [hcap] at hroom
    simpa using hroom
  poisonFull hp := by
    rw [hs.poisonFull hp] at hroom
    simp at hroom
  closedEmpty hc := by simp [hopen] at hc

/-- Dropping a byte where there is no room: the buffer is full (R111). -/
theorem blockInv_setPoison {s : State} (hs : BlockInv s) (hopen : s.closed = false)
    (hroom : roomFor s.params.bufCap s.carry.length = false) : BlockInv (setPoison s) where
  noZero := hs.noZero
  bounded := hs.bounded
  poisonFull _ := by
    obtain ⟨k, hk, hfull⟩ := roomFor_false hroom
    have hle := hs.bounded k hk
    rw [setPoison_params, setPoison_carry, hk, Nat.le_antisymm hle hfull]
  closedEmpty hc := by simp [hopen] at hc

/-- The RX agent keeps them: a `DATA` beat carries no zero (R61), and the end of a frame leaves a frame start. -/
theorem blockInv_exec_rxi {w : BitVec 9} {s t : State} (hs : BlockInv s) (h : exec (decode (.rxi w)) s = .next t) :
    BlockInv t := by
  obtain ⟨-, rfl⟩ | ⟨hopen, h⟩ := exec_rxi_cases (decode_format _) h
  · exact hs
  obtain ⟨b, hb, hroom, rfl⟩ | ⟨b, -, hroom, rfl⟩ | ⟨-, rfl⟩ | ⟨-, -, rfl⟩ | ⟨-, -, -, rfl⟩ := h
  · exact blockInv_appendByte (decode_rxi_data hb) hs hopen hroom
  · exact blockInv_setPoison hs hopen hroom
  · exact blockInv_of_frameStart rfl rfl
  · exact blockInv_of_frameStart rfl rfl
  · exact blockInv_of_frameStart rfl rfl

/-- The agents keep the block's invariants: only the RX agent and a reset write what they speak of. -/
theorem blockInv_kept : KeptByAgents BlockInv where
  ports _ _ _ _ hs := blockInv_congr hs rfl rfl rfl rfl
  rx := blockInv_exec_rxi
  cmd hs hi h := by
    obtain ⟨o, l, r, rfl⟩ := exec_cmd_withCommandFields hi h
    exact blockInv_congr hs rfl rfl rfl rfl
  reset _ _ _ := blockInv_of_frameStart rfl rfl
  host hs h :=
    have same := hostMove_sameBlock h
    blockInv_congr hs same.carry same.poison same.closed same.params

/-- Settles O51, by the cases of a step. -/
theorem stepKeepsBlockInvariants : Obligations.StepKeepsBlockInvariants :=
  fun _ _ hs h => blockInv_kept.of_step hs h

/-! ### The output traces and the operand buffer (R32, R181, R189) -/

/-- Empty traces, nothing taken and no command in progress. -/
theorem traceInv_of_empty {s : State} (hrxo : s.rxo = []) (hrspo : s.rspo = []) (htaken : s.host.taken = 0)
    (hrspTaken : s.host.rspTaken = 0) (hoperand : s.operand = []) (htooLong : s.tooLong = false) : TraceInv s := by
  constructor <;> simp [*]

/-- They speak of the command's fields, the events, the counts of what is taken, and the parameters. -/
theorem traceInv_congr {s t : State} (hs : TraceInv s) (same : SameCommand s t) (hrxo : t.rxo = s.rxo)
    (hhost : t.host = s.host) : TraceInv t where
  events := by rw [hrxo]; exact hs.events
  responses := by rw [same.rspo]; exact hs.responses
  takenBound := by rw [hhost, hrxo]; exact hs.takenBound
  rspTakenBound := by rw [hhost, same.rspo]; exact hs.rspTakenBound
  operandBound := by rw [same.params, same.operand]; exact hs.operandBound
  markedFull := by rw [same.tooLong, same.params, same.operand]; exact hs.markedFull

/-- The event of a frame without a zero is a message, `E_OVERRUN` or `E_OVERFLOW` (R181, R182). -/
theorem frameEvent_legal {f : List Byte} (hf : 0x00#8 ∉ f) (poisoned : Bool) : legalEvent (frameEvent f poisoned) = true := by
  obtain ⟨-, he⟩ | ⟨-, p, -, he⟩ | ⟨-, code, hd, he⟩ := frameEvent_cases f poisoned
  · rw [he]; rfl
  · rw [he]; rfl
  · rw [he, codecDecode_err_of_zero_free hf hd]; rfl

/-- One more legal event. -/
theorem traceInv_endFrame {s : State} (hblock : BlockInv s) (hs : TraceInv s) : TraceInv (endFrame s) where
  events e he := by
    rw [endFrame_rxo, List.mem_append, List.mem_singleton] at he
    obtain he | rfl := he
    · exact hs.events e he
    · exact frameEvent_legal hblock.noZero s.poison
  responses := hs.responses
  takenBound := by
    have := hs.takenBound
    simp only [endFrame_host, endFrame_rxo, List.length_append]
    omega
  rspTakenBound := hs.rspTakenBound
  operandBound := hs.operandBound
  markedFull := hs.markedFull

/-- The RX agent keeps them: it emits frames' events only. -/
theorem traceInv_exec_rxi {i : Instr} (hi : i.format = .rxi) {s t : State} (hblock : BlockInv s) (hs : TraceInv s)
    (h : exec i s = .next t) : TraceInv t := by
  obtain ⟨-, rfl⟩ | ⟨-, h⟩ := exec_rxi_cases hi h
  · exact hs
  obtain ⟨b, -, -, rfl⟩ | ⟨b, -, -, rfl⟩ | ⟨-, rfl⟩ | ⟨-, -, rfl⟩ | ⟨-, -, -, rfl⟩ := h
  · exact traceInv_congr hs ⟨rfl, rfl, rfl, rfl⟩ rfl rfl
  · exact traceInv_congr hs ⟨rfl, rfl, rfl, rfl⟩ rfl rfl
  · exact traceInv_endFrame hblock hs
  · exact traceInv_congr (traceInv_endFrame hblock hs) ⟨rfl, rfl, rfl, rfl⟩ rfl rfl
  · exact traceInv_congr hs ⟨rfl, rfl, rfl, rfl⟩ rfl rfl

/-- An operand byte is stored while there is room; with none the buffer is exactly full (R189). -/
theorem traceInv_collectByte (b : Byte) {s : State} (hs : TraceInv s) : TraceInv (collectByte b s) where
  events := by simpa using hs.events
  responses := by simpa using hs.responses
  takenBound := by simpa using hs.takenBound
  rspTakenBound := by simpa using hs.rspTakenBound
  operandBound k hk := by
    rw [collectByte_params] at hk
    have hle := hs.operandBound k hk
    rw [collectByte_operand, hk, roomFor_some]
    by_cases hroom : s.operand.length < k
    · simp [hroom]
    · simpa [hroom] using hle
  markedFull hm := by
    rw [collectByte_tooLong] at hm
    rw [collectByte_params, collectByte_operand]
    cases hroom : roomFor s.params.opCap s.operand.length with
    | true =>
      rw [hroom] at hm
      rw [hs.markedFull hm] at hroom
      simp at hroom
    | false =>
      obtain ⟨k, hk, hfull⟩ := roomFor_false hroom
      have hle := hs.operandBound k hk
      simp only [Bool.false_eq_true, if_false]
      rw [hk, Nat.le_antisymm hle hfull]

/-- One more legal response, and an empty operand (R65). -/
theorem traceInv_respond {r : Response} (hr : legalResponse r = true) {s : State} (hs : TraceInv s) :
    TraceInv (respond r s) where
  events := hs.events
  responses r' hr' := by
    rw [respond_rspo, List.mem_append, List.mem_singleton] at hr'
    obtain hr' | rfl := hr'
    · exact hs.responses r' hr'
    · exact hr
  takenBound := hs.takenBound
  rspTakenBound := by
    have := hs.rspTakenBound
    simp only [respond_host, respond_rspo, List.length_append]
    omega
  operandBound := by simp
  markedFull := by simp

/-- The command agent keeps them. -/
theorem traceInv_exec_cmd {i : Instr} (hi : i.format = .cmd) {s t : State} (hs : TraceInv s) (h : exec i s = .next t) :
    TraceInv t := by
  by_cases hbyte : ∃ b, i = .opbyte b
  · obtain ⟨b, rfl⟩ := hbyte
    rw [exec_opbyte] at h
    cases h
    exact traceInv_collectByte b hs
  · obtain ⟨r, hlegal, rfl⟩ := exec_cmd_responds hi (fun b hb => hbyte ⟨b, hb⟩) h
    exact traceInv_respond hlegal hs

/-- The host takes an event or a response only where there is one (R26, R65). -/
theorem hostEffect_counts {s t : State} (h : HostEffect s t) (hs : TraceInv s) :
    t.host.taken ≤ s.rxo.length ∧ t.host.rspTaken ≤ s.rspo.length := by
  have htaken := hs.takenBound
  have hrspTaken := hs.rspTakenBound
  cases h with
  | none => exact ⟨htaken, hrspTaken⟩
  | started => exact ⟨htaken, hrspTaken⟩
  | sizeOut => exact ⟨htaken, hrspTaken⟩
  | chunkOut => exact ⟨htaken, hrspTaken⟩
  | beat => exact ⟨htaken, hrspTaken⟩
  | ignored _ _ taken => exact ⟨(List.getElem?_eq_some_iff.1 taken).1, hrspTaken⟩
  | next _ _ taken => exact ⟨(List.getElem?_eq_some_iff.1 taken).1, hrspTaken⟩
  | finished _ _ taken => exact ⟨(List.getElem?_eq_some_iff.1 taken).1, hrspTaken⟩
  | built _ taken => exact ⟨htaken, (List.getElem?_eq_some_iff.1 taken).1⟩
  | answered _ taken => exact ⟨htaken, (List.getElem?_eq_some_iff.1 taken).1⟩

/-- The host keeps them: it writes none of the block's fields. -/
theorem traceInv_hostMove {x : HostMove} {s t : State} (hs : TraceInv s) (h : hostMove x s = .next t) : TraceInv t := by
  have same := hostMove_sameBlock h
  obtain ⟨htaken, hrspTaken⟩ := hostEffect_counts (hostMove_effect h) hs
  exact {
    events := by rw [same.rxo]; exact hs.events
    responses := by rw [same.rspo]; exact hs.responses
    takenBound := by rw [same.rxo]; exact htaken
    rspTakenBound := by rw [same.rspo]; exact hrspTaken
    operandBound := by rw [same.params, same.operand]; exact hs.operandBound
    markedFull := by rw [same.tooLong, same.params, same.operand]; exact hs.markedFull }

/-- The agents keep the block's and the traces' invariants together: an event is legal because the buffer holds no zero. -/
theorem traceInv_kept : KeptByAgents fun s => BlockInv s ∧ TraceInv s where
  ports rxIn cmdIn sched wire hs :=
    ⟨blockInv_kept.ports rxIn cmdIn sched wire hs.1, traceInv_congr hs.2 ⟨rfl, rfl, rfl, rfl⟩ rfl rfl⟩
  rx hs h := ⟨blockInv_kept.rx hs.1 h, traceInv_exec_rxi (decode_format _) hs.1 hs.2 h⟩
  cmd hs hi h := ⟨blockInv_kept.cmd hs.1 hi h, traceInv_exec_cmd hi hs.2 h⟩
  reset keepRx keepCmd hs := ⟨blockInv_kept.reset keepRx keepCmd hs.1, traceInv_of_empty rfl rfl rfl rfl rfl rfl⟩
  host hs h := ⟨blockInv_kept.host hs.1 h, traceInv_hostMove hs.2 h⟩

/-- Settles O52, by the cases of a step, with the block's invariants carried along. -/
theorem stepKeepsTraceInvariants : Obligations.StepKeepsTraceInvariants :=
  fun _ _ hblock hs h => (traceInv_kept.of_step ⟨hblock, hs⟩ h).2

/-! ### At reset (R34) -/

/-- An engine that is not calling waits for no response. -/
theorem callGives_of_notCalling {s : State} (h : notCalling s.host) (frame : List Byte) : CallGives s frame :=
  fun n hn => absurd hn (h n)

/-- The engine before a transfer, with no command outstanding (R150). -/
theorem transferInv_of_idle {s : State} (hst : s.host.st = .idle) (hoffset : s.host.offset = 0) (htxo : s.host.txo = [])
    (hcall : notCalling s.host) : TransferInv s := by
  rw [TransferInv, hst]
  exact ⟨hoffset, htxo, .inr hcall, callGives_of_notCalling hcall _⟩

/-- Settles O50: reset is a frame start with empty traces and an engine that is idle. -/
theorem invariantsHoldAtReset : Obligations.InvariantsHoldAtReset :=
  ⟨blockInv_of_frameStart rfl rfl, traceInv_of_empty rfl rfl rfl rfl rfl rfl, transferInv_of_idle rfl rfl rfl nofun, nofun, rfl⟩

end Sys2Proof.Machine
end

section
/-! PROOF. What a reset leaves (R34, R168, R210, R211). -/

namespace Sys2Proof.Machine

/-- Settles O8, field by field. -/
theorem resetLeavesEmptyBlock : Obligations.ResetLeavesEmptyBlock :=
  ⟨⟨rfl, rfl, rfl, rfl, rfl, rfl⟩, fun _ => ⟨rfl, rfl, rfl, rfl, rfl, rfl⟩⟩

/-- No command is begun and unfinished when none is in progress and nothing is offered, or when the last beat offered closes one (R64). -/
theorem commandOpen_eq_false {s : State}
    (h : (s.cmdIn = [] ∧ s.operand = [] ∧ s.tooLong = false) ∨ ∃ w, s.cmdIn.getLast? = some w ∧ closesCommand w = true) :
    commandOpen s = false := by
  obtain ⟨hcmdIn, hoperand, htooLong⟩ | ⟨w, hlast, hcloses⟩ := h
  · simp [commandOpen, hcmdIn, hoperand, htooLong]
  · simp [commandOpen, hlast, hcloses]

/-- After a reset the host's thread is free, unless it goes on offering a command without its closing beat (R168, log entry 25). -/
theorem hostFree_applyReset {keepRx keepCmd : Bool} {s : State}
    (h : keepCmd = false ∨ s.cmdIn = [] ∨ ∃ w, s.cmdIn.getLast? = some w ∧ closesCommand w = true) :
    hostFree (applyReset keepRx keepCmd s) = true := by
  have hnone : commandOpen (applyReset keepRx keepCmd s) = false := by
    apply commandOpen_eq_false
    cases keepCmd with
    | false => exact .inl ⟨rfl, rfl, rfl⟩
    | true =>
      obtain hempty | hcloses := h.resolve_left nofun
      · exact .inl ⟨hempty, rfl, rfl⟩
      · exact .inr hcloses
  simp [hostFree, hnone]

/-- Settles O9: the step is the reset of the state without its move. -/
theorem resetDiscardsWhatIsInFlight : Obligations.ResetDiscardsWhatIsInFlight := by
  intro s keepRx keepCmd ms hs
  refine ⟨applyReset keepRx keepCmd { s with sched := ms }, step_of_sched hs, rfl, rfl, rfl, rfl, rfl, rfl, rfl, rfl, rfl, rfl,
    rfl, ?_, rfl, rfl⟩
  exact hostFree_applyReset (s := { s with sched := ms })

end Sys2Proof.Machine
end

section
/-! PROOF. Tokens and beats one after another: the events of a stream (R35) and a command sent beat by beat (R64). -/

namespace Sys2Proof.Machine

/-- A list of operations runs its first and goes on from its next state. -/
theorem execAll_cons {i : Instr} {s t : State} (h : exec i s = .next t) (is : List Instr) :
    execAll (i :: is) s = execAll is t := by
  simp only [execAll, h, andThen]

/-- While open, a token other than `END` emits one event exactly when it is `DELIM` (R111, R112). -/
theorem exec_rxi_rxo_length {i : Instr} (hi : i.format = .rxi) (hne : i ≠ .endStream) {s t : State}
    (hopen : s.closed = false) (h : exec i s = .next t) :
    t.rxo.length = s.rxo.length + if i = .delim then 1 else 0 := by
  obtain ⟨hc, -⟩ | ⟨-, h⟩ := exec_rxi_cases hi h
  · exact absurd hc (by simp [hopen])
  obtain ⟨b, rfl, -, rfl⟩ | ⟨b, rfl, -, rfl⟩ | ⟨rfl, rfl⟩ | ⟨rfl, -, -⟩ | ⟨rfl, -, -, -⟩ := h
  · simp
  · simp
  · simp
  · exact absurd rfl hne
  · exact absurd rfl hne

/-- Tokens other than `END` leave the agent open and emit one event per `DELIM` (R35). -/
theorem execAll_rxo_length {ts : List Instr} (hts : ∀ i ∈ ts, i.format = .rxi) (hend : .endStream ∉ ts) {s t : State}
    (hopen : s.closed = false) (h : execAll ts s = .next t) :
    t.closed = false ∧ t.rxo.length = s.rxo.length + ts.count .delim := by
  induction ts generalizing s with
  | nil =>
    cases h
    exact ⟨hopen, rfl⟩
  | cons i is ih =>
    rw [List.forall_mem_cons] at hts
    rw [List.mem_cons, not_or] at hend
    obtain ⟨u, hu⟩ := exec_next i s
    rw [execAll_cons hu] at h
    have hlength := exec_rxi_rxo_length hts.1 (Ne.symm hend.1) hopen hu
    have huopen : u.closed = false := (exec_rxi_closed_eq hts.1 (Ne.symm hend.1) hu).trans hopen
    obtain ⟨htopen, hcount⟩ := ih hts.2 hend.2 huopen h
    refine ⟨htopen, ?_⟩
    rw [hcount, hlength, List.count_cons]
    simp only [beq_iff_eq]
    omega

/-- `END` emits one event exactly when a frame is unfinished (R113). -/
theorem exec_endStream_rxo_length {s t : State} (hopen : s.closed = false) (h : exec .endStream s = .next t) :
    t.rxo.length = s.rxo.length + if s.carry ≠ [] ∨ s.poison = true then 1 else 0 := by
  rw [exec_endStream hopen] at h
  cases h
  by_cases hp : s.poison = true ∨ s.carry ≠ []
  · simp [hp, hp.symm]
  · simp [hp, or_comm.not.1 hp]

/-- Settles O24, by induction on the tokens. -/
theorem eventsCountDelimiters : Obligations.EventsCountDelimiters := by
  intro ts s t hts hend hopen h
  obtain ⟨htopen, hcount⟩ := execAll_rxo_length hts hend hopen h
  refine ⟨hcount, ?_⟩
  obtain ⟨u, hu⟩ := exec_next .endStream t
  exact ⟨u, hu, by rw [exec_endStream_rxo_length htopen hu, hcount]⟩

/-- The state with an operand collected: the bytes that fit `OP_CAP`, and the mark when there were more (R189). -/
def withCollected (operand : List Byte) (s : State) : State :=
  { s with operand := pieceKept s.params.opCap operand, tooLong := operandTooLong s.params operand }

theorem operandTooLong_none {p : Params} (h : p.opCap = none) (operand : List Byte) : operandTooLong p operand = false := by
  simp [operandTooLong, h]

theorem operandTooLong_some {p : Params} {k : Nat} (h : p.opCap = some k) (operand : List Byte) :
    operandTooLong p operand = decide (k < operand.length) := by
  simp [operandTooLong, h]

/-- Nothing collected yet is a state with no command in progress. -/
theorem withCollected_nil {s : State} (hoperand : s.operand = []) (htooLong : s.tooLong = false) : withCollected [] s = s := by
  have hkept : pieceKept s.params.opCap [] = s.operand := by
    rw [hoperand]
    cases s.params.opCap with
    | none => rfl
    | some k => exact List.take_nil
  have hmark : operandTooLong s.params [] = s.tooLong := by
    rw [htooLong]
    cases hcap : s.params.opCap with
    | none => exact operandTooLong_none hcap _
    | some k => simp [operandTooLong_some hcap]
  rw [withCollected, hkept, hmark]

/-- One more byte arrives (R189). -/
theorem collectByte_withCollected (b : Byte) (operand : List Byte) (s : State) :
    collectByte b (withCollected operand s) = withCollected (operand ++ [b]) s := by
  cases hcap : s.params.opCap with
  | none => simp [collectByte, withCollected, hcap, operandTooLong_none hcap, pieceKept]
  | some k =>
    by_cases hroom : operand.length < k
    · have hkept : (operand ++ [b]).take k = operand.take k ++ [b] := by
        rw [List.take_of_length_le (by simpa using hroom), List.take_of_length_le hroom.le]
      have hfits : ¬ k < operand.length + 1 := by omega
      simp [collectByte, withCollected, hcap, operandTooLong_some hcap, pieceKept, hkept, hroom, hfits, hroom.le]
    · have hkept : (operand ++ [b]).take k = operand.take k := List.take_append_of_le_length (by omega)
      have hlong : k < operand.length + 1 := by omega
      simp [collectByte, withCollected, hcap, operandTooLong_some hcap, pieceKept, hkept, hroom, hlong]

/-- The operand's beats collect it (R64). -/
theorem execAll_opbytes (bs operand : List Byte) (rest : List Instr) (s : State) :
    execAll (bs.map .opbyte ++ rest) (withCollected operand s) = execAll rest (withCollected (operand ++ bs) s) := by
  induction bs generalizing operand with
  | nil => simp
  | cons b bs ih =>
    rw [List.map_cons, List.cons_append, execAll_cons (exec_opbyte b _), collectByte_withCollected, ih, List.append_assoc]
    rfl

/-- An operand that is not too long is kept whole (R189). -/
theorem pieceKept_of_fits {p : Params} {operand : List Byte} (h : operandTooLong p operand = false) :
    pieceKept p.opCap operand = operand := by
  cases hcap : p.opCap with
  | none => rfl
  | some k =>
    rw [operandTooLong_some hcap, decide_eq_false_iff_not, Nat.not_lt] at h
    exact List.take_of_length_le h

/-- A collected command answers as the pair of its operation and its operand (R32, R189). -/
theorem closeCommand_withCollected (op : CmdOp) (operand : List Byte) (s : State) :
    closeCommand (answerOf s.params.tail01 op) (withCollected operand s) =
      respond (command s.params op operand) (withCollected operand s) := by
  cases hlong : operandTooLong s.params operand with
  | true => simp [closeCommand, withCollected, command, hlong]
  | false => simp [closeCommand, withCollected, command, hlong, pieceKept_of_fits hlong]

/-- The response ends the command: nothing of what was collected is left (R32). -/
theorem respond_withCollected (r : Response) (operand : List Byte) {s : State} (hoperand : s.operand = [])
    (htooLong : s.tooLong = false) : respond r (withCollected operand s) = { s with rspo := s.rspo ++ [r] } := by
  simp [respond, withCollected, hoperand, htooLong]

/-- Settles O37: the beats collect the operand, and the GO beat answers for it. -/
theorem commandBeatsMakeOneCommand : Obligations.CommandBeatsMakeOneCommand := by
  intro op operand s hoperand htooLong
  refine ⟨?_, fun k hk hlong => by simp [command, operandTooLong, hk, hlong, failure]⟩
  calc sendCommand op operand s
      _ = execAll (operand.map .opbyte ++ [opInstr op]) (withCollected [] s) := by
        rw [withCollected_nil hoperand htooLong]; rfl
      _ = execAll [opInstr op] (withCollected operand s) := execAll_opbytes operand [] _ s
      _ = .next (closeCommand (answerOf s.params.tail01 op) (withCollected operand s)) := execAll_cons (exec_opInstr op _) []
      _ = .next { s with rspo := s.rspo ++ [command s.params op operand] } := by
        rw [closeCommand_withCollected, respond_withCollected _ _ hoperand htooLong]

end Sys2Proof.Machine
end

section
/-! PROOF. Beats offered and then handled: the moves of a trace line do what its tokens do (R48, R60, R76, R77). -/

namespace Sys2Proof.Machine

/-- Steps that go on to a next state are followed by the rest of the steps. -/
theorem runSteps_add {m : Nat} {s t : State} (h : runSteps m s = .next t) (n : Nat) :
    runSteps (m + n) s = runSteps n t := by
  induction m generalizing s with
  | zero =>
    cases h
    rw [Nat.zero_add]
  | succ m ih =>
    rw [Nat.succ_add]
    simp only [runSteps] at h ⊢
    cases hstep : step s with
    | next u =>
      rw [hstep] at h
      exact ih h
    | fault r => rw [hstep] at h; cases h
    | refused r => rw [hstep] at h; cases h

/-- The first of some steps. -/
theorem runSteps_succ {s t : State} (h : step s = .next t) (n : Nat) : runSteps (n + 1) s = runSteps n t := by
  simp only [runSteps, h, andThen]

/-- The last step of a run is its outcome, whatever that is. -/
theorem runSteps_one (s : State) : runSteps 1 s = step s := by
  simp only [runSteps]
  cases step s <;> rfl

/-! ### What no agent's own operation reads or writes: the beats offered, and the schedule (R15, R60) -/

/-- The state with other beats offered and other moves to come. -/
def withPorts (rxIn : List (BitVec 9)) (cmdIn : List (BitVec 10)) (sched : List Move) (s : State) : State :=
  { s with rxIn := rxIn, cmdIn := cmdIn, sched := sched }

section
variable (rxIn rxIn' : List (BitVec 9)) (cmdIn cmdIn' : List (BitVec 10)) (sched sched' : List Move) (s : State)

@[simp] theorem withPorts_rxIn : (withPorts rxIn cmdIn sched s).rxIn = rxIn := rfl
@[simp] theorem withPorts_cmdIn : (withPorts rxIn cmdIn sched s).cmdIn = cmdIn := rfl
@[simp] theorem withPorts_sched : (withPorts rxIn cmdIn sched s).sched = sched := rfl
@[simp] theorem withPorts_closed : (withPorts rxIn cmdIn sched s).closed = s.closed := rfl
@[simp] theorem withPorts_params : (withPorts rxIn cmdIn sched s).params = s.params := rfl

@[simp] theorem withPorts_withPorts : withPorts rxIn cmdIn sched (withPorts rxIn' cmdIn' sched' s) = withPorts rxIn cmdIn sched s :=
  rfl

end

/-- A state with its own beats and moves. -/
theorem withPorts_self {rxIn : List (BitVec 9)} {cmdIn : List (BitVec 10)} {sched : List Move} {s : State} (hrx : s.rxIn = rxIn)
    (hcmd : s.cmdIn = cmdIn) (hs : s.sched = sched) : withPorts rxIn cmdIn sched s = s := by
  subst hrx hcmd hs
  rfl

/-- A state with other moves to come only. -/
theorem withSched_eq_withPorts {rxIn : List (BitVec 9)} {cmdIn : List (BitVec 10)} {s : State} (hrx : s.rxIn = rxIn)
    (hcmd : s.cmdIn = cmdIn) (ms : List Move) : { s with sched := ms } = withPorts rxIn cmdIn ms s := by
  subst hrx hcmd
  rfl

/-- A beat on `cmd_in` is handled the same whatever else is offered. -/
theorem afterBeat_withPorts (rxIn : List (BitVec 9)) (cmdIn : List (BitVec 10)) (sched : List Move) (s : State) (w : BitVec 10) :
    afterBeat (withPorts rxIn cmdIn sched s) w = withPorts rxIn cmdIn sched (afterBeat s w) := by
  obtain ⟨o, l, r, hfields⟩ := exec_cmd_congr (decode_format (.cmd w)) s
  simp only [afterBeat, hfields s ⟨rfl, rfl, rfl, rfl⟩, hfields (withPorts rxIn cmdIn sched s) ⟨rfl, rfl, rfl, rfl⟩]
  rfl

/-- So are beats one after another. -/
theorem foldl_afterBeat_withPorts (rxIn : List (BitVec 9)) (cmdIn : List (BitVec 10)) (sched : List Move) (s : State)
    (ws : List (BitVec 10)) :
    ws.foldl afterBeat (withPorts rxIn cmdIn sched s) = withPorts rxIn cmdIn sched (ws.foldl afterBeat s) :=
  List.foldl_hom _ (afterBeat_withPorts rxIn cmdIn sched)

/-! ### Received bytes (R111, R112, R115) -/

/-- The state after a received byte while open: a delimiter ends the frame, any other byte is stored or dropped. -/
def afterPush (s : State) (b : Byte) : State :=
  if b = delimByte then endFrame s else if roomFor s.params.bufCap s.carry.length then appendByte b s else setPoison s

/-- A byte ends the frame, is stored, or is dropped. -/
theorem afterPush_cases (s : State) (b : Byte) :
    afterPush s b = endFrame s ∨ afterPush s b = appendByte b s ∨ afterPush s b = setPoison s := by
  unfold afterPush
  split
  · exact .inl rfl
  · split
    · exact .inr (.inl rfl)
    · exact .inr (.inr rfl)

@[simp] theorem afterPush_closed (s : State) (b : Byte) : (afterPush s b).closed = s.closed := by
  obtain h | h | h := afterPush_cases s b <;> rw [h] <;> rfl
@[simp] theorem afterPush_params (s : State) (b : Byte) : (afterPush s b).params = s.params := by
  obtain h | h | h := afterPush_cases s b <;> rw [h] <;> rfl

/-- A byte is handled the same whatever else is offered. -/
theorem afterPush_withPorts (rxIn : List (BitVec 9)) (cmdIn : List (BitVec 10)) (sched : List Move) (s : State) (b : Byte) :
    afterPush (withPorts rxIn cmdIn sched s) b = withPorts rxIn cmdIn sched (afterPush s b) := by
  simp only [afterPush, apply_ite (withPorts rxIn cmdIn sched)]
  rfl

/-- So are bytes one after another. -/
theorem foldl_afterPush_withPorts (rxIn : List (BitVec 9)) (cmdIn : List (BitVec 10)) (sched : List Move) (s : State)
    (bytes : List Byte) :
    bytes.foldl afterPush (withPorts rxIn cmdIn sched s) = withPorts rxIn cmdIn sched (bytes.foldl afterPush s) :=
  List.foldl_hom _ (afterPush_withPorts rxIn cmdIn sched)

/-- Received bytes do not close the agent (R25). -/
@[simp] theorem foldl_afterPush_closed (bytes : List Byte) (s : State) : (bytes.foldl afterPush s).closed = s.closed := by
  induction bytes generalizing s with
  | nil => rfl
  | cons b bytes ih => rw [List.foldl_cons, ih, afterPush_closed]

@[simp] theorem foldl_afterPush_params (bytes : List Byte) (s : State) : (bytes.foldl afterPush s).params = s.params := by
  induction bytes generalizing s with
  | nil => rfl
  | cons b bytes ih => rw [List.foldl_cons, ih, afterPush_params]

/-- A delivery while open is its bytes one after another (R115). -/
theorem deliver_open (bytes : List Byte) {s : State} (hopen : s.closed = false) :
    deliver bytes s = .next (bytes.foldl afterPush s) := by
  induction bytes generalizing s with
  | nil => rfl
  | cons b bytes ih =>
    have hpush : exec (pushInstr b) s = .next (afterPush s b) := exec_push hopen
    rw [deliver, List.map_cons, execAll_cons hpush]
    exact ih (by rw [afterPush_closed, hopen])

/-- The beat of a received byte is its token (R61, R77). -/
theorem decode_pushBeat (b : Byte) : decode (.rxi (pushBeat b)) = pushInstr b := by
  rw [decode, decodeRxi, pushBeat, rxiEnd_rxiBeat, rxiData_rxiBeat]
  rfl

/-! ### The moves of the port `rx_in` -/

/-- While open and with no bound on held events `rx_in.ready` is 1 (R114, R226). -/
theorem rxReady_of_unbounded {s : State} (hopen : s.closed = false) (hev : s.params.evCap = none) : rxReady s = true :=
  rxReady_of_room hopen (by simp [hev])

/-- A beat offered is added behind those already offered (R60). -/
theorem step_offerRx {s : State} {w : BitVec 9} {ms : List Move} (hs : s.sched = .offerRx w :: ms) :
    step s = .next (withPorts (s.rxIn ++ [w]) s.cmdIn ms s) := by
  rw [step_of_sched hs]
  rfl

/-- Beats offered one after another. -/
theorem runSteps_offerRx (ws : List (BitVec 9)) {s : State} {ms : List Move} (hs : s.sched = ws.map .offerRx ++ ms) :
    runSteps ws.length s = .next (withPorts (s.rxIn ++ ws) s.cmdIn ms s) := by
  induction ws generalizing s with
  | nil => exact congrArg _ (withPorts_self (List.append_nil _).symm rfl hs).symm
  | cons w ws ih =>
    rw [List.length_cons, runSteps_succ (step_offerRx hs), ih rfl]
    simp

/-- A move of the RX agent handles the oldest beat offered. -/
theorem step_rx {s : State} {w : BitVec 9} {ws : List (BitVec 9)} {ms : List Move} (hs : s.sched = .rx :: ms)
    (hw : s.rxIn = w :: ws) (hopen : s.closed = false) (hev : s.params.evCap = none) :
    step s = exec (decode (.rxi w)) (withPorts ws s.cmdIn ms s) := by
  rw [step_of_sched hs]
  exact rxAgent_ready (s := { s with sched := ms }) hw (rxReady_of_unbounded hopen hev)

/-- As many moves of the RX agent as bytes are offered handle them in order. -/
theorem runSteps_rx (bytes : List Byte) {s : State} {ms : List Move} (hs : s.sched = List.replicate bytes.length .rx ++ ms)
    (hrx : s.rxIn = bytes.map pushBeat) (hopen : s.closed = false) (hev : s.params.evCap = none) :
    runSteps bytes.length s = .next (withPorts [] s.cmdIn ms (bytes.foldl afterPush s)) := by
  induction bytes generalizing s with
  | nil => exact congrArg _ (withPorts_self hrx rfl hs).symm
  | cons b bytes ih =>
    have hstep : step s = .next (withPorts (bytes.map pushBeat) s.cmdIn (List.replicate bytes.length .rx ++ ms) (afterPush s b)) := by
      rw [step_rx hs hrx hopen hev, decode_pushBeat, ← afterPush_withPorts]
      exact exec_push hopen
    rw [List.length_cons, runSteps_succ hstep, ih rfl rfl (by simpa using hopen) (by simpa using hev),
      foldl_afterPush_withPorts]
    simp

/-- A delivery offered as a whole and then handled (R53). -/
theorem runSteps_deliveryMoves (bytes : List Byte) {s : State} {ms : List Move} (hs : s.sched = deliveryMoves bytes ++ ms)
    (hrx : s.rxIn = []) (hopen : s.closed = false) (hev : s.params.evCap = none) :
    runSteps (2 * bytes.length) s = .next (withPorts [] s.cmdIn ms (bytes.foldl afterPush s)) := by
  have hoffers : s.sched = (bytes.map pushBeat).map .offerRx ++ (List.replicate bytes.length .rx ++ ms) := by
    simp [hs, deliveryMoves]
  have hoffered := runSteps_offerRx _ hoffers
  rw [List.length_map, hrx, List.nil_append] at hoffered
  have hhandled := runSteps_rx bytes (s := withPorts (bytes.map pushBeat) s.cmdIn (List.replicate bytes.length .rx ++ ms) s)
    rfl rfl hopen hev
  rw [foldl_afterPush_withPorts] at hhandled
  rw [Nat.two_mul, runSteps_add hoffered]
  exact hhandled

/-- Deliveries offered and handled one after another handle their bytes in order. -/
theorem runSteps_deliveries (ds : List (List Byte)) {s : State} {ms : List Move}
    (hs : s.sched = ds.flatMap deliveryMoves ++ ms) (hrx : s.rxIn = []) (hopen : s.closed = false)
    (hev : s.params.evCap = none) :
    runSteps (2 * ds.flatten.length) s = .next (withPorts [] s.cmdIn ms (ds.flatten.foldl afterPush s)) := by
  induction ds generalizing s with
  | nil => exact congrArg _ (withPorts_self hrx rfl hs).symm
  | cons d ds ih =>
    have hfirst := runSteps_deliveryMoves d (ms := ds.flatMap deliveryMoves ++ ms) (by simp [hs]) hrx hopen hev
    rw [List.flatten_cons, List.length_append, Nat.mul_add, runSteps_add hfirst,
      ih rfl rfl (by simpa using hopen) (by simpa using hev), foldl_afterPush_withPorts, List.foldl_append]
    simp

/-- A delivery line is its bytes delivered one by one (R76). -/
theorem lineMoves_rx (bytes : List Byte) : lineMoves (.rx bytes) = (bytes.map ([·])).flatMap deliveryMoves := by
  rw [List.flatMap_map]
  rfl

/-- The moves of a delivery line, or of a delivery offered whole, give what the delivery gives (R76, R115). -/
theorem runSteps_deliver {bytes : List Byte} {s : State} {ms : List Move} (hrx : s.rxIn = []) (hopen : s.closed = false)
    (hev : s.params.evCap = none) (hs : s.sched = lineMoves (.rx bytes) ++ ms ∨ s.sched = deliveryMoves bytes ++ ms) :
    runSteps (2 * bytes.length) s = deliver bytes { s with sched := ms } := by
  have hrun : runSteps (2 * bytes.length) s = .next (withPorts [] s.cmdIn ms (bytes.foldl afterPush s)) := by
    obtain hs | hs := hs
    · have hbytes : (bytes.map ([·])).flatten = bytes := by rw [← List.flatMap_def, List.flatMap_singleton']
      rw [lineMoves_rx] at hs
      have hline := runSteps_deliveries _ hs hrx hopen hev
      rwa [hbytes] at hline
    · exact runSteps_deliveryMoves bytes hs hrx hopen hev
  rw [hrun, withSched_eq_withPorts hrx rfl, deliver_open bytes (by exact hopen), foldl_afterPush_withPorts]

/-- A beat offered on `rx_in` and handled runs what it decodes to (R60). -/
theorem runSteps_rxMoves (w : BitVec 9) {s : State} {ms : List Move} (hs : s.sched = rxMoves w ++ ms) (hrx : s.rxIn = [])
    (hopen : s.closed = false) (hev : s.params.evCap = none) :
    runSteps 2 s = exec (decode (.rxi w)) { s with sched := ms } := by
  rw [withSched_eq_withPorts hrx rfl, runSteps_succ (step_offerRx hs), hrx, runSteps_one]
  exact step_rx rfl rfl hopen hev

/-! ### The moves of the port `cmd_in` -/

/-- Beats of the command port one after another. -/
theorem execAll_cmdBeats (ws : List (BitVec 10)) (s : State) :
    execAll (ws.map fun w => decode (.cmd w)) s = .next (ws.foldl afterBeat s) := by
  induction ws generalizing s with
  | nil => rfl
  | cons w ws ih =>
    rw [List.map_cons, execAll_cons (exec_cmd_afterBeat w s), ih]
    rfl

/-- A beat offered is added behind those already offered (R60). -/
theorem step_offerCmd {s : State} {w : BitVec 10} {ms : List Move} (hs : s.sched = .offerCmd w :: ms) :
    step s = .next (withPorts s.rxIn (s.cmdIn ++ [w]) ms s) := by
  rw [step_of_sched hs]
  rfl

/-- A move of the command agent handles the oldest beat offered. -/
theorem step_cmd {s : State} {w : BitVec 10} {ws : List (BitVec 10)} {ms : List Move} (hs : s.sched = .cmd :: ms)
    (hw : s.cmdIn = w :: ws) : step s = .next (withPorts s.rxIn ws ms (afterBeat s w)) := by
  rw [step_of_sched hs, ← afterBeat_withPorts, ← exec_cmd_afterBeat]
  exact cmdAgent_offered (s := { s with sched := ms }) hw

/-- Beats offered on `cmd_in`, each handled before the next. -/
theorem runSteps_cmdMoves (ws : List (BitVec 10)) {s : State} {ms : List Move} (hs : s.sched = ws.flatMap cmdMoves ++ ms)
    (hcmd : s.cmdIn = []) : runSteps (2 * ws.length) s = .next (withPorts s.rxIn [] ms (ws.foldl afterBeat s)) := by
  induction ws generalizing s with
  | nil => exact congrArg _ (withPorts_self rfl hcmd hs).symm
  | cons w ws ih =>
    have hfirst : runSteps 2 s = .next (withPorts s.rxIn [] (ws.flatMap cmdMoves ++ ms) (afterBeat s w)) := by
      have hhandled := step_cmd (s := withPorts s.rxIn [w] (.cmd :: (ws.flatMap cmdMoves ++ ms)) s) rfl rfl
      rw [afterBeat_withPorts] at hhandled
      rw [runSteps_succ (step_offerCmd hs), hcmd, runSteps_one]
      exact hhandled
    rw [List.length_cons, Nat.mul_succ, Nat.add_comm, runSteps_add hfirst, ih rfl rfl, foldl_afterBeat_withPorts]
    rfl

/-- The moves of a command's beats give what its operations give one after another (R64, R76). -/
theorem runSteps_execAll {ws : List (BitVec 10)} {is : List Instr} (hdecode : ws.map (fun w => decode (.cmd w)) = is) {s : State}
    {ms : List Move} (hcmd : s.cmdIn = []) (hs : s.sched = ws.flatMap cmdMoves ++ ms) :
    runSteps (2 * ws.length) s = execAll is { s with sched := ms } := by
  rw [runSteps_cmdMoves ws hs hcmd, ← hdecode, execAll_cmdBeats, withSched_eq_withPorts rfl hcmd, foldl_afterBeat_withPorts]

/-- An operand's beats decode to its bytes (R64). -/
theorem map_decode_operandBeats (operand : List Byte) :
    (operandBeats operand).map (fun w => decode (.cmd w)) = operand.map .opbyte := by
  simp [operandBeats, decode, decodeCmd, cmdTag_cmdBeat, cmdData_cmdBeat]

/-- A GO beat decodes to the operation that its data field names (R64). -/
theorem decode_goBeat (data : Byte) : decode (.cmd (cmdBeat 1#2 data)) = decodeGo data := by
  simp [decode, decodeCmd, cmdTag_cmdBeat, cmdData_cmdBeat]

/-- A command's beats decode to its operations (R64). -/
theorem map_decode_commandBeats (op : CmdOp) (operand : List Byte) :
    (commandBeats op operand).map (fun w => decode (.cmd w)) = commandInstrs op operand := by
  have hgo : decodeGo (opCode op) = opInstr op := by cases op <;> rfl
  simp [commandBeats, commandInstrs, map_decode_operandBeats, decode_goBeat, hgo]

/-- Settles O13: offers go to the end of a port, and the moves of a line handle its beats as the tokens they decode to. -/
theorem traceLinesAreTokens : Obligations.TraceLinesAreTokens := by
  intro s ms
  refine ⟨fun w hs => step_offerRx hs, fun w hs => step_offerCmd hs,
    fun bytes hrx hopen hev hs => runSteps_deliver hrx hopen hev hs, fun hrx hopen hev hs => ?_,
    fun op operand hcmd hs => ?_, fun operand hcmd hs => ?_, fun hs => ⟨applyReset true true { s with sched := ms }, ?_⟩⟩
  · have hend : decode (.rxi (rxiBeat 1#1 0x00#8)) = .endStream := rfl
    rw [← hend]
    exact runSteps_rxMoves _ hs hrx hopen hev
  · have hlength : (commandBeats op operand).length = operand.length + 1 := by simp [commandBeats, operandBeats]
    rw [← hlength]
    exact runSteps_execAll (map_decode_commandBeats op operand) hcmd hs
  · have hlength : (operandBeats operand ++ [cmdBeat 1#2 0x07#8]).length = operand.length + 1 := by simp [operandBeats]
    have hdecode : (operandBeats operand ++ [cmdBeat 1#2 0x07#8]).map (fun w => decode (.cmd w)) =
        operand.map .opbyte ++ [.op7] := by
      rw [List.map_append, map_decode_operandBeats, List.map_singleton, decode_goBeat]
      rfl
    rw [← hlength]
    exact runSteps_execAll hdecode hcmd hs
  · exact ⟨step_of_sched hs, rfl, rfl, rfl, rfl, rfl, rfl⟩

end Sys2Proof.Machine
end

section
/-! PROOF. The document's splitter and the bytes one at a time, and how a byte sequence is cut into deliveries (R53, R113, R115, R117). -/

namespace Sys2Proof.Machine

/-- What the document's splitter starts a delivery from: an unbounded buffer, no dropped byte, and no delimiter in the buffer (R115). -/
structure DocumentReady (s : State) : Prop where
  unbounded : s.params.bufCap = none
  clean : s.poison = false
  noZero : 0x00#8 ∉ s.carry

/-- A delimiter ends the frame (R112). -/
theorem afterPush_delim (s : State) : afterPush s 0x00#8 = endFrame s := if_pos rfl

/-- With an unbounded buffer every other byte is stored (R111). -/
theorem afterPush_data {b : Byte} (hb : b ≠ 0x00#8) {s : State} (hcap : s.params.bufCap = none) :
    afterPush s b = appendByte b s := by
  rw [afterPush, if_neg (by exact hb), hcap, roomFor_none, if_pos rfl]

/-- The end of a frame leaves an empty buffer. -/
theorem documentReady_endFrame {s : State} (hs : DocumentReady s) : DocumentReady (endFrame s) where
  unbounded := hs.unbounded
  clean := rfl
  noZero := by simp

/-- A byte that is no delimiter joins the buffer. -/
theorem documentReady_appendByte {b : Byte} (hb : b ≠ 0x00#8) {s : State} (hs : DocumentReady s) :
    DocumentReady (appendByte b s) where
  unbounded := hs.unbounded
  clean := hs.clean
  noZero := by simpa using ⟨hs.noZero, hb.symm⟩

/-- So every byte leaves what the next delivery starts from. -/
theorem documentReady_afterPush (b : Byte) {s : State} (hs : DocumentReady s) : DocumentReady (afterPush s b) := by
  by_cases hb : b = 0x00#8
  · rw [hb, afterPush_delim]
    exact documentReady_endFrame hs
  · rw [afterPush_data hb hs.unbounded]
    exact documentReady_appendByte hb hs

theorem documentReady_foldl (bytes : List Byte) {s : State} (hs : DocumentReady s) :
    DocumentReady (bytes.foldl afterPush s) := by
  induction bytes generalizing s with
  | nil => exact hs
  | cons b bytes ih => exact ih (documentReady_afterPush b hs)

/-- No delimiter is found where there is none. -/
theorem findIdx?_zero_free {g : List Byte} (hg : 0x00#8 ∉ g) : g.findIdx? (· == 0x00#8) = none := by
  rw [List.findIdx?_eq_none_iff]
  intro b hb
  simpa using fun hzero : b = 0x00#8 => hg (hzero ▸ hb)

/-- The document's loop ends when the buffer holds no delimiter (R115). -/
theorem documentLoop_of_zero_free {s : State} (h : 0x00#8 ∉ s.carry) (n : Nat) : documentLoop n s = s := by
  cases n with
  | zero => rfl
  | succ n => simp only [documentLoop, findIdx?_zero_free h]

/-- One round of it takes the frame before the first delimiter (R115). -/
theorem documentLoop_cut {g rest : List Byte} (hg : 0x00#8 ∉ g) {s : State} (hcarry : s.carry = g ++ 0x00#8 :: rest) (n : Nat) :
    documentLoop (n + 1) s = documentLoop n (emit (eventOf (codecDecode g)) { s with carry := rest }) := by
  have hfound : s.carry.findIdx? (· == 0x00#8) = some g.length := by
    simp [hcarry, List.findIdx?_append, findIdx?_zero_free hg, List.findIdx?_cons]
  have hframe : slice s.carry 0 g.length = g := by simp [slice, hcarry]
  have hrest : slice s.carry (g.length + 1) s.carry.length = rest := by
    rw [slice, List.take_of_length_le (by simp), hcarry, List.drop_append]
    simp
  simp only [documentLoop, hfound, hframe, hrest]

/-- The document's loop over a buffer with more bytes behind it is those bytes one at a time: each delimiter is one round. -/
theorem documentLoop_eq_foldl (bytes : List Byte) {s : State} (hs : DocumentReady s) {n : Nat} (hn : bytes.length ≤ n) :
    documentLoop n { s with carry := s.carry ++ bytes } = bytes.foldl afterPush s := by
  induction bytes generalizing s n with
  | nil =>
    have hsame : { s with carry := s.carry ++ [] } = s := by rw [List.append_nil]
    rw [hsame]
    exact documentLoop_of_zero_free hs.noZero n
  | cons b bytes ih =>
    rw [List.foldl_cons]
    by_cases hb : b = 0x00#8
    · subst hb
      obtain ⟨n, rfl⟩ : ∃ m, n = m + 1 := ⟨n - 1, by simp at hn; omega⟩
      have hround : emit (eventOf (codecDecode s.carry)) { s with carry := bytes } =
          { endFrame s with carry := (endFrame s).carry ++ bytes } := by
        simp [endFrame, frameEvent, emit, cutFrame, clearPoison, hs.clean]
      rw [documentLoop_cut hs.noZero rfl, afterPush_delim, ← ih (documentReady_endFrame hs) (by simpa using hn), ← hround]
    · have hstored : { s with carry := s.carry ++ b :: bytes } =
          { appendByte b s with carry := (appendByte b s).carry ++ bytes } := by simp [appendByte]
      rw [hstored, afterPush_data hb hs.unbounded]
      exact ih (documentReady_appendByte hb hs) (Nat.le_of_succ_le hn)

/-- The document's splitter called on a delivery is its bytes one at a time (R115). -/
theorem documentDeliver_eq_foldl (bytes : List Byte) {s : State} (hs : DocumentReady s) :
    documentDeliver bytes s = bytes.foldl afterPush s :=
  documentLoop_eq_foldl bytes hs (by simp)

/-- Called once per delivery it is all their bytes one at a time, so the cut makes no difference (R117). -/
theorem documentDeliverAll_eq_foldl (ds : List (List Byte)) {s : State} (hs : DocumentReady s) :
    documentDeliverAll ds s = ds.flatten.foldl afterPush s := by
  induction ds generalizing s with
  | nil => rfl
  | cons d ds ih =>
    calc documentDeliverAll (d :: ds) s
        _ = documentDeliverAll ds (d.foldl afterPush s) := by rw [← documentDeliver_eq_foldl d hs]; rfl
        _ = ds.flatten.foldl afterPush (d.foldl afterPush s) := ih (documentReady_foldl d hs)
        _ = (d :: ds).flatten.foldl afterPush s := by rw [List.flatten_cons, List.foldl_append]

/-- `END` on a frame with no dropped byte is the document's stream end (R113). -/
theorem exec_endStream_eq_documentEnd {s : State} (hopen : s.closed = false) (hclean : s.poison = false) :
    exec .endStream s = .next (documentEnd s) := by
  rw [exec_endStream hopen]
  by_cases hcarry : s.carry = []
  · simp [documentEnd, hcarry, hclean, setClosed, cutFrame, clearPoison]
  · simp [documentEnd, hcarry, hclean, setClosed, endFrame, frameEvent, emit, cutFrame, clearPoison]

/-- Settles O21: both ways of handling deliveries handle the bytes of all of them one at a time. -/
theorem splitInvariance : Obligations.SplitInvariance := by
  refine ⟨fun s ds hcap hopen hclean hzero => ?_, fun s ds ds' ms hsame hrx hopen hev => ?_⟩
  · have hs : DocumentReady s := ⟨hcap, hclean, hzero⟩
    have hbytes : deliver ds.flatten s = .next (documentDeliverAll ds s) := by
      rw [deliver_open _ hopen, documentDeliverAll_eq_foldl ds hs]
    refine ⟨hbytes, ?_, fun ds' hsame => ?_⟩
    · rw [hbytes, documentDeliverAll_eq_foldl ds hs]
      exact exec_endStream_eq_documentEnd (by simpa using hopen) (documentReady_foldl _ hs).clean
    · rw [documentDeliverAll_eq_foldl ds' hs, documentDeliverAll_eq_foldl ds hs, hsame]
  · have hrun (es : List (List Byte)) : runSteps (2 * es.flatten.length) { s with sched := es.flatMap deliveryMoves ++ ms } =
        .next (withPorts [] s.cmdIn ms (es.flatten.foldl afterPush s)) := by
      have h := runSteps_deliveries es (s := withPorts s.rxIn s.cmdIn (es.flatMap deliveryMoves ++ ms) s) rfl hrx hopen hev
      rwa [foldl_afterPush_withPorts] at h
    rw [← hsame, hrun ds', hsame, ← hrun ds]

end Sys2Proof.Machine
end

section
/-! PROOF. Commands are answered in the order in which they are offered, the engine's own among them (R48, R60, R65). -/

namespace Sys2Proof.Machine

/-! ### What every step but a reset does to the order -/

/-- The responses stay, and so do those that the beats offered will produce: more may come at the end of both. -/
structure OrderKept (s t : State) : Prop where
  produced : s.rspo <+: t.rspo
  ahead : answersAhead s <+: answersAhead t

theorem OrderKept.trans {s t u : State} (hst : OrderKept s t) (htu : OrderKept t u) : OrderKept s u :=
  ⟨hst.produced.trans htu.produced, hst.ahead.trans htu.ahead⟩

/-- It is kept by whatever leaves the command's fields and at most offers more beats. -/
theorem orderKept_of_offered {s t : State} (h : SameCommand s t) (hcmd : s.cmdIn <+: t.cmdIn) : OrderKept s t where
  produced := by rw [h.rspo]
  ahead := by
    obtain ⟨ws, hws⟩ := hcmd
    rw [answersAhead, answersAhead, ← hws, List.foldl_append, ← (foldl_afterBeat_congr s.cmdIn h).rspo]
    exact foldl_afterBeat_rspo ws _

/-- What is offered on `rx_in`, what moves come and where the decode loop stands make no difference to it (R48). -/
theorem orderKept_elsewhere (s : State) (rxIn : List (BitVec 9)) (sched : List Move) (wire : Wire) :
    OrderKept s { s with rxIn := rxIn, sched := sched, wire := wire } :=
  orderKept_of_offered ⟨rfl, rfl, rfl, rfl⟩ List.prefix_rfl

theorem orderKept_refl (s : State) : OrderKept s s := orderKept_elsewhere s s.rxIn s.sched s.wire

/-- An RX token leaves the command's fields and the beats offered on `cmd_in` (R48). -/
theorem orderKept_exec_rxi {i : Instr} (hi : i.format = .rxi) {s t : State} (h : exec i s = .next t) : OrderKept s t :=
  orderKept_of_offered (exec_rxi_sameCommand hi h) (by rw [(exec_sameOutside h).cmdIn])

/-- The command agent produces the response that was ahead: what is ahead after the oldest beat is what was ahead before it (R48). -/
theorem orderKept_exec_cmd {w : BitVec 10} {ws : List (BitVec 10)} {s t : State} (hw : s.cmdIn = w :: ws)
    (h : exec (decode (.cmd w)) { s with cmdIn := ws } = .next t) : OrderKept s t := by
  have hcmdIn : t.cmdIn = ws := (exec_sameOutside h).cmdIn
  rw [exec_cmd_afterBeat] at h
  cases h
  refine ⟨afterBeat_rspo { s with cmdIn := ws } w, ?_⟩
  have hsame : SameCommand (afterBeat s w) (afterBeat { s with cmdIn := ws } w) := afterBeat_congr w ⟨rfl, rfl, rfl, rfl⟩
  rw [answersAhead, answersAhead, hcmdIn, hw, List.foldl_cons, (foldl_afterBeat_congr ws hsame).rspo]

/-- The host offers beats behind those already offered, and takes none back (R60, R168). -/
theorem hostEffect_cmdIn {s t : State} (h : HostEffect s t) : s.cmdIn <+: t.cmdIn := by
  cases h with
  | started => exact List.prefix_append _ _
  | next => exact List.prefix_append _ _
  | _ => exact List.prefix_rfl

/-- Every move but a reset keeps the order. -/
theorem orderKept_perform {m : Move} {s t : State} (hm : ∀ keepRx keepCmd, m ≠ .rst keepRx keepCmd) (h : perform m s = .next t) :
    OrderKept s t := by
  obtain ⟨w, -, rfl⟩ | ⟨w, -, rfl⟩ | ⟨-, h⟩ | ⟨-, h⟩ | ⟨-, h⟩ | ⟨keepRx, keepCmd, hrst, -⟩ | ⟨x, -, h⟩ := perform_cases h
  · exact orderKept_elsewhere s _ s.sched s.wire
  · exact orderKept_of_offered ⟨rfl, rfl, rfl, rfl⟩ (List.prefix_append _ _)
  · obtain rfl | ⟨w, ws, -, -, h⟩ := rxAgent_cases h
    · exact orderKept_refl _
    · exact (orderKept_elsewhere s ws s.sched s.wire).trans (orderKept_exec_rxi (decode_format _) h)
  · obtain rfl | ⟨w, ws, hw, h⟩ := cmdAgent_cases h
    · exact orderKept_refl _
    · exact orderKept_exec_cmd hw h
  · obtain rfl | ⟨i, u, -, -, rfl⟩ := blockAgent_cases h
    · exact orderKept_refl _
    · exact orderKept_elsewhere s s.rxIn s.sched u
  · exact absurd hrst (hm keepRx keepCmd)
  · have same := hostMove_sameBlock h
    exact orderKept_of_offered ⟨same.operand, same.tooLong, same.rspo, same.params⟩ (hostEffect_cmdIn (hostMove_effect h))

/-- So does every step. -/
theorem orderKept_step {s t : State} (h : step s = .next t) (hrst : ∀ keepRx keepCmd ms, s.sched ≠ .rst keepRx keepCmd :: ms) :
    OrderKept s t := by
  obtain ⟨-, rfl⟩ | ⟨m, ms, hs, h⟩ := step_cases h
  · exact orderKept_refl _
  · have hperform := orderKept_perform (fun keepRx keepCmd hm => hrst keepRx keepCmd ms (hm ▸ hs)) h
    exact (orderKept_elsewhere s s.rxIn ms s.wire).trans hperform

/-! ### The engine's command (R155, R159) -/

/-- A GO beat names no operand byte (R64). -/
theorem decodeGo_ne_opbyte (data b : Byte) : decodeGo data ≠ .opbyte b := by
  unfold decodeGo
  repeat' split
  all_goals exact nofun

/-- A beat closes no command exactly when it is an operand byte (R64, R73). -/
theorem closesCommand_eq_false_iff {w : BitVec 10} : closesCommand w = false ↔ ∃ b, decode (.cmd w) = .opbyte b := by
  simp only [closesCommand, bne_eq_false_iff_eq, decode, decodeCmd]
  constructor
  · intro htag
    exact ⟨cmdData w, if_pos htag⟩
  · rintro ⟨b, hb⟩
    by_contra htag
    rw [if_neg htag] at hb
    split at hb
    · exact decodeGo_ne_opbyte _ _ hb
    · cases hb

/-- A beat that closes no command makes no response (R64). -/
theorem afterBeat_of_operand {w : BitVec 10} (hw : closesCommand w = false) (s : State) : (afterBeat s w).rspo = s.rspo := by
  obtain ⟨b, hb⟩ := closesCommand_eq_false_iff.1 hw
  exact exec_opbyte_rspo (hb ▸ exec_cmd_afterBeat w s)

/-- A beat that closes a command makes one response, and the command is over (R65). -/
theorem afterBeat_of_closes {w : BitVec 10} (hw : closesCommand w = true) (s : State) : ∃ r, afterBeat s w = respond r s := by
  have hne (b : Byte) : decode (.cmd w) ≠ .opbyte b := fun hb => by
    rw [closesCommand_eq_false_iff.2 ⟨b, hb⟩] at hw
    cases hw
  obtain ⟨r, -, hr⟩ := exec_cmd_responds (decode_format (.cmd w)) hne (exec_cmd_afterBeat w s)
  exact ⟨r, hr⟩

/-- Beats make one response for each that closes a command. -/
theorem foldl_afterBeat_rspo_length (ws : List (BitVec 10)) (s : State) :
    (ws.foldl afterBeat s).rspo.length = s.rspo.length + (ws.filter closesCommand).length := by
  induction ws generalizing s with
  | nil => rfl
  | cons w ws ih =>
    rw [List.foldl_cons, ih]
    cases hw : closesCommand w with
    | false => rw [afterBeat_of_operand hw, List.filter_cons_of_neg (by simp [hw])]
    | true =>
      obtain ⟨r, hr⟩ := afterBeat_of_closes hw s
      simp only [hr, respond_rspo, List.filter_cons_of_pos hw, List.length_append, List.length_cons, List.length_nil]
      omega

/-- The response to the engine's command is the one after all that are ahead (R48, R65). -/
theorem answersAhead_length (s : State) : (answersAhead s).length = s.rspo.length + commandsOffered s :=
  foldl_afterBeat_rspo_length s.cmdIn s

theorem foldl_afterBeat_params (ws : List (BitVec 10)) (s : State) : (ws.foldl afterBeat s).params = s.params := by
  induction ws generalizing s with
  | nil => rfl
  | cons w ws ih =>
    have hparams : (afterBeat s w).params = s.params := (exec_sameOutside (exec_cmd_afterBeat w s)).params
    rw [List.foldl_cons, ih, hparams]

/-- When no command is begun and unfinished, none is in progress once the beats offered are handled (R64). -/
theorem foldl_afterBeat_between_commands {s : State} (h : commandOpen s = false) :
    (s.cmdIn.foldl afterBeat s).operand = [] ∧ (s.cmdIn.foldl afterBeat s).tooLong = false := by
  unfold commandOpen at h
  split at h
  · rename_i hlast
    rw [List.getLast?_eq_none_iff.1 hlast]
    simpa using h
  · rename_i w hlast
    obtain ⟨ws, hws⟩ := List.getLast?_eq_some_iff.1 hlast
    obtain ⟨r, hr⟩ := afterBeat_of_closes (by simpa using h) (ws.foldl afterBeat s)
    rw [hws, List.foldl_append, List.foldl_cons, List.foldl_nil, hr]
    exact ⟨rfl, rfl⟩

/-- A command's beats, handled with no command in progress, add its response (R32, R64). -/
theorem foldl_afterBeat_commandBeats (op : CmdOp) (operand : List Byte) {s : State} (hoperand : s.operand = [])
    (htooLong : s.tooLong = false) :
    (commandBeats op operand).foldl afterBeat s = { s with rspo := s.rspo ++ [command s.params op operand] } := by
  have hbeats := execAll_cmdBeats (commandBeats op operand) s
  rw [map_decode_commandBeats, ← sendCommand, (commandBeatsMakeOneCommand op operand s hoperand htooLong).1] at hbeats
  exact (Host.Outcome.next.inj hbeats).symm

/-- The response to the engine's command joins at the end of what is ahead. -/
theorem answersAhead_issueCommand (op : CmdOp) (operand : List Byte) {s : State} (h : commandOpen s = false) :
    answersAhead (issueCommand op operand s) = answersAhead s ++ [command s.params op operand] := by
  obtain ⟨hoperand, htooLong⟩ := foldl_afterBeat_between_commands h
  have hsame : SameCommand s (issueCommand op operand s) := ⟨rfl, rfl, rfl, rfl⟩
  have hend := foldl_afterBeat_congr (s.cmdIn ++ commandBeats op operand) hsame
  rw [answersAhead, issueCommand_cmdIn, hend.rspo, List.foldl_append,
    foldl_afterBeat_commandBeats op operand hoperand htooLong, foldl_afterBeat_params]
  rfl

/-- Settles O38: every move but a reset keeps the order, and the engine's command is the next one in it. -/
theorem commandsAnsweredInOrder : Obligations.CommandsAnsweredInOrder := by
  refine ⟨fun s t h hrst => ?_, fun op operand s hfree => ⟨answersAhead_issueCommand op operand hfree, ?_⟩⟩
  · have hkept := orderKept_step h hrst
    exact ⟨hkept.produced, hkept.ahead⟩
  · rw [answersAhead_length]
    rfl

end Sys2Proof.Machine
end

section
/-! PROOF. The encoder and the decoder of the three formats agree (R61, R64, R67, R72, R73). -/

namespace Sys2Proof.Machine

/-! ### A beat and its fields -/

/-- An RXI beat is its two fields (R61). -/
theorem rxiBeat_fields (w : BitVec 9) : rxiBeat (rxiEnd w) (rxiData w) = w := by
  apply BitVec.eq_of_toNat_eq
  rw [rxiBeat_toNat, rxiEnd, rxiData, BitVec.extractLsb'_toNat, BitVec.extractLsb'_toNat, Nat.shiftRight_eq_div_pow,
    Nat.shiftRight_zero]
  omega

/-- A CMD beat is its two fields (R64). -/
theorem cmdBeat_fields (w : BitVec 10) : cmdBeat (cmdTag w) (cmdData w) = w := by
  apply BitVec.eq_of_toNat_eq
  rw [cmdBeat_toNat, cmdTag, cmdData, BitVec.extractLsb'_toNat, BitVec.extractLsb'_toNat, Nat.shiftRight_eq_div_pow,
    Nat.shiftRight_zero]
  omega

/-- The end field is bit 8 (R61). -/
theorem rxiEnd_eq_ofBool (w : BitVec 9) : rxiEnd w = BitVec.ofBool (w.getLsbD 8) := by
  ext i hi
  obtain rfl : i = 0 := by omega
  simp [rxiEnd]

/-- What an RXI beat of given fields decodes to (R61). -/
theorem decode_rxiBeat (e : BitVec 1) (d : Byte) :
    decode (.rxi (rxiBeat e d)) = if e = 1#1 then .endStream else if d = 0x00#8 then .delim else .data d := by
  simp only [decode, decodeRxi, rxiEnd_rxiBeat, rxiData_rxiBeat]

/-- What a CMD beat of given fields decodes to (R64, R73). -/
theorem decode_cmdBeat (t : BitVec 2) (d : Byte) :
    decode (.cmd (cmdBeat t d)) = if t = 0#2 then .opbyte d else if t = 1#2 then decodeGo d else .cmdRsvd t d := by
  simp only [decode, decodeCmd, cmdTag_cmdBeat, cmdData_cmdBeat]

/-- A beat with a reserved tag decodes to a reserved beat (R73). -/
theorem decode_cmdBeat_of_reserved_tag {t : BitVec 2} (ht : 2 ≤ t.toNat) (d : Byte) :
    decode (.cmd (cmdBeat t d)) = .cmdRsvd t d := by
  have h0 : t ≠ 0#2 := fun h => by simp [h] at ht
  have h1 : t ≠ 1#2 := fun h => by simp [h] at ht
  rw [decode_cmdBeat, if_neg h0, if_neg h1]

/-- The data field of a GO beat names one of the seven operations, operation 7, or nothing (R64, R72, R73). -/
theorem decodeGo_cases (d : Byte) :
    (∃ op, d = opCode op ∧ decodeGo d = opInstr op) ∨ (d = 0x07#8 ∧ decodeGo d = .op7) ∨
      (8 ≤ d.toNat ∧ decodeGo d = .cmdRsvd 1#2 d) := by
  unfold decodeGo
  split; · exact .inl ⟨.enc, ‹_›, rfl⟩
  split; · exact .inl ⟨.dec, ‹_›, rfl⟩
  split; · exact .inl ⟨.frame, ‹_›, rfl⟩
  split; · exact .inl ⟨.crc, ‹_›, rfl⟩
  split; · exact .inl ⟨.attach, ‹_›, rfl⟩
  split; · exact .inl ⟨.chunk, ‹_›, rfl⟩
  split; · exact .inl ⟨.validate, ‹_›, rfl⟩
  split; · exact .inr (.inl ⟨‹_›, rfl⟩)
  exact .inr (.inr ⟨by bv_omega, rfl⟩)

/-- A GO beat whose number is from 8 on decodes to a reserved beat (R73). -/
theorem decodeGo_of_reserved {d : Byte} (hd : 8 ≤ d.toNat) : decodeGo d = .cmdRsvd 1#2 d := by
  obtain ⟨op, rfl, -⟩ | ⟨rfl, -⟩ | ⟨-, h⟩ := decodeGo_cases d
  · cases op <;> simp [opCode] at hd
  · simp at hd
  · exact h

/-- A code byte that is neither `0x00` nor `0xFF` (R67). -/
theorem decode_wire_blk {c : Byte} (h0 : c ≠ 0x00#8) (hff : c ≠ 0xFF#8) : decode (.wire c) = .blk c := by
  rw [decode, decodeWire, if_neg h0, if_neg hff]

/-! ### Decoding what was encoded -/

/-- Settles O3, by the rows of the opcode table: the rows with a constraint use it, the others are single words. -/
theorem decodeOfEncode : Obligations.DecodeOfEncode := by
  intro i hi
  cases i with
  | data b => rw [encode, decode_rxiBeat, if_neg (by decide), if_neg (by simpa [Instr.wellFormed] using hi)]
  | delim => rfl
  | endStream => rfl
  | enc => rfl
  | dec => rfl
  | frame => rfl
  | crc => rfl
  | attach => rfl
  | chunk => rfl
  | validate => rfl
  | opbyte b => rw [encode, decode_cmdBeat, if_pos rfl]
  | blk c =>
    obtain ⟨h0, hff⟩ : c ≠ 0x00#8 ∧ c ≠ 0xFF#8 := by simpa [Instr.wellFormed] using hi
    exact decode_wire_blk h0 hff
  | full => rfl
  | zero => rfl
  | op7 => rfl
  | cmdRsvd t d =>
    obtain ⟨rfl, hd⟩ | ht : (t = 1#2 ∧ 8 ≤ d.toNat) ∨ 2 ≤ t.toNat := by simpa [Instr.wellFormed] using hi
    · rw [encode, decode_goBeat, decodeGo_of_reserved hd]
    · exact decode_cmdBeat_of_reserved_tag ht d

/-! ### Encoding what was decoded -/

/-- A beat comes back from what it decodes to, an operation of the table. -/
def EncodesBack (b : Beat) : Prop := (decode b).wellFormed = true ∧ encode (decode b) = b

/-- An RXI beat with end bit 0 comes back (R61). -/
theorem encodesBack_rxiBeat (d : Byte) : EncodesBack (.rxi (rxiBeat 0#1 d)) := by
  rw [EncodesBack, decode_rxiBeat, if_neg (by decide)]
  by_cases hd : d = 0x00#8
  · subst hd
    exact ⟨rfl, rfl⟩
  · rw [if_neg hd]
    exact ⟨by simpa [Instr.wellFormed] using hd, rfl⟩

/-- A GO beat comes back (R64, R73). -/
theorem encodesBack_goBeat (d : Byte) : EncodesBack (.cmd (cmdBeat 1#2 d)) := by
  rw [EncodesBack, decode_goBeat]
  obtain ⟨op, hd, h⟩ | ⟨hd, h⟩ | ⟨hd, h⟩ := decodeGo_cases d
  · rw [h, hd]
    cases op <;> exact ⟨rfl, rfl⟩
  · rw [h, hd]
    exact ⟨rfl, rfl⟩
  · rw [h]
    exact ⟨by simpa [Instr.wellFormed] using hd, rfl⟩

/-- Every CMD beat comes back (R64, R73). -/
theorem encodesBack_cmd (w : BitVec 10) : EncodesBack (.cmd w) := by
  rw [← cmdBeat_fields w]
  by_cases hgo : cmdTag w = 1#2
  · rw [hgo]
    exact encodesBack_goBeat _
  by_cases hbyte : cmdTag w = 0#2
  · rw [EncodesBack, decode_cmdBeat, if_pos hbyte, hbyte]
    exact ⟨rfl, rfl⟩
  · have ht : 2 ≤ (cmdTag w).toNat := by bv_omega
    rw [EncodesBack, decode_cmdBeat_of_reserved_tag ht]
    exact ⟨by simp [Instr.wellFormed, ht], rfl⟩

/-- Every code byte comes back (R67). -/
theorem encodesBack_wire (c : Byte) : EncodesBack (.wire c) := by
  by_cases h0 : c = 0x00#8
  · subst h0
    exact ⟨rfl, rfl⟩
  by_cases hff : c = 0xFF#8
  · subst hff
    exact ⟨rfl, rfl⟩
  · rw [EncodesBack, decode_wire_blk h0 hff]
    exact ⟨by simp [Instr.wellFormed, h0, hff], rfl⟩

/-- Only an RXI beat can be an `END` (R72). -/
theorem decode_ne_endStream {b : Beat} (hb : b.format ≠ .rxi) : decode b ≠ .endStream :=
  fun hend => hb (by rw [← decode_format b, hend]; rfl)

/-- A beat is an `END`, whose data field is ignored, or comes back (R61). -/
theorem encodesBack_or_end (b : Beat) : (∃ d, b = .rxi (rxiBeat 1#1 d)) ∨ (decode b ≠ .endStream ∧ EncodesBack b) := by
  cases b with
  | rxi w =>
    rw [← rxiBeat_fields w]
    by_cases hend : rxiEnd w = 1#1
    · exact .inl ⟨rxiData w, by rw [hend]⟩
    · have hzero : rxiEnd w = 0#1 := by bv_omega
      rw [hzero]
      refine .inr ⟨?_, encodesBack_rxiBeat _⟩
      rw [decode_rxiBeat, if_neg (by decide)]
      split <;> exact nofun
  | cmd w => exact .inr ⟨decode_ne_endStream nofun, encodesBack_cmd w⟩
  | wire c => exact .inr ⟨decode_ne_endStream nofun, encodesBack_wire c⟩

/-- Settles O4: `END` on the one side, every other beat on the other. -/
theorem encodeOfDecode : Obligations.EncodeOfDecode := by
  intro b
  obtain ⟨d, rfl⟩ | ⟨hend, hwf, hback⟩ := encodesBack_or_end b
  · have hd : decode (.rxi (rxiBeat 1#1 d)) = .endStream := by rw [decode_rxiBeat, if_pos rfl]
    rw [hd]
    exact ⟨rfl, rfl, fun h => absurd rfl h, fun _ => ⟨d, rfl, rfl⟩⟩
  · exact ⟨hwf, decode_format b, fun _ => hback, fun h => absurd h hend⟩

/-! ### What each beat selects -/

/-- Settles O1: the end bit first, then the data field. -/
theorem rxiBeatSelectsEvent : Obligations.RxiBeatSelectsEvent := by
  intro w
  rw [decode, decodeRxi, rxiEnd_eq_ofBool]
  refine ⟨fun hend => ?_, fun hend hzero => ?_, fun hend hdata => ?_⟩
  · rw [hend]
    exact if_pos rfl
  · rw [hend, if_neg (by decide)]
    exact if_pos hzero
  · rw [hend, if_neg (by decide)]
    exact if_neg hdata

/-- Settles O2: single beats by evaluation, the ranges by the lemma of their row. -/
theorem beatsSelectOperations : Obligations.BeatsSelectOperations := by
  refine ⟨fun d => ?_, rfl, rfl, rfl, rfl, rfl, rfl, rfl, rfl, fun d hd => ?_, fun t d ht => ?_, rfl, rfl, fun c => decode_wire_blk⟩
  · exact (decode_cmdBeat 0#2 d).trans (if_pos rfl)
  · exact (decode_goBeat d).trans (decodeGo_of_reserved hd)
  · exact decode_cmdBeat_of_reserved_tag ht d

/-- Settles O5: nineteen closed evaluations of the decoder. -/
theorem specWordsDecode : Obligations.SpecWordsDecode :=
  ⟨rfl, rfl, rfl, rfl, rfl, rfl, rfl, rfl, rfl, rfl, rfl, rfl, rfl, rfl, rfl, rfl, rfl, rfl, rfl⟩

end Sys2Proof.Machine
end

section
/-! PROOF. The port's answers to an operand byte, to `DEC`, to `ATTACH` and to a reserved beat, and the end of a stream
(R64, R73, R97, R113, R135, R186, R189). -/

namespace Sys2Proof.Machine

/-! ### Operand bytes and reserved beats -/

/-- An operand byte is stored while there is room (R189). -/
theorem collectByte_of_room {b : Byte} {s : State} (h : roomFor s.params.opCap s.operand.length = true) :
    collectByte b s = { s with operand := s.operand ++ [b] } := by
  rw [collectByte, if_pos h]

/-- With no room it is dropped and the command is marked (R189). -/
theorem collectByte_of_full {b : Byte} {s : State} (h : roomFor s.params.opCap s.operand.length = false) :
    collectByte b s = { s with tooLong := true } := by
  rw [collectByte, if_neg (by simp [h])]

/-- Settles O35: room under no capacity, under one not reached, and none under one reached. -/
theorem opbyteCollectsOrMarks : Obligations.OpbyteCollectsOrMarks := by
  intro b s
  rw [exec_opbyte]
  refine ⟨fun hcap => ?_, fun k hcap hlt => ?_, fun k hcap hle => ?_⟩
  · rw [collectByte_of_room (by rw [hcap, roomFor_none])]
  · rw [collectByte_of_room (by simpa [hcap] using hlt)]
  · rw [collectByte_of_full (by simpa [hcap] using hle)]

/-- A reserved beat decodes to operation 7 or to a reserved beat's operation (R73). -/
theorem decode_reserved {w : BitVec 10}
    (hw : (cmdTag w = 1#2 ∧ 7 ≤ (cmdData w).toNat) ∨ 2 ≤ (cmdTag w).toNat) :
    decode (.cmd w) = .op7 ∨ ∃ t d, decode (.cmd w) = .cmdRsvd t d := by
  rw [← cmdBeat_fields w]
  obtain ⟨htag, hdata⟩ | htag := hw
  · rw [htag, decode_goBeat]
    obtain ⟨op, hop, -⟩ | ⟨-, h⟩ | ⟨-, h⟩ := decodeGo_cases (cmdData w)
    · rw [hop] at hdata
      cases op <;> simp [opCode] at hdata
    · exact .inl h
    · exact .inr ⟨_, _, h⟩
  · exact .inr ⟨_, _, decode_cmdBeat_of_reserved_tag htag _⟩

/-- Settles O36: both reserved operations reject the command, and every reserved beat decodes to one of them. -/
theorem reservedBeatsAnswerIllegal : Obligations.ReservedBeatsAnswerIllegal := by
  refine ⟨fun w hw s => ?_, fun s t d => ⟨rfl, rfl⟩⟩
  obtain h | ⟨t, d, h⟩ := decode_reserved hw
  · rw [h]
    rfl
  · rw [h]
    rfl

/-! ### ATTACH and DEC -/

/-- The checksum of the example of R135, round by round (R131). -/
theorem crc32_of_010203 : crc32 [0x01#8, 0x02#8, 0x03#8] = 0x55BC801D#32 := by
  simp [crc32, crcByte, crcRounds, crcRound, crcPoly]

/-- Settles O42: the answer is the chunk payload, evaluated for the two examples. -/
theorem attachAnswersChunkPayload : Obligations.AttachAnswersChunkPayload := by
  refine ⟨rfl, fun s => ⟨attachBytes s.operand, exec_opInstr .attach s, rfl, attachBytes_length _, fun h => ?_, fun h => ?_⟩⟩
  · rw [h]
    rfl
  · rw [h, attachBytes, crc32_of_010203]
    rfl

/-- A full block that is all there: its 254 bytes, and no implied zero (R99). -/
theorem decodeRest_full (n : Nat) {r : List Byte} (hr : r.length = 254) (rest out : List Byte) :
    decodeRest (n + 1) (0xFF#8 :: (r ++ rest)) out = decodeRest n rest (out ++ r) := by
  have hcode : (0xFF#8).toNat = 255 := rfl
  have htake : (r ++ rest).take 254 = r := by rw [← hr, List.take_left]
  have hdrop : (r ++ rest).drop 254 = rest := by rw [← hr, List.drop_left]
  have hfits : ¬ (r ++ rest).length + 1 < 255 := by rw [List.length_append]; omega
  simp only [decodeRest, hcode, Nat.reduceSub, htake, hdrop, if_neg hfits, Nat.lt_irrefl, false_and, if_false]

/-- A full block with fewer bytes behind it overruns (R99, R182). -/
theorem codecDecode_full_overrun {r : List Byte} (hr : r.length < 254) (hzero : 0x00#8 ∉ r) :
    codecDecode (0xFF#8 :: r) = .err .overrun := by
  have hcode : (0xFF#8).toNat = 255 := rfl
  have hshort : r.length + 1 < 255 := by omega
  rw [codecDecode_eq_rest (by simpa using hzero)]
  simp only [decodeRest, hcode, if_pos hshort]

/-- A single full block (R99). -/
theorem codecDecode_full {r : List Byte} (hr : r.length = 254) (hzero : 0x00#8 ∉ r) :
    codecDecode (0xFF#8 :: r) = .ok r := by
  have hrun := decodeRest_full (r.length + 1) hr [] []
  rw [List.append_nil] at hrun
  rw [codecDecode_eq_rest (by simpa using hzero), List.length_cons, hrun]
  rfl

/-- A full block and a closing `01`, which adds nothing (R99). -/
theorem codecDecode_full_closed {r : List Byte} (hr : r.length = 254) (hzero : 0x00#8 ∉ r) :
    codecDecode (0xFF#8 :: r ++ [0x01#8]) = .ok r := by
  have hrun := decodeRest_full (r.length + 2) hr [0x01#8] []
  rw [List.cons_append, codecDecode_eq_rest (by simpa using hzero), List.length_cons, List.length_append, List.length_singleton,
    hrun]
  simp [decodeRest]

/-- Settles O33: the answer follows the result of decode, and the corner cases are short runs of its loop. -/
theorem decAnswersDecoding : Obligations.DecAnswersDecoding := by
  refine ⟨rfl, fun s => ⟨_, exec_opInstr .dec s, fun hlong => ?_, fun hlong p hp => ?_, fun hlong code hcode => ?_⟩,
    rfl, rfl, rfl, rfl, rfl, fun r => codecDecode_full_overrun,
    fun r hr hzero => ⟨codecDecode_full hr hzero, codecDecode_full_closed hr hzero⟩, rfl⟩
  · rw [hlong]
    rfl
  · simp only [hlong, Bool.false_eq_true, if_false, answerOf, answerDec, hp]
    rfl
  · simp only [hlong, Bool.false_eq_true, if_false, answerOf, answerDec, hcode]
    rfl

/-! ### The end of a stream -/

/-- `END` at a frame start with no dropped byte only closes the agent (R113). -/
theorem exec_endStream_frameStart {s : State} (hopen : s.closed = false) (hclean : s.poison = false) (hcarry : s.carry = []) :
    exec .endStream s = .next { s with closed := true } := by
  rw [exec_endStream_eq_documentEnd hopen hclean, documentEnd, if_pos hcarry, ← hcarry]

/-- `END` inside a frame emits the frame's event and closes the agent (R113). -/
theorem exec_endStream_unfinished {s : State} (hopen : s.closed = false) (hframe : s.poison = true ∨ s.carry ≠ []) :
    exec .endStream s = .next { s with
      carry := [], poison := false, closed := true, rxo := s.rxo ++ [frameEvent s.carry s.poison] } := by
  rw [exec_endStream hopen, if_pos hframe]
  rfl

/-- Settles O16: the two forms of `END`, and the event by what the frame is. -/
theorem endEmitsLastFrame : Obligations.EndEmitsLastFrame := by
  refine ⟨fun d => (decode_rxiBeat 1#1 d).trans (if_pos rfl), fun s hopen => ⟨exec_endStream_frameStart hopen, fun hp => ?_,
    fun hp hcarry p hd => ?_, fun hp hcarry code hd => ?_, fun hzero hd => nomatch codecDecode_err_of_zero_free hzero hd⟩⟩
  · rw [exec_endStream_unfinished hopen (.inl hp), hp]
    rfl
  · simp only [exec_endStream_unfinished hopen (.inr hcarry), frameEvent, hp, hd, eventOf, Bool.false_eq_true, if_false]
  · simp only [exec_endStream_unfinished hopen (.inr hcarry), frameEvent, hp, hd, eventOf, Bool.false_eq_true, if_false]

end Sys2Proof.Machine
end

section
/-! PROOF. The output ports: the beats rebuild what they serialise, and are transferred one per step (R60, R63, R65). -/

namespace Sys2Proof.Machine

/-! ### An output beat and its fields -/

/-- Output beats and command beats have the same layout (R63, R64, R65). -/
@[simp] theorem cmdTag_outBeat (t : BitVec 2) (d : Byte) : cmdTag (outBeat t d) = t := cmdTag_cmdBeat t d
@[simp] theorem cmdData_outBeat (t : BitVec 2) (d : Byte) : cmdData (outBeat t d) = d := cmdData_cmdBeat t d

/-- A status is read back from its code (R181). -/
@[simp] theorem statusOfCode_statusCode (code : Status) : statusOfCode (statusCode code) = some code := by
  cases code <;> rfl

/-- A BYTE beat has tag `00` (R63, R65). -/
theorem cmdTag_of_mem_byteBeats {p : List Byte} {w : BitVec 10} (hw : w ∈ byteBeats p) : cmdTag w = 0#2 := by
  obtain ⟨b, -, rfl⟩ := List.mem_map.1 hw
  exact cmdTag_outBeat _ _

/-! ### Events (R63) -/

/-- A byte is collected. -/
theorem parseRxOut_byte (acc : List Byte) (b : Byte) (ws : List (BitVec 10)) :
    parseRxOut acc (outBeat 0#2 b :: ws) = parseRxOut (acc ++ [b]) ws := by
  simp [parseRxOut]

/-- The bytes of a message are collected in order. -/
theorem parseRxOut_byteBeats (acc p : List Byte) (ws : List (BitVec 10)) :
    parseRxOut acc (byteBeats p ++ ws) = parseRxOut (acc ++ p) ws := by
  induction p generalizing acc with
  | nil => rw [List.append_nil]; rfl
  | cons b p ih => exact (parseRxOut_byte acc b _).trans ((ih _).trans (by rw [List.append_assoc]; rfl))

/-- The beats of an event give the event. -/
theorem parseRxOut_eventBeats (e : Event) (ws : List (BitVec 10)) :
    parseRxOut [] (eventBeats e ++ ws) = (parseRxOut [] ws).map (e :: ·) := by
  cases e with
  | msg p =>
    rw [eventBeats, List.append_assoc, parseRxOut_byteBeats]
    simp [parseRxOut]
  | err code => simp [eventBeats, parseRxOut]

/-- The beats of a trace give the trace. -/
theorem parseRxOut_rxOutBeats (es : List Event) : parseRxOut [] (rxOutBeats es) = some es := by
  induction es with
  | nil => rfl
  | cons e es ih => rw [rxOutBeats, List.flatMap_cons, parseRxOut_eventBeats, ← rxOutBeats, ih]; rfl

/-- No event has a beat of tag `11`. -/
theorem cmdTag_ne_three_of_mem_eventBeats {e : Event} {w : BitVec 10} (hw : w ∈ eventBeats e) : cmdTag w ≠ 3#2 := by
  cases e with
  | msg p =>
    obtain hw | hw := List.mem_append.1 hw
    · rw [cmdTag_of_mem_byteBeats hw]
      decide
    · rw [List.mem_singleton.1 hw, cmdTag_outBeat]
      decide
  | err code =>
    rw [List.mem_singleton.1 hw, cmdTag_outBeat]
    decide

/-- Settles O47: by the trace's events, each by its beats. -/
theorem rxOutBeatsRebuildEvents : Obligations.RxOutBeatsRebuildEvents := by
  refine ⟨fun es => ⟨parseRxOut_rxOutBeats es, fun w hw => ?_, fun p => rfl, fun code => rfl⟩,
    rfl, rfl, rfl, rfl, rfl, rfl, rfl, rfl⟩
  obtain ⟨e, -, hw⟩ := List.mem_flatMap.1 hw
  exact cmdTag_ne_three_of_mem_eventBeats hw

/-! ### Responses (R65) -/

/-- A byte is collected. -/
theorem parseRspOut_byte (acc : List Byte) (b : Byte) (ws : List (BitVec 10)) :
    parseRspOut acc (outBeat 0#2 b :: ws) = parseRspOut (acc ++ [b]) ws := by
  simp [parseRspOut]

/-- The bytes of a response are collected in order. -/
theorem parseRspOut_byteBeats (acc p : List Byte) (ws : List (BitVec 10)) :
    parseRspOut acc (byteBeats p ++ ws) = parseRspOut (acc ++ p) ws := by
  induction p generalizing acc with
  | nil => rw [List.append_nil]; rfl
  | cons b p ih => exact (parseRspOut_byte acc b _).trans ((ih _).trans (by rw [List.append_assoc]; rfl))

/-- The beats of a response give the response. -/
theorem parseRspOut_responseBeats (r : Response) (ws : List (BitVec 10)) :
    parseRspOut [] (responseBeats r ++ ws) = (parseRspOut [] ws).map (r :: ·) := by
  rw [responseBeats, List.append_assoc, parseRspOut_byteBeats]
  simp [parseRspOut]

/-- The beats of the responses give the responses. -/
theorem parseRspOut_rspOutBeats (rs : List Response) : parseRspOut [] (rspOutBeats rs) = some rs := by
  induction rs with
  | nil => rfl
  | cons r rs ih => rw [rspOutBeats, List.flatMap_cons, parseRspOut_responseBeats, ← rspOutBeats, ih]; rfl

/-- A response has beats of the tags `00` and `01` only. -/
theorem cmdTag_of_mem_responseBeats {r : Response} {w : BitVec 10} (hw : w ∈ responseBeats r) :
    cmdTag w = 0#2 ∨ cmdTag w = 1#2 := by
  obtain hw | hw := List.mem_append.1 hw
  · exact .inl (cmdTag_of_mem_byteBeats hw)
  · rw [List.mem_singleton.1 hw, cmdTag_outBeat]
    exact .inr rfl

/-- Settles O48: by the responses, each by its beats. -/
theorem rspOutBeatsRebuildResponses : Obligations.RspOutBeatsRebuildResponses := by
  refine ⟨fun rs => ⟨parseRspOut_rspOutBeats rs, fun w hw => ?_, fun r => rfl⟩, rfl, rfl, rfl, rfl, rfl, rfl, rfl, rfl⟩
  obtain ⟨r, -, hw⟩ := List.mem_flatMap.1 hw
  exact cmdTag_of_mem_responseBeats hw

/-! ### Taking an item -/

/-- With the thread free, the next event is counted and handed to the engine (R26, R157). -/
theorem hostTakeEvent_some {s : State} {e : Event} (hfree : hostFree s = true) (he : s.rxo[s.host.taken]? = some e) :
    hostTakeEvent s = onEvent e { s with host := { s.host with taken := s.host.taken + 1, rxSent := 0 } } := by
  simp [hostTakeEvent, hfree, he]

/-- The next response is counted, and is the engine's frame if the engine waits for it (R65). -/
theorem hostTakeResponse_some {s : State} {r : Response} (hr : s.rspo[s.host.rspTaken]? = some r) :
    hostTakeResponse s = .next { s with
      host := if s.host.call = .waits s.host.rspTaken then
          frameBuilt r { s.host with rspTaken := s.host.rspTaken + 1, rspSent := 0 }
        else { s.host with rspTaken := s.host.rspTaken + 1, rspSent := 0 } } := by
  simp [hostTakeResponse, hr]

/-- With no event left, taking one changes nothing. -/
theorem hostTakeEvent_none {s : State} (h : s.rxo[s.host.taken]? = none) : hostTakeEvent s = .next s := by
  simp [hostTakeEvent, h]

/-- Nor does a beat transfer. -/
theorem hostRxBeat_none {s : State} (h : s.rxo[s.host.taken]? = none) : hostRxBeat s = .next s := by
  simp [hostRxBeat, moreRxBeats, h, hostTakeEvent_none]

/-- With no response left, taking one changes nothing. -/
theorem hostTakeResponse_none {s : State} (h : s.rspo[s.host.rspTaken]? = none) : hostTakeResponse s = .next s := by
  simp [hostTakeResponse, h]

/-- Nor does a beat transfer. -/
theorem hostRspBeat_none {s : State} (h : s.rspo[s.host.rspTaken]? = none) : hostRspBeat s = .next s := by
  simp [hostRspBeat, moreRspBeats, h, hostTakeResponse_none]

/-! ### One beat per step (R60) -/

/-- An event has at least one beat (R63). -/
theorem eventBeats_length_pos (e : Event) : 0 < (eventBeats e).length := by
  cases e <;> simp [eventBeats]

/-- So has a response (R65). -/
theorem responseBeats_length_pos (r : Response) : 0 < (responseBeats r).length := by simp [responseBeats]

/-- More beats of the next event follow until one is left. -/
theorem moreRxBeats_some {s : State} {e : Event} (he : s.rxo[s.host.taken]? = some e) :
    moreRxBeats s = decide (s.host.rxSent + 1 < (eventBeats e).length) := by
  simp only [moreRxBeats, he]

/-- More beats of the next response follow until one is left. -/
theorem moreRspBeats_some {s : State} {r : Response} (hr : s.rspo[s.host.rspTaken]? = some r) :
    moreRspBeats s = decide (s.host.rspSent + 1 < (responseBeats r).length) := by
  simp only [moreRspBeats, hr]

/-- States that step one to the next run through. -/
theorem runSteps_through {f : Nat → State} {n : Nat} (h : ∀ k, k < n → step (f k) = .next (f (k + 1))) :
    runSteps n (f 0) = .next (f n) := by
  induction n with
  | zero => rfl
  | succ n ih =>
    rw [runSteps_add (ih fun k hk => h k (by omega)), runSteps_one]
    exact h n (by omega)

/-- The state with `k` beats of the next event transferred, and moves to come. -/
def withRxSent (k : Nat) (sched : List Move) (s : State) : State :=
  { s with host := { s.host with rxSent := k }, sched := sched }

/-- The state with `k` beats of the next response transferred, and moves to come. -/
def withRspSent (k : Nat) (sched : List Move) (s : State) : State :=
  { s with host := { s.host with rspSent := k }, sched := sched }

section
variable {s : State} {e : Event} {r : Response} (k : Nat) (ms : List Move)

/-- A beat of the event that others follow is counted (R60). -/
theorem step_rxBeat_more (he : s.rxo[s.host.taken]? = some e) (hk : k + 1 < (eventBeats e).length) :
    step (withRxSent k (.host .rxBeat :: ms) s) = .next (withRxSent (k + 1) ms s) := by
  have hmore : moreRxBeats (withRxSent k ms s) = true :=
    (moreRxBeats_some (s := withRxSent k ms s) he).trans (decide_eq_true hk)
  rw [step_of_sched rfl]
  exact if_pos hmore

/-- The last beat of an event takes it, with the thread free (R60, R63). -/
theorem step_rxBeat_last (he : s.rxo[s.host.taken]? = some e) (hfree : hostFree s = true)
    (hk : (eventBeats e).length ≤ k + 1) :
    step (withRxSent k (.host .rxBeat :: ms) s) = step { s with sched := .host .takeEvent :: ms } := by
  have hmore : moreRxBeats (withRxSent k ms s) = false :=
    (moreRxBeats_some (s := withRxSent k ms s) he).trans (decide_eq_false hk.not_gt)
  calc step (withRxSent k (.host .rxBeat :: ms) s)
      _ = hostRxBeat (withRxSent k ms s) := rfl
      _ = hostTakeEvent (withRxSent k ms s) := if_neg (by simp [hmore])
      _ = hostTakeEvent { s with sched := ms } :=
        (hostTakeEvent_some (s := withRxSent k ms s) hfree he).trans
          (hostTakeEvent_some (s := { s with sched := ms }) hfree he).symm

/-- A beat of the response that others follow is counted (R60). -/
theorem step_rspBeat_more (hr : s.rspo[s.host.rspTaken]? = some r) (hk : k + 1 < (responseBeats r).length) :
    step (withRspSent k (.host .rspBeat :: ms) s) = .next (withRspSent (k + 1) ms s) := by
  have hmore : moreRspBeats (withRspSent k ms s) = true :=
    (moreRspBeats_some (s := withRspSent k ms s) hr).trans (decide_eq_true hk)
  rw [step_of_sched rfl]
  exact if_pos hmore

/-- The last beat of a response takes it (R60, R65). -/
theorem step_rspBeat_last (hr : s.rspo[s.host.rspTaken]? = some r) (hk : (responseBeats r).length ≤ k + 1) :
    step (withRspSent k (.host .rspBeat :: ms) s) = step { s with sched := .host .takeResponse :: ms } := by
  have hmore : moreRspBeats (withRspSent k ms s) = false :=
    (moreRspBeats_some (s := withRspSent k ms s) hr).trans (decide_eq_false hk.not_gt)
  calc step (withRspSent k (.host .rspBeat :: ms) s)
      _ = hostRspBeat (withRspSent k ms s) := rfl
      _ = hostTakeResponse (withRspSent k ms s) := if_neg (by simp [hmore])
      _ = hostTakeResponse { s with sched := ms } :=
        (hostTakeResponse_some (s := withRspSent k ms s) hr).trans
          (hostTakeResponse_some (s := { s with sched := ms }) hr).symm

end

/-- As many transfers as an item has beats: before each the port has counted those before it, and the last is the taking. `f k moves` is the state
with `k` beats counted and moves to come. -/
theorem runSteps_beats {f : Nat → List Move → State} {m : Move} {n : Nat} {ms : List Move} {o : Result} (hn : 0 < n)
    (hmore : ∀ k moves, k + 1 < n → step (f k (m :: moves)) = .next (f (k + 1) moves))
    (hlast : ∀ k, k + 1 = n → step (f k (m :: ms)) = o) :
    (∀ k, k < n → runSteps k (f 0 (List.replicate n m ++ ms)) = .next (f k (List.replicate (n - k) m ++ ms))) ∧
      runSteps n (f 0 (List.replicate n m ++ ms)) = o := by
  have hfirst (k : Nat) (hk : k < n) :
      runSteps k (f 0 (List.replicate n m ++ ms)) = .next (f k (List.replicate (n - k) m ++ ms)) := by
    refine runSteps_through (f := fun j => f j (List.replicate (n - j) m ++ ms)) fun j hj => ?_
    have hleft : n - j = n - (j + 1) + 1 := by omega
    rw [hleft, List.replicate_succ, List.cons_append]
    exact hmore j _ (by omega)
  refine ⟨hfirst, ?_⟩
  obtain ⟨k, rfl⟩ : ∃ k, n = k + 1 := ⟨n - 1, by omega⟩
  have hone : k + 1 - k = 1 := by omega
  rw [runSteps_add (hfirst k (Nat.lt_succ_self k)), runSteps_one, hone]
  exact hlast k rfl

/-- The beats of an event are offered in order, and their transfers take it (R60, R63). -/
theorem rxBeats_take_event {s : State} {e : Event} {ms : List Move} (he : s.rxo[s.host.taken]? = some e)
    (hsent : s.host.rxSent = 0) (hfree : hostFree s = true)
    (hs : s.sched = List.replicate (eventBeats e).length (.host .rxBeat) ++ ms) :
    (∀ k, k < (eventBeats e).length → ∃ t, runSteps k s = .next t ∧ rxOutBeat t = (eventBeats e)[k]?) ∧
      runSteps (eventBeats e).length s = step { s with sched := .host .takeEvent :: ms } := by
  have hstart : withRxSent 0 (List.replicate (eventBeats e).length (.host .rxBeat) ++ ms) s = s := by
    rw [withRxSent, ← hsent, ← hs]
  obtain ⟨hoffered, htaken⟩ := runSteps_beats (f := fun k moves => withRxSent k moves s) (ms := ms) (eventBeats_length_pos e)
    (fun k moves hk => step_rxBeat_more k moves he hk) (fun k hk => step_rxBeat_last k ms he hfree hk.ge)
  simp only [hstart] at hoffered htaken
  exact ⟨fun k hk => ⟨_, hoffered k hk, by simp [rxOutBeat, withRxSent, he]⟩, htaken⟩

/-- The beats of a response are offered in order, and their transfers take it (R60, R65). -/
theorem rspBeats_take_response {s : State} {r : Response} {ms : List Move} (hr : s.rspo[s.host.rspTaken]? = some r)
    (hsent : s.host.rspSent = 0) (hs : s.sched = List.replicate (responseBeats r).length (.host .rspBeat) ++ ms) :
    (∀ k, k < (responseBeats r).length → ∃ t, runSteps k s = .next t ∧ rspOutBeat t = (responseBeats r)[k]?) ∧
      runSteps (responseBeats r).length s = step { s with sched := .host .takeResponse :: ms } := by
  have hstart : withRspSent 0 (List.replicate (responseBeats r).length (.host .rspBeat) ++ ms) s = s := by
    rw [withRspSent, ← hsent, ← hs]
  obtain ⟨hoffered, htaken⟩ := runSteps_beats (f := fun k moves => withRspSent k moves s) (ms := ms)
    (responseBeats_length_pos r) (fun k moves hk => step_rspBeat_more k moves hr hk)
    (fun k hk => step_rspBeat_last k ms hr hk.ge)
  simp only [hstart] at hoffered htaken
  exact ⟨fun k hk => ⟨_, hoffered k hk, by simp [rspOutBeat, withRspSent, hr]⟩, htaken⟩

/-- Settles O49: the items by their beats, and a port with nothing left to take. -/
theorem outputBeatsTakeItems : Obligations.OutputBeatsTakeItems := by
  intro s ms
  refine ⟨fun e he hsent hfree hs => rxBeats_take_event he hsent hfree hs,
    fun r hr hsent hs => rspBeats_take_response hr hsent hs, fun hall => ?_, fun hall => ?_⟩
  · have hnone : s.rxo[s.host.taken]? = none := List.getElem?_eq_none hall
    refine ⟨by simp [rxOutBeat, hnone], ?_⟩
    rintro (hs | hs) <;> rw [step_of_sched hs]
    · exact hostRxBeat_none hnone
    · exact hostTakeEvent_none hnone
  · have hnone : s.rspo[s.host.rspTaken]? = none := List.getElem?_eq_none hall
    refine ⟨by simp [rspOutBeat, hnone], ?_⟩
    rintro (hs | hs) <;> rw [step_of_sched hs]
    · exact hostRspBeat_none hnone
    · exact hostTakeResponse_none hnone

end Sys2Proof.Machine
end

section
/-! PROOF. The engine's transitions, each as one step (R152 to R161). -/

namespace Sys2Proof.Machine

/-- The chunk at a cursor is at most `C` bytes from the cursor on (R159). -/
theorem chunkAt_eq_take (data : List Byte) (capacity offset : Nat) :
    chunkAt data capacity offset = (data.drop offset).take capacity := by
  rw [chunkAt, slice, List.take_eq_take_iff, List.length_drop]
  omega

/-- `sendNextChunk` while data remains (R159). -/
theorem sendNextChunk_more {s : State} (h : s.host.offset < s.host.data.length) :
    sendNextChunk s = .next (issueCommand .chunk (chunkAt s.host.data s.host.capacity s.host.offset) s) := if_pos h

/-- `sendNextChunk` when no data remains (R161). -/
theorem sendNextChunk_done {s : State} (h : s.host.data.length ≤ s.host.offset) :
    sendNextChunk s = .next { s with host := { s.host with st := .done } } := if_neg h.not_gt

/-- Taking the token the engine waits for sends the next chunk (R157). -/
theorem hostTakeEvent_token {s : State} {p : List Byte} (hfree : hostFree s = true)
    (htoken : s.rxo[s.host.taken]? = some (.msg p)) (hack : acknowledges s.host.st p = true) :
    hostTakeEvent s = sendNextChunk { s with host := { s.host with taken := s.host.taken + 1, rxSent := 0 } } := by
  rw [hostTakeEvent_some hfree htoken, onEvent, onAcknowledgement, if_pos hack]

/-- Taking any other event only counts it (R157, R158). -/
theorem hostTakeEvent_unrecognised {s : State} {e : Event} (hfree : hostFree s = true) (he : s.rxo[s.host.taken]? = some e)
    (hno : ∀ p, e = .msg p → acknowledges s.host.st p = false) :
    hostTakeEvent s = .next { s with host := { s.host with taken := s.host.taken + 1, rxSent := 0 } } := by
  rw [hostTakeEvent_some hfree he]
  cases e with
  | msg p => exact if_neg (by simp [hno p rfl])
  | err code => rfl

/-- Taking the response the engine waits for makes it the waiting frame (R155, R159). -/
theorem hostTakeResponse_awaited {s : State} {r : Response} (hr : s.rspo[s.host.rspTaken]? = some r)
    (hcall : s.host.call = .waits s.host.rspTaken) :
    hostTakeResponse s =
      .next { s with host := frameBuilt r { s.host with rspTaken := s.host.rspTaken + 1, rspSent := 0 } } := by
  rw [hostTakeResponse_some hr, if_pos hcall]

/-- Taking another response only counts it (R168). -/
theorem hostTakeResponse_other {s : State} {r : Response} (hr : s.rspo[s.host.rspTaken]? = some r)
    (hcall : s.host.call ≠ .waits s.host.rspTaken) :
    hostTakeResponse s = .next { s with host := { s.host with rspTaken := s.host.rspTaken + 1, rspSent := 0 } } := by
  rw [hostTakeResponse_some hr, if_neg hcall]

/-- The gate opens for the size frame (R153, R155). -/
theorem hostWritable_announcingSize {s : State} (h : s.host.st = .announcingSize) :
    hostWritable s = .next { s with host := { writeFrame s.host with st := .awaitingSizeAck } } := by
  simp only [hostWritable, h]

/-- The gate opens for a chunk frame, and the cursor moves by the full capacity (R159, R160). -/
theorem hostWritable_sendingChunk {s : State} (h : s.host.st = .sendingChunk) :
    hostWritable s = .next { s with
      host := { writeFrame s.host with st := .awaitingChunkAck, offset := s.host.offset + s.host.capacity } } := by
  simp only [hostWritable, h]

/-- Where no frame waits the gate changes nothing (R152). -/
theorem hostWritable_other {s : State} (hsize : s.host.st ≠ .announcingSize) (hchunk : s.host.st ≠ .sendingChunk) :
    hostWritable s = .next s := by
  cases hst : s.host.st with
  | announcingSize => exact absurd hst hsize
  | sendingChunk => exact absurd hst hchunk
  | idle => simp only [hostWritable, hst]
  | awaitingSizeAck => simp only [hostWritable, hst]
  | awaitingChunkAck => simp only [hostWritable, hst]
  | done => simp only [hostWritable, hst]

/-- Settles O54: an event, a response and the gate, each by its cases. -/
theorem engineTransitions : Obligations.EngineTransitions := by
  intro s ms
  refine ⟨fun hs hfree htoken => ?_, fun r hs hr => ⟨fun hcall => ?_, fun hcall => ?_⟩, fun hs => ⟨fun hst => ?_, fun hst => ?_,
    fun hsize hchunk => ?_⟩⟩
  · obtain ⟨p, hp, hack⟩ : ∃ p, s.rxo[s.host.taken]? = some (.msg p) ∧ acknowledges s.host.st p = true := by
      obtain ⟨hst, hp⟩ | ⟨hst, hp⟩ := htoken
      · exact ⟨_, hp, by rw [hst]; rfl⟩
      · exact ⟨_, hp, by rw [hst]; rfl⟩
    have htaken : step s = sendNextChunk { s with
        sched := ms, host := { s.host with taken := s.host.taken + 1, rxSent := 0 } } :=
      (step_of_sched hs).trans (hostTakeEvent_token (s := { s with sched := ms }) hfree hp hack)
    refine ⟨fun hmore => ?_, fun hdone => htaken.trans (sendNextChunk_done hdone)⟩
    rw [htaken, ← chunkAt_eq_take]
    exact sendNextChunk_more hmore
  · rw [step_of_sched hs]
    refine ⟨builtState s.host.st, hostTakeResponse_awaited (s := { s with sched := ms }) hr hcall, fun hst => ?_, ?_⟩
    · rw [hst]
      rfl
    · rintro (hst | hst) <;> rw [hst] <;> rfl
  · rw [step_of_sched hs]
    exact hostTakeResponse_other (s := { s with sched := ms }) hr hcall
  · rw [step_of_sched hs]
    exact hostWritable_announcingSize (s := { s with sched := ms }) hst
  · rw [step_of_sched hs]
    exact hostWritable_sendingChunk (s := { s with sched := ms }) hst
  · rw [step_of_sched hs]
    exact hostWritable_other (s := { s with sched := ms }) hsize hchunk

/-- Settles O55: an event that is no message, or a message that does not acknowledge. -/
theorem unrecognisedEventsChangeNothing : Obligations.UnrecognisedEventsChangeNothing := by
  refine ⟨rfl, rfl, fun s ms e hs he hfree hsize hchunk => ?_⟩
  rw [step_of_sched hs]
  refine hostTakeEvent_unrecognised (s := { s with sched := ms }) hfree he fun p hp => Bool.eq_false_iff.2 fun hack => ?_
  obtain ⟨hst, htoken⟩ | ⟨hst, htoken⟩ := acknowledges_cases hack
  · exact hsize ⟨hst, by rw [hp, htoken]⟩
  · exact hchunk ⟨hst, by rw [hp, htoken]⟩

end Sys2Proof.Machine
end

section
/-! PROOF. A whole transfer through the ports, acknowledged frame by frame (R164, R214). -/

namespace Sys2Proof.Machine

/-! ### Moves that take one state to another, whatever moves come after them -/

/-- The moves, with any others behind them, run from `s` to `t`. -/
def Runs (moves : List Move) (s t : State) : Prop :=
  ∀ ms, runSteps moves.length { s with sched := moves ++ ms } = .next { t with sched := ms }

/-- No move. -/
theorem runs_nil (s : State) : Runs [] s s := fun _ => rfl

/-- A single move. -/
theorem runs_single {m : Move} {s t : State} (h : ∀ ms, perform m { s with sched := ms } = .next { t with sched := ms }) :
    Runs [m] s t :=
  fun ms => (runSteps_one _).trans (h ms)

/-- Moves one after another. -/
theorem Runs.append {moves moves' : List Move} {s t u : State} (hst : Runs moves s t) (htu : Runs moves' t u) :
    Runs (moves ++ moves') s u := by
  intro ms
  rw [List.length_append, List.append_assoc, runSteps_add (hst _)]
  exact htu ms

/-! ### A frame arrives on `rx_in` (R111, R112) -/

/-- A byte offered to a ready agent with nothing else offered is handled (R60, R77). -/
theorem runs_push (b : Byte) {s : State} (hready : rxReady s = true) (hrx : s.rxIn = []) :
    Runs (rxMoves (pushBeat b)) s (afterPush s b) := by
  intro ms
  have hopen : s.closed = false := by simpa using (Bool.and_eq_true_iff.1 hready).1
  have hrx' : (afterPush s b).rxIn = [] := by
    obtain h | h | h := afterPush_cases s b <;> rw [h] <;> exact hrx
  have hcmd' : (afterPush s b).cmdIn = s.cmdIn := by
    obtain h | h | h := afterPush_cases s b <;> rw [h] <;> rfl
  calc runSteps 2 { s with sched := rxMoves (pushBeat b) ++ ms }
      _ = step (withPorts [pushBeat b] s.cmdIn (.rx :: ms) s) := by
        rw [runSteps_succ (step_offerRx rfl), runSteps_one, hrx]
        rfl
      _ = exec (decode (.rxi (pushBeat b))) (withPorts [] s.cmdIn ms s) :=
        rxAgent_ready (s := withPorts [pushBeat b] s.cmdIn ms s) rfl hready
      _ = .next (afterPush (withPorts [] s.cmdIn ms s) b) := by
        rw [decode_pushBeat]
        exact exec_push (by exact hopen)
      _ = .next { afterPush s b with sched := ms } := by
        rw [afterPush_withPorts, withSched_eq_withPorts hrx' hcmd']

/-- Bytes that are no delimiter are stored while there is room (R111); the agent stays ready, since they emit nothing. -/
theorem runs_data {bytes : List Byte} (hzero : 0x00#8 ∉ bytes) {s : State} (hready : rxReady s = true) (hrx : s.rxIn = [])
    (hroom : ∀ k, s.params.bufCap = some k → s.carry.length + bytes.length ≤ k) :
    Runs (lineMoves (.rx bytes)) s { s with carry := s.carry ++ bytes } := by
  induction bytes generalizing s with
  | nil =>
    rw [List.append_nil]
    exact runs_nil s
  | cons b bytes ih =>
    rw [List.mem_cons, not_or] at hzero
    have hstored : afterPush s b = appendByte b s := by
      have hspace : roomFor s.params.bufCap s.carry.length = true :=
        roomFor_of_lt fun k hk => Nat.lt_of_lt_of_le (by simp) (hroom k hk)
      rw [afterPush, if_neg (by exact Ne.symm hzero.1), if_pos hspace]
    have hfirst := runs_push b hready hrx
    rw [hstored] at hfirst
    have hrest := ih (s := appendByte b s) hzero.2 hready hrx fun k hk => by
      have hle := hroom k hk
      simp only [appendByte_carry, List.length_append, List.length_cons, List.length_nil] at hle ⊢
      omega
    rw [appendByte_carry, List.append_assoc] at hrest
    exact hfirst.append hrest

/-- A frame that fits, from a frame start, and its delimiter emit the frame's event (R112). -/
theorem runs_frame {body : List Byte} (hzero : 0x00#8 ∉ body) {s : State} (hready : rxReady s = true) (hrx : s.rxIn = [])
    (hcarry : s.carry = []) (hclean : s.poison = false) (hroom : ∀ k, s.params.bufCap = some k → body.length ≤ k) :
    Runs (lineMoves (.rx (body ++ [delimByte]))) s { s with rxo := s.rxo ++ [eventOf (codecDecode body)] } := by
  have hbody := runs_data hzero hready hrx fun k hk => by
    have hle := hroom k hk
    rw [hcarry]
    simpa using hle
  have hdelim := runs_push delimByte (s := { s with carry := s.carry ++ body }) hready hrx
  have hend : afterPush { s with carry := s.carry ++ body } delimByte =
      { s with rxo := s.rxo ++ [eventOf (codecDecode body)] } := by
    refine (afterPush_delim _).trans ?_
    simp [endFrame, frameEvent, emit, cutFrame, clearPoison, hclean, hcarry]
  rw [hend] at hdelim
  have hmoves : lineMoves (.rx (body ++ [delimByte])) = lineMoves (.rx body) ++ rxMoves (pushBeat delimByte) := by
    simp [lineMoves]
  rw [hmoves]
  exact hbody.append hdelim

/-- What a token's frame has to be for its message to arrive whole: its encoding holds no delimiter, fits the smallest buffer of
a transfer, and decodes to the token (R70). -/
structure TokenFrame (tok : List Byte) : Prop where
  zeroFree : 0x00#8 ∉ codecEncode false tok
  fits : (codecEncode false tok).length ≤ tokSizeAck.length + codecOvh
  decodes : codecDecode (codecEncode false tok) = .ok tok

/-- Both tokens have such frames. -/
theorem tokenFrame_of_acknowledges {st : EngineState} {tok : List Byte} (h : acknowledges st tok = true) : TokenFrame tok := by
  obtain ⟨-, rfl⟩ | ⟨-, rfl⟩ := acknowledges_cases h
  · exact ⟨by decide, by decide, by decide⟩
  · exact ⟨by decide, by decide, by decide⟩

/-! ### The state between two frames of a transfer -/

/-- Between two frames: the block is open at a frame start, nothing is offered and nothing is left to take, no command is in
progress, and there is room for the acknowledgements and for the engine's operands. -/
structure BetweenFrames (s : State) : Prop where
  opened : s.closed = false
  carry : s.carry = []
  clean : s.poison = false
  rxIn : s.rxIn = []
  cmdIn : s.cmdIn = []
  operand : s.operand = []
  tooLong : s.tooLong = false
  taken : s.host.taken = s.rxo.length
  rspTaken : s.host.rspTaken = s.rspo.length
  notCalling : s.host.call = .idle
  operands : operandsFit s
  buffer : ∀ k, s.params.bufCap = some k → tokSizeAck.length + codecOvh ≤ k
  events : s.params.evCap ≠ some 0

/-- A transfer starts between frames (R214). -/
theorem TransferReady.betweenFrames {s : State} (hs : TransferReady s) : BetweenFrames s := by
  obtain ⟨hopened, ⟨hcarry, hclean⟩, ⟨hrx, hcmd, hoperand, htooLong⟩, ⟨htaken, hrspTaken⟩, ⟨-, hcall, -, -⟩, -, hoperands,
    hbuffer, hevents⟩ := hs
  exact ⟨hopened, hcarry, hclean, hrx, hcmd, hoperand, htooLong, htaken, hrspTaken, hcall, hoperands, hbuffer, hevents⟩

/-- Between frames the RX agent is ready: every event is taken, and the block can hold one (R226). -/
theorem BetweenFrames.rxReady {s : State} (hs : BetweenFrames s) : rxReady s = true := by
  refine rxReady_of_room hs.opened fun k hk => ?_
  have hk0 : k ≠ 0 := fun h => hs.events (by rw [hk, h])
  rw [hs.taken]
  omega

/-- Between frames the host's thread is free (R166). -/
theorem BetweenFrames.hostFree {s : State} (hs : BetweenFrames s) : hostFree s = true := by
  have hnone : commandOpen s = false := commandOpen_eq_false (.inl ⟨hs.cmdIn, hs.operand, hs.tooLong⟩)
  simp [Machine.hostFree, hs.notCalling, hnone]

/-- That a state is between frames depends, of the traces, on their lengths only, and of the host on its counts, call and capacity. -/
theorem BetweenFrames.of_counts {s : State} (hs : BetweenFrames s) {rxo : List Event} {rspo : List Response} {host : HostState}
    (htaken : host.taken = rxo.length) (hrspTaken : host.rspTaken = rspo.length) (hcall : host.call = .idle)
    (hcapacity : host.capacity = s.host.capacity) : BetweenFrames { s with rxo := rxo, rspo := rspo, host := host } where
  opened := hs.opened
  carry := hs.carry
  clean := hs.clean
  rxIn := hs.rxIn
  cmdIn := hs.cmdIn
  operand := hs.operand
  tooLong := hs.tooLong
  taken := htaken
  rspTaken := hrspTaken
  notCalling := hcall
  operands := fun k hk => ⟨(hs.operands k hk).1, hcapacity ▸ (hs.operands k hk).2⟩
  buffer := hs.buffer
  events := hs.events

/-! ### A token arrives and is taken (R70, R157) -/

/-- The state with a token's event emitted and taken. -/
def withTokenTaken (tok : List Byte) (s : State) : State :=
  { s with rxo := s.rxo ++ [.msg tok], host := { s.host with taken := s.host.taken + 1, rxSent := 0 } }

/-- It is between frames again. -/
theorem BetweenFrames.withTokenTaken {s : State} (hs : BetweenFrames s) (tok : List Byte) :
    BetweenFrames (withTokenTaken tok s) :=
  hs.of_counts (by simp [hs.taken]) hs.rspTaken hs.notCalling rfl

/-- The token that the engine waits for arrives as a frame and the host takes it: the engine goes on to the next chunk. -/
theorem runs_token {tok : List Byte} {s t : State} (hs : BetweenFrames s) (hack : acknowledges s.host.st tok = true)
    (hnext : ∀ ms, sendNextChunk { withTokenTaken tok s with sched := ms } = .next { t with sched := ms }) :
    Runs (lineMoves (.rx (frameBytes false tok)) ++ [Move.host .takeEvent]) s t := by
  have htok := tokenFrame_of_acknowledges hack
  have hframe := runs_frame htok.zeroFree hs.rxReady hs.rxIn hs.carry hs.clean
    fun k hk => htok.fits.trans (hs.buffer k hk)
  rw [htok.decodes] at hframe
  refine hframe.append (runs_single fun ms => ?_)
  have hoffered : (s.rxo ++ [eventOf (.ok tok)])[s.host.taken]? = some (.msg tok) := by
    rw [hs.taken, List.getElem?_concat_length]
    rfl
  rw [← hnext ms]
  exact hostTakeEvent_token (s := { s with rxo := s.rxo ++ [eventOf (.ok tok)], sched := ms }) hs.hostFree hoffered hack

/-! ### The engine's command is handled and its frame written (R155, R159) -/

/-- The command agent's moves, as many as beats are offered or more: it idles once none is left (R48, R201). -/
theorem runSteps_cmd {m : Nat} {ws : List (BitVec 10)} {s : State} {ms : List Move} (hs : s.sched = List.replicate m Move.cmd ++ ms)
    (hw : s.cmdIn = ws) (hm : ws.length ≤ m) : runSteps m s = .next (withPorts s.rxIn [] ms (ws.foldl afterBeat s)) := by
  induction m generalizing s ws with
  | zero =>
    obtain rfl : ws = [] := List.length_eq_zero_iff.1 (Nat.le_zero.1 hm)
    exact congrArg _ (withPorts_self rfl hw hs).symm
  | succ m ih =>
    cases ws with
    | nil =>
      have hidle : step s = .next (withPorts s.rxIn [] (List.replicate m Move.cmd ++ ms) s) := by
        rw [step_of_sched hs, ← withSched_eq_withPorts rfl hw]
        simp [perform, cmdAgent, hw]
      rw [runSteps_succ hidle]
      exact ih (ws := []) rfl rfl (Nat.zero_le m)
    | cons w ws =>
      rw [runSteps_succ (step_cmd hs hw), ih rfl rfl (Nat.le_of_succ_le_succ hm), foldl_afterBeat_withPorts]
      rfl

/-- With nothing offered they change nothing. -/
theorem runs_cmd_idle (m : Nat) {s : State} (hcmd : s.cmdIn = []) : Runs (List.replicate m Move.cmd) s s := by
  intro ms
  rw [List.length_replicate, withSched_eq_withPorts rfl hcmd ms]
  exact runSteps_cmd (s := { s with sched := List.replicate m Move.cmd ++ ms }) rfl hcmd (Nat.zero_le m)

/-- Enough moves of the command agent handle a command issued between frames. -/
theorem runs_commandBeats (op : CmdOp) {operand : List Byte} {m : Nat} (hm : operand.length < m) {s : State}
    (hs : BetweenFrames s) :
    Runs (List.replicate m Move.cmd) (issueCommand op operand s)
      { s with rspo := s.rspo ++ [command s.params op operand], host := (issueCommand op operand s).host } := by
  intro ms
  have hoffered : (issueCommand op operand s).cmdIn = commandBeats op operand := by rw [issueCommand_cmdIn, hs.cmdIn, List.nil_append]
  have hlength : (commandBeats op operand).length ≤ m := by simpa [commandBeats, operandBeats] using hm
  have hrun := runSteps_cmd (s := { issueCommand op operand s with sched := List.replicate m Move.cmd ++ ms }) rfl hoffered hlength
  rw [foldl_afterBeat_commandBeats op operand (by exact hs.operand) (by exact hs.tooLong)] at hrun
  rw [List.length_replicate, hrun]
  simp [withPorts, issueCommand, hs.cmdIn]

/-- The state with the engine's command answered and the response taken as the waiting frame. -/
def withFrameBuilt (frame : List Byte) (s : State) : State :=
  { s with
    rspo := s.rspo ++ [⟨.ok, frame⟩]
    host := frameBuilt ⟨.ok, frame⟩ { s.host with rspTaken := s.host.rspTaken + 1, rspSent := 0 } }

/-- Its response is the one the engine waits for. -/
theorem runs_engineCommand (op : CmdOp) {operand frame : List Byte} {m : Nat} (hm : operand.length < m) {s : State}
    (hs : BetweenFrames s) (hok : command s.params op operand = ⟨.ok, frame⟩) :
    Runs (List.replicate m Move.cmd ++ [Move.host .takeResponse]) (issueCommand op operand s) (withFrameBuilt frame s) := by
  have hbeats := runs_commandBeats op hm hs
  rw [hok] at hbeats
  refine hbeats.append (runs_single fun ms => ?_)
  have hplace : s.rspo.length + commandsOffered s = s.host.rspTaken := by
    simp [commandsOffered, hs.cmdIn, hs.rspTaken]
  have hanswer : (s.rspo ++ [⟨.ok, frame⟩])[s.host.rspTaken]? = some ⟨.ok, frame⟩ := by
    rw [hs.rspTaken, List.getElem?_concat_length]
  exact hostTakeResponse_awaited (s := { s with
    rspo := s.rspo ++ [⟨.ok, frame⟩], host := (issueCommand op operand s).host, sched := ms }) hanswer (congrArg Call.waits hplace)

/-- The state with a frame written, and the engine waiting for its acknowledgement. -/
def withFrameWritten (frame : List Byte) (st : EngineState) (offset : Nat) (s : State) : State :=
  { s with
    rspo := s.rspo ++ [⟨.ok, frame⟩]
    host := { s.host with
      rspTaken := s.host.rspTaken + 1, rspSent := 0, call := .idle, frame := [], txo := s.host.txo ++ [frame], st := st, offset := offset } }

/-- It is between frames again. -/
theorem BetweenFrames.withFrameWritten {s : State} (hs : BetweenFrames s) (frame : List Byte) (st : EngineState) (offset : Nat) :
    BetweenFrames (withFrameWritten frame st offset s) :=
  hs.of_counts hs.taken (by simp [hs.rspTaken]) rfl rfl

/-- The size frame goes through the gate (R153, R155). -/
theorem runs_writable_size {s : State} (hst : s.host.st = .idle) (frame : List Byte) :
    Runs [Move.host .writable] (withFrameBuilt frame s) (withFrameWritten frame .awaitingSizeAck s.host.offset s) :=
  runs_single fun ms => hostWritable_announcingSize (s := { withFrameBuilt frame s with sched := ms })
    (by simp [withFrameBuilt, hst, builtState])

/-- A chunk frame goes through the gate, and the cursor moves (R159, R160). -/
theorem runs_writable_chunk {s : State} (hst : s.host.st = .awaitingSizeAck ∨ s.host.st = .awaitingChunkAck)
    (frame : List Byte) :
    Runs [Move.host .writable] (withFrameBuilt frame s)
      (withFrameWritten frame .awaitingChunkAck (s.host.offset + s.host.capacity) s) :=
  runs_single fun ms => hostWritable_sendingChunk (s := { withFrameBuilt frame s with sched := ms })
    (by obtain hst | hst := hst <;> simp [withFrameBuilt, hst, builtState])

/-! ### The start, a round, and the last round of a transfer -/

/-- A command within `OP_CAP` is answered by its operation (R189). -/
theorem command_of_fits {p : Params} {operand : List Byte} (hfits : ∀ k, p.opCap = some k → operand.length ≤ k) (op : CmdOp) :
    command p op operand = answerOf p.tail01 op operand := by
  have hshort : operandTooLong p operand = false := by
    cases hcap : p.opCap with
    | none => exact operandTooLong_none hcap _
    | some k => simpa [operandTooLong_some hcap] using hfits k hcap
  rw [command, hshort]
  rfl

/-- `START` with an accepted configuration and the thread free announces the size (R155, R156). -/
theorem runs_start {s : State} (hst : s.host.st = .idle) (haccepted : configAccepted s.host = true) (hfree : hostFree s = true) :
    Runs [Move.host .start] s (issueCommand .frame (le32 (BitVec.ofNat 32 s.host.data.length)) s) :=
  runs_single fun _ => if_pos ⟨hst, haccepted, hfree⟩

/-- From `START` to the size frame written (R155). -/
theorem runs_startMoves {s : State} (hs : TransferReady s) :
    Runs startMoves s
      (withFrameWritten (sizeFrame s.params.tail01 s.host.data) .awaitingSizeAck s.host.offset s) := by
  have hstart := runs_start hs.idle.1 hs.accepted hs.betweenFrames.hostFree
  have hcommand := runs_engineCommand .frame (Nat.lt_succ_self csumSize) hs.betweenFrames
    (command_of_fits (operand := le32 (BitVec.ofNat 32 s.host.data.length)) (fun k hk => (hs.operands k hk).1) .frame)
  exact (hstart.append hcommand).append (runs_writable_size hs.idle.1 _)

/-- The moves of an acknowledgement: the token, the command and its response, the gate. -/
theorem ackMoves_eq (tok : List Byte) (capacity : Nat) :
    ackMoves tok capacity = (lineMoves (.rx (frameBytes false tok)) ++ [Move.host .takeEvent]) ++
      ((List.replicate (capacity + 1) Move.cmd ++ [Move.host .takeResponse]) ++ [Move.host .writable]) := by
  simp [ackMoves]

/-- A round while data remains: the next chunk frame is written (R157, R159). -/
theorem runs_ackMoves_more {tok : List Byte} {s : State} (hs : BetweenFrames s) (hack : acknowledges s.host.st tok = true)
    (hmore : s.host.offset < s.host.data.length) :
    Runs (ackMoves tok s.host.capacity) s
      (withFrameWritten (frameBytes s.params.tail01 (attachBytes (chunkAt s.host.data s.host.capacity s.host.offset)))
        .awaitingChunkAck (s.host.offset + s.host.capacity) (withTokenTaken tok s)) := by
  have hlength : (chunkAt s.host.data s.host.capacity s.host.offset).length ≤ s.host.capacity := by
    rw [chunkAt_eq_take]
    exact List.length_take_le _ _
  have htoken := runs_token hs hack (t := issueCommand .chunk (chunkAt s.host.data s.host.capacity s.host.offset)
    (withTokenTaken tok s)) fun ms => sendNextChunk_more (s := { withTokenTaken tok s with sched := ms }) hmore
  have hcommand := runs_engineCommand .chunk (Nat.lt_succ_of_le hlength) (hs.withTokenTaken tok)
    (command_of_fits (fun k hk => hlength.trans (hs.operands k hk).2) .chunk)
  have hst : s.host.st = .awaitingSizeAck ∨ s.host.st = .awaitingChunkAck :=
    (acknowledges_cases hack).imp And.left And.left
  rw [ackMoves_eq]
  exact htoken.append (hcommand.append (runs_writable_chunk (s := withTokenTaken tok s) hst _))

/-- The state with the engine done. -/
def withEngineDone (s : State) : State := { s with host := { s.host with st := .done } }

/-- It is between frames as before. -/
theorem BetweenFrames.withEngineDone {s : State} (hs : BetweenFrames s) : BetweenFrames (withEngineDone s) :=
  hs.of_counts hs.taken hs.rspTaken hs.notCalling rfl

/-- With the engine done the moves behind the last token find nothing to do (R152, R201). -/
theorem runs_when_done (m : Nat) {s : State} (hs : BetweenFrames s) (hst : s.host.st = .done) :
    Runs ((List.replicate m Move.cmd ++ [Move.host .takeResponse]) ++ [Move.host .writable]) s s := by
  have hresponse : Runs [Move.host .takeResponse] s s := runs_single fun ms =>
    hostTakeResponse_none (s := { s with sched := ms }) (List.getElem?_eq_none hs.rspTaken.ge)
  have hgate : Runs [Move.host .writable] s s := runs_single fun ms =>
    hostWritable_other (s := { s with sched := ms }) (by simp [hst]) (by simp [hst])
  exact ((runs_cmd_idle m hs.cmdIn).append hresponse).append hgate

/-- The last round: no data remains, and the engine is done (R161). -/
theorem runs_ackMoves_done {tok : List Byte} {s : State} (hs : BetweenFrames s) (hack : acknowledges s.host.st tok = true)
    (hdone : s.host.data.length ≤ s.host.offset) :
    Runs (ackMoves tok s.host.capacity) s (withEngineDone (withTokenTaken tok s)) := by
  have htoken := runs_token hs hack (t := withEngineDone (withTokenTaken tok s))
    fun ms => sendNextChunk_done (s := { withTokenTaken tok s with sched := ms }) hdone
  rw [ackMoves_eq]
  exact htoken.append (runs_when_done _ (hs.withTokenTaken tok).withEngineDone rfl)

/-! ### The rounds of a transfer -/

/-- The engine waits for the acknowledgement of the size frame, or of chunk `k - 1`, with `k` chunk frames written. -/
structure AwaitsAck (k : Nat) (s : State) : Prop where
  between : BetweenFrames s
  st : s.host.st = if k = 0 then .awaitingSizeAck else .awaitingChunkAck
  offset : s.host.offset = k * s.host.capacity
  wrote : Wrote s k

/-- The token that acknowledges it (R70). -/
def awaitedToken (k : Nat) : List Byte := if k = 0 then tokSizeAck else tokAck

/-- It is recognised (R157). -/
theorem AwaitsAck.acknowledges {k : Nat} {s : State} (hs : AwaitsAck k s) : acknowledges s.host.st (awaitedToken k) = true := by
  rw [hs.st, awaitedToken]
  split <;> rfl

/-- The frames written with one chunk more. -/
theorem framesWritten_succ (tail01 : Bool) (data : List Byte) (capacity k : Nat) :
    framesWritten tail01 data capacity (k + 1) =
      framesWritten tail01 data capacity k ++ [chunkFrame tail01 data capacity k] := by
  simp [framesWritten, List.range_succ]

/-- Chunk `k` is there when `k` is less than the number of chunks (R14, R164). -/
theorem lt_chunkCount_iff {length capacity : Nat} (hcapacity : 1 ≤ capacity) (k : Nat) :
    k < chunkCount length capacity ↔ k * capacity < length := by
  rw [chunkCount, Nat.lt_iff_add_one_le, Nat.le_div_iff_mul_le hcapacity, Nat.add_mul]
  omega

/-- A transfer that has ended with `n` chunk frames written. -/
structure Finished (n : Nat) (s : State) : Prop where
  st : s.host.st = .done
  offset : s.host.offset = n * s.host.capacity
  wrote : Wrote s n

/-- After `START` the engine waits for the acknowledgement of the size frame. -/
theorem awaitsAck_zero {s : State} (hs : TransferReady s) :
    AwaitsAck 0 (withFrameWritten (sizeFrame s.params.tail01 s.host.data) .awaitingSizeAck s.host.offset s) where
  between := hs.betweenFrames.withFrameWritten _ _ _
  st := rfl
  offset := by
    obtain ⟨-, -, hoffset, -⟩ := hs.idle
    simp [withFrameWritten, hoffset]
  wrote := by
    obtain ⟨-, -, -, htxo⟩ := hs.idle
    simp [Wrote, withFrameWritten, framesWritten, htxo]

/-- A round with data left writes chunk `k` and waits for its acknowledgement (R159, R160). -/
theorem AwaitsAck.round {k : Nat} {s : State} (hs : AwaitsAck k s) (hmore : k * s.host.capacity < s.host.data.length) :
    ∃ t, Runs (ackMoves (awaitedToken k) s.host.capacity) s t ∧ SameFixed s t ∧ AwaitsAck (k + 1) t := by
  refine ⟨_, runs_ackMoves_more hs.between hs.acknowledges (hs.offset ▸ hmore), ⟨rfl, rfl, rfl⟩,
    (hs.between.withTokenTaken _).withFrameWritten _ _ _, rfl, ?_, ?_⟩
  · simp [withFrameWritten, withTokenTaken, hs.offset, Nat.add_mul]
  · have hwrote : s.host.txo = _ := hs.wrote
    simp [Wrote, withFrameWritten, withTokenTaken, framesWritten_succ, hwrote, chunkFrame, chunkOf, hs.offset]

/-- The round with no data left ends the transfer (R161). -/
theorem AwaitsAck.lastRound {k : Nat} {s : State} (hs : AwaitsAck k s) (hdone : s.host.data.length ≤ k * s.host.capacity) :
    ∃ t, Runs (ackMoves (awaitedToken k) s.host.capacity) s t ∧ SameFixed s t ∧ Finished k t :=
  ⟨_, runs_ackMoves_done hs.between hs.acknowledges (hs.offset ▸ hdone), ⟨rfl, rfl, rfl⟩, rfl, hs.offset, hs.wrote⟩

/-- What is fixed before a run stays so over two parts of it. -/
theorem SameFixed.trans {s t u : State} (hst : SameFixed s t) (htu : SameFixed t u) : SameFixed s u :=
  ⟨htu.params.trans hst.params, htu.data.trans hst.data, htu.capacity.trans hst.capacity⟩

/-- With `m` chunks left, `m` rounds and the last one end the transfer. -/
theorem AwaitsAck.finishes {m k : Nat} {s : State} (hs : AwaitsAck k s) (hcapacity : 1 ≤ s.host.capacity)
    (hcount : chunkCount s.host.data.length s.host.capacity = k + m) :
    ∃ t, Runs (ackMoves (awaitedToken k) s.host.capacity ++ (List.replicate m (ackMoves tokAck s.host.capacity)).flatten) s t ∧
      SameFixed s t ∧ Finished (k + m) t := by
  induction m generalizing k s with
  | zero =>
    have hdone : s.host.data.length ≤ k * s.host.capacity := by
      rw [← Nat.not_lt, ← lt_chunkCount_iff hcapacity, hcount]
      omega
    obtain ⟨t, hrun, hfixed, hfinished⟩ := hs.lastRound hdone
    exact ⟨t, hrun.append (runs_nil t), hfixed, hfinished⟩
  | succ m ih =>
    have hmore : k * s.host.capacity < s.host.data.length := by
      rw [← lt_chunkCount_iff hcapacity, hcount]
      omega
    obtain ⟨t, hrun, hfixed, ht⟩ := hs.round hmore
    obtain ⟨u, hrest, hfixed', hfinished⟩ := ih ht (by rwa [hfixed.capacity])
      (by rw [hfixed.data, hfixed.capacity, hcount]; omega)
    rw [hfixed.capacity] at hrest
    rw [Nat.add_right_comm] at hfinished
    exact ⟨u, hrun.append hrest, hfixed.trans hfixed', hfinished⟩

/-- A whole transfer: the start, and then the rounds (R164). -/
theorem runs_transferMoves {s : State} (hs : TransferReady s) :
    ∃ t, Runs (transferMoves (chunkCount s.host.data.length s.host.capacity) s.host.capacity) s t ∧ SameFixed s t ∧
      Finished (chunkCount s.host.data.length s.host.capacity) t := by
  have hcapacity : 1 ≤ s.host.capacity := by
    have haccepted := hs.accepted
    simp only [configAccepted, Bool.and_eq_true, decide_eq_true_eq] at haccepted
    exact haccepted.1
  obtain ⟨t, hrounds, ⟨hparams, hdata, hcap⟩, hfinished⟩ := (awaitsAck_zero hs).finishes hcapacity (Nat.zero_add _).symm
  rw [Nat.zero_add] at hfinished
  refine ⟨t, ?_, ⟨hparams, hdata, hcap⟩, hfinished⟩
  rw [transferMoves, List.append_assoc]
  exact (runs_startMoves hs).append hrounds

/-- Settles O59: the schedule is the transfer's moves with others behind them. -/
theorem acknowledgedTransferCompletes : Obligations.AcknowledgedTransferCompletes := by
  intro s ms hs n moves hsched
  obtain ⟨t, hrun, hfixed, hfinished⟩ := runs_transferMoves hs
  refine ⟨{ t with sched := ms }, ?_, rfl, hfinished.st, ?_, ?_⟩
  · rw [← hrun ms, ← hsched]
  · rw [← hfixed.capacity]
    exact hfinished.offset
  · rw [← hfixed.params, ← hfixed.data, ← hfixed.capacity]
    exact hfinished.wrote

end Sys2Proof.Machine
end

section
/-! PROOF. `encode` as a sequence of blocks (R90, R91), and what the blocks give: no zero byte (R93), decode undoes it (R94), and its
length (R95). -/

namespace Sys2Proof.Machine

/-! ### The blocks of a segment -/

/-- The code byte of a block of fewer than 254 data bytes (R91). -/
def shortCode (g : List Byte) : Byte := BitVec.ofNat 8 (g.length + 1)

theorem shortCode_toNat {g : List Byte} (hg : g.length < 254) : (shortCode g).toNat = g.length + 1 := by
  rw [shortCode, BitVec.toNat_ofNat]
  omega

theorem shortCode_ne_zero {g : List Byte} (hg : g.length < 254) : 0x00#8 ≠ shortCode g := by
  intro h
  have hcode := shortCode_toNat hg
  rw [← h] at hcode
  exact absurd hcode (Nat.succ_ne_zero _).symm

/-- `segenc` with 254 for the length of a full run (R91). -/
theorem segenc_eq (tail01 : Bool) (g : List Byte) (last : Bool) :
    segenc tail01 g last = fullBlocks (g.length / 254) g ++
      (if last = true ∧ 0 < g.length ∧ g.length % 254 = 0 ∧ tail01 = false then []
        else shortCode (g.drop (254 * (g.length / 254))) :: g.drop (254 * (g.length / 254))) := rfl

/-- A segment with no full run is one block (R91). -/
theorem segenc_short (tail01 : Bool) {g : List Byte} (hg : g.length < 254) (last : Bool) :
    segenc tail01 g last = shortCode g :: g := by
  have hdiv : g.length / 254 = 0 := Nat.div_eq_of_lt hg
  have hclosed : ¬ (last = true ∧ 0 < g.length ∧ g.length % 254 = 0 ∧ tail01 = false) := by omega
  rw [segenc_eq, hdiv, if_neg hclosed, fullBlocks, Nat.mul_zero, List.drop_zero, List.nil_append]

/-- A segment's first full run is a block of its own; what is left of the segment is encoded as a segment is, unless nothing is left of
the last segment and no closing block is wanted (R91). -/
theorem segenc_full (tail01 : Bool) {r : List Byte} (hr : r.length = 254) {g : List Byte} {last : Bool}
    (hmore : ¬ (g = [] ∧ last = true ∧ tail01 = false)) :
    segenc tail01 (r ++ g) last = 0xFF#8 :: (r ++ segenc tail01 g last) := by
  have hdiv : (r ++ g).length / 254 = g.length / 254 + 1 := by rw [List.length_append]; omega
  have hmod : (r ++ g).length % 254 = g.length % 254 := by rw [List.length_append]; omega
  have htake : (r ++ g).take 254 = r := by rw [← hr, List.take_left]
  have hdrop (k : Nat) : (r ++ g).drop (254 + k) = g.drop k := by rw [← hr, List.drop_length_add_append]
  have htail : 254 * (g.length / 254 + 1) = 254 + 254 * (g.length / 254) := by omega
  have hfull : fullBlocks (g.length / 254 + 1) (r ++ g) = 0xFF#8 :: (r ++ fullBlocks (g.length / 254) g) := by
    rw [fullBlocks, runMax, htake, ← Nat.add_zero 254, hdrop, List.drop_zero, List.cons_append]
  have hclosed : (last = true ∧ 0 < (r ++ g).length ∧ g.length % 254 = 0 ∧ tail01 = false) ↔
      (last = true ∧ 0 < g.length ∧ g.length % 254 = 0 ∧ tail01 = false) := by
    cases g with
    | nil => simpa [hr] using hmore
    | cons b g => simp
  rw [segenc_eq, segenc_eq, hdiv, hmod, hfull, htail, hdrop, if_congr hclosed rfl rfl, List.cons_append, List.append_assoc]

/-- The last segment's full run with nothing behind it, and no closing block (R91). -/
theorem segenc_full_last {r : List Byte} (hr : r.length = 254) : segenc false r true = 0xFF#8 :: r := by
  have htake : r.take 254 = r := by rw [← hr, List.take_length]
  simp [segenc_eq, hr, fullBlocks, runMax, htake]

/-! ### The blocks of a payload -/

/-- A zero-free piece joins the first segment of what is behind it (R90). -/
theorem segments_append {r : List Byte} (hr : 0x00#8 ∉ r) {p g : List Byte} {gs : List (List Byte)} (h : segments p = g :: gs) :
    segments (r ++ p) = (r ++ g) :: gs := by
  induction r with
  | nil => exact h
  | cons b r ih =>
    rw [List.mem_cons, not_or] at hr
    obtain ⟨g', gs', hrest, hcons⟩ := segments_cons (Ne.symm hr.1) (r ++ p)
    rw [ih hr.2] at hrest
    cases hrest
    exact hcons

/-- A segment that is not the last (R91). -/
theorem encodeSegments_cons (tail01 : Bool) (g : List Byte) {gs : List (List Byte)} (hgs : gs ≠ []) :
    encodeSegments tail01 (g :: gs) = segenc tail01 g false ++ encodeSegments tail01 gs := by
  cases gs with
  | nil => exact absurd rfl hgs
  | cons g' gs => rfl

/-- A payload that is one short run (R91). -/
theorem codecEncode_short (tail01 : Bool) {g : List Byte} (hg : g.length < 254) (hzero : 0x00#8 ∉ g) :
    codecEncode tail01 g = shortCode g :: g := by
  rw [codecEncode, segments_of_zero_free hzero, encodeSegments, segenc_short tail01 hg]

/-- A short run and a zero, which the block stands for (R91). -/
theorem codecEncode_zero (tail01 : Bool) {g : List Byte} (hg : g.length < 254) (hzero : 0x00#8 ∉ g) (p : List Byte) :
    codecEncode tail01 (g ++ 0x00#8 :: p) = shortCode g :: (g ++ codecEncode tail01 p) := by
  rw [codecEncode, segments_append_zero hzero, encodeSegments_cons tail01 g (segments_ne_nil p), segenc_short tail01 hg,
    List.cons_append, codecEncode]

/-- A full run with a block behind it (R91). -/
theorem codecEncode_full {tail01 : Bool} {r : List Byte} (hr : r.length = 254) (hzero : 0x00#8 ∉ r) {p : List Byte}
    (hmore : p ≠ [] ∨ tail01 = true) :
    codecEncode tail01 (r ++ p) = 0xFF#8 :: (r ++ codecEncode tail01 p) := by
  have hjoin := joinSegments_segments p
  cases hsegs : segments p with
  | nil => exact absurd hsegs (segments_ne_nil p)
  | cons g gs =>
    rw [hsegs] at hjoin
    rw [codecEncode, codecEncode, segments_append hzero hsegs, hsegs]
    cases gs with
    | nil =>
      refine segenc_full tail01 hr ?_
      rintro ⟨rfl, -, rfl⟩
      exact hmore.elim (fun hne => hne hjoin.symm) Bool.false_ne_true
    | cons g' gs =>
      rw [encodeSegments_cons _ _ (List.cons_ne_nil g' gs), encodeSegments_cons _ _ (List.cons_ne_nil g' gs),
        segenc_full tail01 hr (fun h => Bool.false_ne_true h.2.1), List.cons_append, List.append_assoc]

/-- A full run that ends the payload, with no closing block (R91). -/
theorem codecEncode_full_last {r : List Byte} (hr : r.length = 254) (hzero : 0x00#8 ∉ r) : codecEncode false r = 0xFF#8 :: r := by
  rw [codecEncode, segments_of_zero_free hzero, encodeSegments, segenc_full_last hr]

/-- A payload and its encoding, cut at the blocks (R91): the last block, a short block that stands for a zero too, a full block with
others behind it, and a full block that is the last. -/
inductive BlockEncoding (tail01 : Bool) : List Byte → List Byte → Prop where
  | last {g : List Byte} (hg : g.length < 254) (hzero : 0x00#8 ∉ g) : BlockEncoding tail01 g (shortCode g :: g)
  | zero {g p w : List Byte} (hg : g.length < 254) (hzero : 0x00#8 ∉ g) (hp : BlockEncoding tail01 p w) :
      BlockEncoding tail01 (g ++ 0x00#8 :: p) (shortCode g :: (g ++ w))
  | full {r p w : List Byte} (hr : r.length = 254) (hzero : 0x00#8 ∉ r) (hmore : p ≠ [] ∨ tail01 = true)
      (hp : BlockEncoding tail01 p w) : BlockEncoding tail01 (r ++ p) (0xFF#8 :: (r ++ w))
  | fullLast {r : List Byte} (hr : r.length = 254) (hzero : 0x00#8 ∉ r) (htail : tail01 = false) :
      BlockEncoding tail01 r (0xFF#8 :: r)

/-- A payload begins with a zero-free run, up to its end or to a zero (R90). -/
theorem zeroFree_run (p : List Byte) : ∃ g q, p = g ++ q ∧ 0x00#8 ∉ g ∧ (q = [] ∨ ∃ p', q = 0x00#8 :: p') := by
  have hjoin := joinSegments_segments p
  have hfree := segments_zero_free p
  cases hsegs : segments p with
  | nil => exact absurd hsegs (segments_ne_nil p)
  | cons g gs =>
    rw [hsegs] at hjoin hfree
    have hg := hfree g List.mem_cons_self
    cases gs with
    | nil => exact ⟨g, [], by rw [List.append_nil]; exact hjoin.symm, hg, .inl rfl⟩
    | cons g' gs => exact ⟨g, _, hjoin.symm, hg, .inr ⟨_, rfl⟩⟩

/-- `encode(p)` is the blocks of `p` (R91). -/
theorem blockEncoding_codecEncode (tail01 : Bool) (p : List Byte) : BlockEncoding tail01 p (codecEncode tail01 p) := by
  induction hn : p.length using Nat.strong_induction_on generalizing p with
  | _ n ih =>
  obtain ⟨g, q, rfl, hzero, hq⟩ := zeroFree_run p
  rw [List.length_append] at hn
  by_cases hfull : 254 ≤ g.length
  · obtain ⟨r, g', rfl, hr⟩ : ∃ r g', g = r ++ g' ∧ r.length = 254 :=
      ⟨g.take 254, g.drop 254, (List.take_append_drop 254 g).symm, by rw [List.length_take]; omega⟩
    have hr0 : 0x00#8 ∉ r := fun h => hzero (List.mem_append_left g' h)
    rw [List.append_assoc]
    by_cases hmore : g' ++ q ≠ [] ∨ tail01 = true
    · have hlt : (g' ++ q).length < n := by rw [List.length_append] at hn ⊢; omega
      rw [codecEncode_full hr hr0 hmore]
      exact .full hr hr0 hmore (ih _ hlt _ rfl)
    · rw [not_or, not_not, Bool.not_eq_true] at hmore
      obtain ⟨hnil, rfl⟩ := hmore
      rw [hnil, List.append_nil, codecEncode_full_last hr hr0]
      exact .fullLast hr hr0 rfl
  · have hg : g.length < 254 := Nat.lt_of_not_le hfull
    obtain rfl | ⟨p', rfl⟩ := hq
    · rw [List.append_nil, codecEncode_short tail01 hg hzero]
      exact .last hg hzero
    · have hlt : p'.length < n := by rw [List.length_cons] at hn; omega
      rw [codecEncode_zero tail01 hg hzero]
      exact .zero hg hzero (ih _ hlt _ rfl)

/-! ### What the blocks give -/

/-- No block holds a zero (R93). -/
theorem BlockEncoding.zero_free {tail01 : Bool} {p w : List Byte} (h : BlockEncoding tail01 p w) : 0x00#8 ∉ w := by
  induction h with
  | last hg hzero => simp [hzero, shortCode_ne_zero hg]
  | zero hg hzero _ ih => simp [hzero, shortCode_ne_zero hg, ih]
  | full _ hzero _ _ ih => simp [hzero, ih]
  | fullLast _ hzero _ => simp [hzero]

/-- A block is one byte longer than the payload bytes it stands for, but for a short block with a zero, which is as long (R95). -/
theorem BlockEncoding.length_bounds {tail01 : Bool} {p w : List Byte} (h : BlockEncoding tail01 p w) :
    p.length + 1 ≤ w.length ∧ w.length ≤ p.length + 1 + p.length / 254 := by
  induction h with
  | last hg _ => rw [List.length_cons]; omega
  | zero hg _ _ ih => simp only [List.length_cons, List.length_append]; omega
  | full hr _ _ _ ih => simp only [List.length_cons, List.length_append]; omega
  | fullLast hr _ _ => rw [List.length_cons]; omega

/-- A short block that is all there: its bytes, and the implied zero when input follows (R98). -/
theorem decodeRest_short (n : Nat) {g : List Byte} (hg : g.length < 254) (rest out : List Byte) :
    decodeRest (n + 1) (shortCode g :: (g ++ rest)) out =
      decodeRest n rest (if rest ≠ [] then out ++ g ++ [0x00#8] else out ++ g) := by
  have hfits : ¬ (g ++ rest).length + 1 < g.length + 1 := by rw [List.length_append]; omega
  have hshort : g.length + 1 < 255 := by omega
  simp only [decodeRest, shortCode_toNat hg, if_neg hfits, Nat.add_sub_cancel, List.take_left, List.drop_left, hshort, true_and]

/-- Decode's loop reads the blocks of a payload back (R94). -/
theorem BlockEncoding.decodeRest_eq {tail01 : Bool} {p w : List Byte} (h : BlockEncoding tail01 p w) (n : Nat) (out : List Byte)
    (hn : w.length < n) : decodeRest n w out = .ok (out ++ p) := by
  induction h generalizing n out with
  | @last g hg _ =>
    obtain ⟨n, rfl⟩ : ∃ k, n = k + 2 := ⟨n - 2, by rw [List.length_cons] at hn; omega⟩
    have hrun := decodeRest_short (n + 1) hg [] out
    rwa [List.append_nil, if_neg (not_not_intro rfl)] at hrun
  | @zero g p w hg _ hp ih =>
    obtain ⟨n, rfl⟩ : ∃ k, n = k + 1 := ⟨n - 1, by omega⟩
    have hw : w ≠ [] := List.ne_nil_of_length_pos (Nat.lt_of_lt_of_le (Nat.succ_pos _) hp.length_bounds.1)
    rw [decodeRest_short n hg, if_pos hw, ih n _ (by simp at hn; omega)]
    simp
  | @full r p w hr _ _ _ ih =>
    obtain ⟨n, rfl⟩ : ∃ k, n = k + 1 := ⟨n - 1, by omega⟩
    rw [decodeRest_full n hr, ih n _ (by simp at hn; omega), List.append_assoc]
  | @fullLast r hr _ _ =>
    obtain ⟨n, rfl⟩ : ∃ k, n = k + 2 := ⟨n - 2, by rw [List.length_cons] at hn; omega⟩
    have hrun := decodeRest_full (n + 1) hr [] out
    rwa [List.append_nil] at hrun

/-- No byte of an encoding is zero (R93). -/
theorem codecEncode_zero_free (tail01 : Bool) (p : List Byte) : 0x00#8 ∉ codecEncode tail01 p :=
  (blockEncoding_codecEncode tail01 p).zero_free

/-- `decode(encode(p)) = Ok(p)` (R94). -/
theorem codecDecode_codecEncode (tail01 : Bool) (p : List Byte) : codecDecode (codecEncode tail01 p) = .ok p := by
  rw [codecDecode_eq_rest (codecEncode_zero_free tail01 p),
    (blockEncoding_codecEncode tail01 p).decodeRest_eq _ [] (Nat.lt_succ_self _), List.nil_append]

/-- Settles O26: the blocks are read back; the empty input decodes to the empty payload, whose encoding is not empty. -/
theorem codecRoundTrip : Obligations.CodecRoundTrip :=
  ⟨codecDecode_codecEncode, [], [], rfl, fun _ => List.cons_ne_nil _ _⟩

/-- Settles O25: no block holds a zero. -/
theorem encodeIsDelimiterSafe : Obligations.EncodeIsDelimiterSafe := codecEncode_zero_free

/-- A zero-free payload under `TAIL01 = true` is its full runs and one block more (R91, R95). -/
theorem codecEncode_true_length {p : List Byte} (hzero : 0x00#8 ∉ p) :
    (codecEncode true p).length = p.length + 1 + p.length / 254 := by
  rw [codecEncode, segments_of_zero_free hzero, encodeSegments, segenc_length,
    if_neg (fun ⟨_, _, _, htail⟩ => Bool.false_ne_true htail.symm), runMax]
  omega

/-- Settles O27: the bounds hold block by block, and up to 254 bytes they leave one value. -/
theorem encodeOverhead : Obligations.EncodeOverhead := by
  intro p
  have hbounds (tail01 : Bool) := (blockEncoding_codecEncode tail01 p).length_bounds
  have htight := codecEncode_false_length_le p
  refine ⟨hbounds, htight, fun hp => ?_, codecEncode_true_length⟩
  have hlow := (hbounds false).1
  omega

end Sys2Proof.Machine
end

section
/-! PROOF. The byte-at-a-time encoder writes the blocks of `encode` (R102). -/

namespace Sys2Proof.Machine

/-- The encoder inside a block: what is done, the placeholder of the block's code byte, and the block's bytes so far (R102). -/
def openBlock (done g : List Byte) : EncState :=
  { out := done ++ 0x00#8 :: g, cp := done.length, code := g.length + 1 }

/-- The end of the procedure: the last open block, where there is one, gets its code byte (R102). -/
def EncState.close (e : EncState) : List Byte :=
  if e.cp < e.out.length then e.out.set e.cp (BitVec.ofNat 8 e.code) else e.out

/-- The procedure of R102 is its loop from an empty block, and its end. -/
theorem streamEncode_eq (tail01 : Bool) (p : List Byte) : streamEncode tail01 p = (encodeBytes tail01 (openBlock [] []) p).close := rfl

/-- The end inside a block closes it (R102). -/
theorem close_openBlock (done g : List Byte) : (openBlock done g).close = done ++ shortCode g :: g := by
  simp [EncState.close, openBlock, shortCode]

/-! ### One byte of the procedure -/

/-- A byte that is not zero joins the open block while the block is not full (R102). -/
theorem encodeByte_data (tail01 : Bool) (done : List Byte) {g : List Byte} (hg : g.length + 1 < 254) {b : Byte} (hb : b ≠ 0x00#8)
    (more : Bool) : encodeByte tail01 (openBlock done g) b more = openBlock done (g ++ [b]) := by
  have hcode : g.length + 1 + 1 ≠ 255 := by omega
  simp [encodeByte, openBlock, hb, hcode]

/-- A zero closes the open block and opens the next one (R102). -/
theorem encodeByte_zero (tail01 : Bool) (done g : List Byte) (more : Bool) :
    encodeByte tail01 (openBlock done g) 0x00#8 more = openBlock (done ++ shortCode g :: g) [] := by
  simp [encodeByte, openBlock, shortCode]

/-- The byte that makes the open block full closes it; the next one is opened where a block follows (R102). -/
theorem encodeByte_full (tail01 : Bool) (done : List Byte) {g : List Byte} (hg : g.length + 1 = 254) {b : Byte} (hb : b ≠ 0x00#8)
    (more : Bool) :
    encodeByte tail01 (openBlock done g) b more =
      if more = true ∨ tail01 = true then openBlock (done ++ 0xFF#8 :: (g ++ [b])) []
      else { out := done ++ 0xFF#8 :: (g ++ [b]), cp := (done ++ 0xFF#8 :: (g ++ [b])).length, code := 1 } := by
  have hcode : g.length + 1 + 1 = 255 := by omega
  simp [encodeByte, openBlock, hb, hcode]

/-! ### A run of the payload -/

/-- A zero-free run that does not fill the open block joins it (R102). -/
theorem encodeBytes_run (tail01 : Bool) (done : List Byte) {r : List Byte} (hr : 0x00#8 ∉ r) (g p : List Byte)
    (hg : g.length + r.length < 254) :
    encodeBytes tail01 (openBlock done g) (r ++ p) = encodeBytes tail01 (openBlock done (g ++ r)) p := by
  induction r generalizing g with
  | nil => rw [List.nil_append, List.append_nil]
  | cons b r ih =>
    rw [List.mem_cons, not_or] at hr
    rw [List.length_cons] at hg
    have hrest : (g ++ [b]).length + r.length < 254 := by rw [List.length_append, List.length_singleton]; omega
    rw [List.cons_append, encodeBytes, encodeByte_data tail01 done (by omega) (Ne.symm hr.1), ih hr.2 _ hrest, List.append_assoc,
      List.singleton_append]

/-- A full run from an empty block on (R102). -/
theorem encodeBytes_full (tail01 : Bool) (done : List Byte) {r : List Byte} (hr : r.length = 254) (hzero : 0x00#8 ∉ r) (p : List Byte) :
    encodeBytes tail01 (openBlock done []) (r ++ p) =
      encodeBytes tail01 (if p ≠ [] ∨ tail01 = true then openBlock (done ++ 0xFF#8 :: r) []
        else { out := done ++ 0xFF#8 :: r, cp := (done ++ 0xFF#8 :: r).length, code := 1 }) p := by
  obtain ⟨g, b, rfl⟩ : ∃ g b, r = g ++ [b] := ⟨_, _, (List.dropLast_append_getLast (List.ne_nil_of_length_pos (by omega))).symm⟩
  rw [List.length_append, List.length_singleton] at hr
  rw [List.mem_append, List.mem_singleton, not_or] at hzero
  have hmore : ((!p.isEmpty) = true) ↔ p ≠ [] := by simp
  rw [List.append_assoc, encodeBytes_run tail01 done hzero.1 [] _ (by rw [List.length_nil]; omega), List.nil_append,
    List.singleton_append, encodeBytes, encodeByte_full tail01 done hr (Ne.symm hzero.2)]
  simp only [hmore]

/-- From an empty block on the procedure writes the blocks of the payload (R102). -/
theorem BlockEncoding.encodeBytes_close {tail01 : Bool} {p w : List Byte} (h : BlockEncoding tail01 p w) (done : List Byte) :
    (encodeBytes tail01 (openBlock done []) p).close = done ++ w := by
  induction h generalizing done with
  | @last g hg hzero =>
    have hrun := encodeBytes_run tail01 done hzero [] [] (by rwa [List.length_nil, Nat.zero_add])
    rw [List.append_nil] at hrun
    rw [hrun, encodeBytes, List.nil_append, close_openBlock]
  | @zero g p w hg hzero _ ih =>
    rw [encodeBytes_run tail01 done hzero [] _ (by rwa [List.length_nil, Nat.zero_add]), List.nil_append, encodeBytes,
      encodeByte_zero, ih, List.append_assoc, List.cons_append]
  | full hr hzero hmore _ ih =>
    rw [encodeBytes_full tail01 done hr hzero, if_pos hmore, ih, List.append_assoc, List.cons_append]
  | @fullLast r hr hzero htail =>
    have hlast : ¬ ([] ≠ ([] : List Byte) ∨ tail01 = true) := by simp [htail]
    have hrun := encodeBytes_full tail01 done hr hzero []
    rw [List.append_nil, if_neg hlast] at hrun
    rw [hrun, encodeBytes, EncState.close, if_neg (Nat.lt_irrefl _)]

/-- Settles O28: the loop starts in an empty block with nothing done. -/
theorem streamEncoderEqualsEncode : Obligations.StreamEncoderEqualsEncode := fun tail01 p =>
  (streamEncode_eq tail01 p).trans ((blockEncoding_codecEncode tail01 p).encodeBytes_close [])

end Sys2Proof.Machine
end

section
/-! PROOF. The answers of `ENC` and `FRAME` (R91, R92, R101). -/

namespace Sys2Proof.Machine

/-- The empty payload is one empty block (R91). -/
theorem codecEncode_nil (tail01 : Bool) : codecEncode tail01 [] = [0x01#8] := rfl

/-- Each zero is an empty block, and one more closes the encoding (R92). -/
theorem codecEncode_zeros (tail01 : Bool) (k : Nat) :
    codecEncode tail01 (List.replicate k 0x00#8) = List.replicate (k + 1) 0x01#8 := by
  induction k with
  | zero => rfl
  | succ k ih =>
    have hblock := codecEncode_zero tail01 (g := []) (by decide) List.not_mem_nil (List.replicate k 0x00#8)
    rw [List.nil_append, List.nil_append, ih] at hblock
    exact hblock

/-- Settles O32: the command's answer, and the corner cases block by block. -/
theorem encAnswersEncoding : Obligations.EncAnswersEncoding := by
  refine ⟨rfl, exec_opInstr .enc, codecEncode_zeros, fun r hr hzero => ⟨codecEncode_full_last hr hzero, ?_, fun tail01 b hb => ?_⟩,
    fun tail01 => ?_⟩
  · have hclosed := codecEncode_full hr hzero (p := []) (.inr rfl)
    rwa [List.append_nil, codecEncode_nil] at hclosed
  · rw [codecEncode_full hr hzero (.inl (List.cons_ne_nil b [])), codecEncode_short tail01 (g := [b]) (by decide : 1 < 254)
      (by simpa using Ne.symm hb)]
    rfl
  · cases tail01 <;> rfl

/-- Settles O34: the command's answer, and R93 for its encoding. -/
theorem frameAnswersDelimitedEncoding : Obligations.FrameAnswersDelimitedEncoding := by
  refine ⟨rfl, fun s => ⟨codecEncode s.params.tail01 s.operand, exec_opInstr .frame s, rfl, codecEncode_zero_free _ _, fun h => ?_⟩⟩
  rw [h, codecEncode_nil]

end Sys2Proof.Machine
end

section
/-! PROOF. Decode's loop one wire block at a time (R96, R98 to R100). -/

namespace Sys2Proof.Machine

/-- What the loop reads when its input has a zero anywhere (R100). -/
theorem wireNext_zero {u : Wire} (hrunning : u.status = .running) (hzero : 0x00#8 ∈ u.input) : wireNext u = some .zero := by
  simp [wireNext, hrunning, hzero]

/-! ### What a block does to the loop's variables -/

/-- The data bytes of a block whose code byte is `c` at index `i` (R98, R99). -/
theorem slice_block (w : List Byte) (i c : Nat) : slice w (i + 1) (i + c) = (w.drop (i + 1)).take (c - 1) := by
  rw [slice, Nat.add_sub_add_left]

/-- The round of decode's loop for the code byte `c` (R96): what `BLK` and `FULL` have in common. -/
def codeBlock (c : Byte) (u : Wire) : Wire :=
  if u.input.length < u.pos + c.toNat then wireFail .overrun u
  else
    wireAdvance (u.pos + c.toNat)
      (u.out ++ (u.input.drop (u.pos + 1)).take (c.toNat - 1) ++
        if c.toNat < 255 ∧ u.pos + c.toNat < u.input.length then [0x00#8] else []) u

/-- `BLK c` is the loop's round for `c` (R98). -/
theorem wireBlk_eq_codeBlock {c : Byte} (hc : c ≠ 0xFF#8) (u : Wire) : wireBlk c u = codeBlock c u := by
  have hlt : c.toNat < 255 := by bv_omega
  unfold wireBlk codeBlock
  simp only [slice_block, hlt, true_and]
  split
  · rfl
  · split
    · rfl
    · rw [List.append_nil]

/-- `FULL` is the loop's round for `0xFF` (R99). -/
theorem wireFull_eq_codeBlock (u : Wire) : wireFull u = codeBlock 0xFF#8 u := by
  have hcode : (0xFF#8).toNat = 255 := rfl
  simp only [wireFull, codeBlock, hcode, slice_block, Nat.lt_irrefl, false_and, if_false, List.append_nil]

/-- A block whose data bytes are not all there (R98, R99). -/
theorem codeBlock_overrun {c : Byte} {u : Wire} (h : u.input.length < u.pos + c.toNat) :
    codeBlock c u = { u with out := [], status := .failed .overrun } := by
  rw [codeBlock, if_pos h, wireFail]

/-- A block with input behind it: the loop goes on, after an implied zero unless the block is full (R98, R99). -/
theorem codeBlock_inner {c : Byte} {u : Wire} (h : u.pos + c.toNat < u.input.length) :
    codeBlock c u = { u with
      pos := u.pos + c.toNat
      out := u.out ++ (u.input.drop (u.pos + 1)).take (c.toNat - 1) ++ if c.toNat < 255 then [0x00#8] else []
      status := .running } := by
  simp only [codeBlock, if_neg (Nat.lt_asymm h), wireAdvance, h, and_true, if_true]

/-- A block that ends the input (R98, R99). -/
theorem codeBlock_last {c : Byte} {u : Wire} (h : u.pos + c.toNat = u.input.length) :
    codeBlock c u = { u with
      pos := u.pos + c.toNat
      out := u.out ++ (u.input.drop (u.pos + 1)).take (c.toNat - 1)
      status := .done } := by
  simp only [codeBlock, h, Nat.lt_irrefl, wireAdvance, and_false, if_false, List.append_nil]

/-- `BLK c` (R98). -/
theorem exec_blk {c : Byte} (hc : c ≠ 0xFF#8) (s : State) : exec (.blk c) s = .next { s with wire := codeBlock c s.wire } := by
  rw [← wireBlk_eq_codeBlock hc]
  rfl

/-- `FULL` (R99). -/
theorem exec_full (s : State) : exec .full s = .next { s with wire := codeBlock 0xFF#8 s.wire } := by
  rw [← wireFull_eq_codeBlock]
  rfl

/-- `ZERO` (R100). -/
theorem exec_zero (s : State) : exec .zero s = .next { s with wire := { s.wire with out := [], status := .failed .zero } } := rfl

/-- A wire operation writes the loop's variables only, and not its input (R103). -/
theorem exec_wire_input {i : Instr} (hi : i.format = .wire) (s : State) :
    ∃ u, exec i s = .next { s with wire := u } ∧ u.input = s.wire.input := by
  match i, hi with
  | .blk c, _ => exact ⟨wireBlk c s.wire, rfl, by unfold wireBlk; split <;> rfl⟩
  | .full, _ => exact ⟨wireFull s.wire, rfl, by unfold wireFull; split <;> rfl⟩
  | .zero, _ => exact ⟨wireZero s.wire, rfl, rfl⟩

/-- Settles O30: by where the block ends in the input. -/
theorem wireBlockResults : Obligations.WireBlockResults := by
  refine ⟨fun i s hi => exec_wire_input hi s, fun c s _ hff => ⟨fun h => ?_, fun h => ?_, fun h => ?_⟩,
    fun s => ⟨fun h => ?_, fun h => ?_⟩⟩
  · rw [exec_blk hff, codeBlock_overrun h]
  · have hc : c.toNat < 255 := by bv_omega
    rw [exec_blk hff, codeBlock_inner h, if_pos hc]
  · rw [exec_blk hff, codeBlock_last h]
  · rw [exec_full, codeBlock_overrun h]
  · obtain hinner | hlast := Nat.lt_or_eq_of_le h
    · rw [exec_full, codeBlock_inner hinner, if_pos hinner]
      simp
    · rw [exec_full, codeBlock_last hlast, if_neg (Nat.not_lt_of_ge (Nat.le_of_eq hlast.symm))]
      rfl

/-- Settles O31: the zero check comes before the loop, and the loop overruns only. -/
theorem zeroFailsDecode : Obligations.ZeroFailsDecode := by
  refine ⟨exec_zero, fun u => wireNext_zero, fun w => ⟨⟨fun h => ?_, codecDecode_zero⟩,
    fun code h hzero => codecDecode_err_of_zero_free hzero h⟩⟩
  by_contra hzero
  exact nomatch codecDecode_err_of_zero_free hzero h

/-! ### Block after block -/

/-- The loop's round for the code byte at its index (R67, R96). -/
theorem exec_decode_wire {c : Byte} (hc : c ≠ 0x00#8) (s : State) :
    exec (decode (.wire c)) s = .next { s with wire := codeBlock c s.wire } := by
  by_cases hff : c = 0xFF#8
  · subst hff
    exact exec_full s
  · rw [decode_wire_blk hc hff, exec_blk hff]

/-- The loop that has ended stays as it is. -/
theorem runBlocks_ended (n : Nat) {s : State} (h : s.wire.status ≠ .running) : runBlocks n s = .next s := by
  have hidle : blockAgent s = .next s := by
    cases hstatus : s.wire.status with
    | running => exact absurd hstatus h
    | done => simp [blockAgent, wireNext, hstatus]
    | failed code => simp [blockAgent, wireNext, hstatus]
  induction n with
  | zero => rfl
  | succ n ih => rw [runBlocks, hidle, andThen, ih]

/-- One block of a running loop, and the others (R96). -/
theorem runBlocks_succ {s : State} {c : Byte} (hrunning : s.wire.status = .running) (hzero : 0x00#8 ∉ s.wire.input)
    (hc : s.wire.input[s.wire.pos]? = some c) (n : Nat) :
    runBlocks (n + 1) s = runBlocks n { s with wire := codeBlock c s.wire } := by
  have hne : c ≠ 0x00#8 := fun h => hzero (h ▸ List.mem_of_getElem? hc)
  have hnext : wireNext s.wire = some (decode (.wire c)) := by simp [wireNext, hrunning, hzero, hc]
  rw [runBlocks, blockAgent_running hnext, exec_decode_wire hne, andThen]

/-- Decode's loop at the end of its input (R96). -/
theorem decodeLoop_ended (n : Nat) {w : List Byte} {i : Nat} (hi : w.length ≤ i) (out : List Byte) :
    decodeLoop (n + 1) w i out = .ok out := by
  rw [decodeLoop, List.getElem?_eq_none hi]

/-- Its round for a code byte whose block is not all there (R96). -/
theorem decodeLoop_overrun (n : Nat) {w : List Byte} {i : Nat} {c : Byte} (hc : w[i]? = some c) (h : w.length < i + c.toNat)
    (out : List Byte) : decodeLoop (n + 1) w i out = .err .overrun := by
  simp only [decodeLoop, hc, if_pos h]

/-- Its round for a block that is all there (R96). -/
theorem decodeLoop_block (n : Nat) {w : List Byte} {i : Nat} {c : Byte} (hc : w[i]? = some c) (h : i + c.toNat ≤ w.length)
    (out : List Byte) :
    decodeLoop (n + 1) w i out = decodeLoop n w (i + c.toNat)
      (out ++ (w.drop (i + 1)).take (c.toNat - 1) ++ if c.toNat < 255 ∧ i + c.toNat < w.length then [0x00#8] else []) := by
  simp only [decodeLoop, hc, if_neg (Nat.not_lt_of_ge h), slice_block]
  split
  · rfl
  · rw [List.append_nil]

/-- A running loop, block after block, ends as decode's loop does from the same variables: each block moves the index on (R96). -/
theorem runBlocks_decodeLoop (n : Nat) {s : State} (hrunning : s.wire.status = .running) (hzero : 0x00#8 ∉ s.wire.input)
    (hpos : s.wire.pos < s.wire.input.length) (hn : s.wire.input.length ≤ s.wire.pos + n) :
    ∃ u, runBlocks n s = .next { s with wire := u } ∧
      wireOutcome u = some (decodeLoop (n + 1) s.wire.input s.wire.pos s.wire.out) := by
  induction n generalizing s with
  | zero => exact absurd hpos (Nat.not_lt_of_ge hn)
  | succ n ih =>
    obtain ⟨c, hc⟩ : ∃ c, s.wire.input[s.wire.pos]? = some c := ⟨_, List.getElem?_eq_getElem hpos⟩
    have hne : c ≠ 0x00#8 := fun h => hzero (h ▸ List.mem_of_getElem? hc)
    have hmoves : s.wire.input.length ≤ s.wire.pos + c.toNat + n := by bv_omega
    rw [runBlocks_succ hrunning hzero hc]
    obtain hover | hlast | hinner := Nat.lt_trichotomy s.wire.input.length (s.wire.pos + c.toNat)
    · rw [codeBlock_overrun hover, decodeLoop_overrun _ hc hover]
      exact ⟨_, runBlocks_ended n nofun, rfl⟩
    · rw [codeBlock_last hlast.symm, decodeLoop_block _ hc (Nat.le_of_eq hlast.symm), decodeLoop_ended _ (Nat.le_of_eq hlast)]
      refine ⟨_, runBlocks_ended n nofun, ?_⟩
      simp [wireOutcome, ← hlast]
    · rw [codeBlock_inner hinner, decodeLoop_block _ hc (Nat.le_of_lt hinner)]
      simp only [hinner, and_true]
      exact ih rfl hzero hinner hmoves

/-- `decode` of an input without a zero is its loop (R96). -/
theorem codecDecode_eq_loop {w : List Byte} (hw : 0x00#8 ∉ w) : codecDecode w = decodeLoop (w.length + 1) w 0 [] := if_neg hw

/-- Settles O29: an empty input has no block, one with a zero fails in its first, and else the blocks are the rounds of decode's loop. -/
theorem wireBlocksRunDecode : Obligations.WireBlocksRunDecode := by
  intro w s hs
  cases w with
  | nil => exact ⟨s.wire, rfl, by rw [hs]; rfl⟩
  | cons b w =>
    have hrunning : s.wire.status = .running := by rw [hs]; rfl
    have hinput : s.wire.input = b :: w := by rw [hs]; rfl
    by_cases hzero : 0x00#8 ∈ b :: w
    · have hnext : wireNext s.wire = some .zero := wireNext_zero hrunning (hinput ▸ hzero)
      rw [List.length_cons, runBlocks, blockAgent_running hnext, exec_zero, andThen, codecDecode_zero hzero]
      exact ⟨_, runBlocks_ended _ nofun, rfl⟩
    · have hrun := runBlocks_decodeLoop (b :: w).length (s := s) hrunning (hinput ▸ hzero)
      rw [hs] at hrun
      rw [codecDecode_eq_loop hzero]
      exact hrun (Nat.succ_pos _) (Nat.le_add_left _ _)

end Sys2Proof.Machine
end

section
/-! PROOF. The RX tokens one at a time, and the closed agent (R110 to R114, R116, R202, R210, R227). -/

namespace Sys2Proof.Machine

/-! ### DATA and DELIM -/

/-- `DATA` is stored while there is room (R111). -/
theorem exec_data_of_room {b : Byte} {s : State} (hopen : s.closed = false)
    (hroom : roomFor s.params.bufCap s.carry.length = true) : exec (.data b) s = .next (appendByte b s) := by
  rw [exec_data hopen, if_pos hroom]

/-- With no room it is dropped and the frame is poisoned (R111). -/
theorem exec_data_of_full {b : Byte} {s : State} (hopen : s.closed = false)
    (hfull : roomFor s.params.bufCap s.carry.length = false) : exec (.data b) s = .next (setPoison s) := by
  rw [exec_data hopen, hfull]
  rfl

/-- Settles O14: room under no capacity, under one not reached, and none under one reached. -/
theorem dataAppendsOrPoisons : Obligations.DataAppendsOrPoisons := by
  intro b s hb hopen
  refine ⟨?_, fun hcap => ?_, fun k hcap hlt => ?_, fun k hcap hle => ?_⟩
  · exact (decode_rxiBeat 0#1 b).trans ((if_neg (by decide)).trans (if_neg hb))
  · exact exec_data_of_room hopen (by rw [hcap, roomFor_none])
  · exact exec_data_of_room hopen (by simpa [hcap] using hlt)
  · exact exec_data_of_full hopen (by simpa [hcap] using hle)

/-- At a frame start there is nothing to cut off (R42). -/
theorem cutFrame_of_frameStart {s : State} (hcarry : s.carry = []) (hclean : s.poison = false) : cutFrame s = s := by
  rw [cutFrame, clearPoison, ← hcarry, ← hclean]

/-- Each `DELIM` at a frame start ends an empty frame, which is the empty message (R112). -/
theorem execAll_delims (k : Nat) {s : State} (hopen : s.closed = false) (hcarry : s.carry = []) (hclean : s.poison = false) :
    execAll (List.replicate k .delim) s = .next { s with rxo := s.rxo ++ List.replicate k (.msg []) } := by
  induction k generalizing s with
  | zero =>
    rw [List.replicate_zero, List.replicate_zero, List.append_nil]
    rfl
  | succ k ih =>
    have hfirst : exec .delim s = .next (emit (.msg []) s) := by
      rw [exec_delim hopen, endFrame, cutFrame_of_frameStart hcarry hclean, hcarry, hclean]
      rfl
    rw [List.replicate_succ, execAll_cons hfirst, ih (s := emit (.msg []) s) hopen hcarry hclean, emit_rxo, List.append_assoc]
    rfl

/-- The event of a frame that is not poisoned is its decoding's (R112). -/
theorem frameEvent_clean (f : List Byte) : frameEvent f false = eventOf (codecDecode f) := rfl

/-- Settles O15: the event is the frame's, and every further delimiter ends an empty frame. -/
theorem delimEmitsOneEvent : Obligations.DelimEmitsOneEvent := by
  refine ⟨rfl, fun s hopen => ⟨frameEvent s.carry s.poison, exec_delim hopen, fun hp => ?_, fun hp p hd => ?_,
    fun hp code hd => ?_, fun hzero he => ?_, fun hp hcarry => ?_, fun hp hcarry => ?_, fun k => ?_⟩⟩
  · rw [hp]
    rfl
  · rw [hp, frameEvent_clean, hd]
    rfl
  · rw [hp, frameEvent_clean, hd]
    rfl
  · have hlegal := frameEvent_legal hzero s.poison
    rw [he] at hlegal
    cases hlegal
  · rw [hp, hcarry]
    rfl
  · rw [hp, hcarry]
    rfl
  · rw [List.replicate_succ, execAll_cons (exec_delim hopen), execAll_delims k (s := endFrame s) hopen rfl rfl, endFrame_rxo,
      List.append_assoc]
    rfl

/-! ### What the tokens depend on (R116) -/

/-- The two states agree on what an RX token reads: the buffer, the two flags, and `BUF_CAP` (R110). -/
structure SameSplitter (s t : State) : Prop where
  carry : t.carry = s.carry
  poison : t.poison = s.poison
  closed : t.closed = s.closed
  bufCap : t.params.bufCap = s.params.bufCap

/-- From both states there is a next state, the same events are emitted, and the next states agree again on what a token reads. -/
def EmitsAlike (k : State → Result) (s t : State) : Prop :=
  ∃ s' t' es, k s = .next s' ∧ k t = .next t' ∧ s'.rxo = s.rxo ++ es ∧ t'.rxo = t.rxo ++ es ∧ SameSplitter s' t'

/-- A token does the same in two states that agree on these (R111 to R114): by what it can do in the first. -/
theorem exec_rxi_emitsAlike {i : Instr} (hi : i.format = .rxi) {s t : State} (h : SameSplitter s t) : EmitsAlike (exec i) s t := by
  obtain ⟨hcarry, hpoison, hclosed, hcap⟩ := h
  obtain ⟨s', hs⟩ := exec_rxi_next hi s
  obtain ⟨hc, rfl⟩ | ⟨hopen, hcases⟩ := exec_rxi_cases hi hs
  · exact ⟨s', t, [], hs, exec_rxi_closed hi (hclosed.trans hc), by simp, by simp, hcarry, hpoison, hclosed, hcap⟩
  have hopen' : t.closed = false := hclosed.trans hopen
  obtain ⟨b, rfl, hroom, rfl⟩ | ⟨b, rfl, hfull, rfl⟩ | ⟨rfl, rfl⟩ | ⟨rfl, hframe, rfl⟩ | ⟨rfl, hclean, hempty, rfl⟩ := hcases
  · rw [← hcap, ← hcarry] at hroom
    exact ⟨_, _, [], hs, exec_data_of_room hopen' hroom, by simp, by simp, by simp [hcarry], hpoison, hclosed, hcap⟩
  · rw [← hcap, ← hcarry] at hfull
    exact ⟨_, _, [], hs, exec_data_of_full hopen' hfull, by simp, by simp, hcarry, rfl, hclosed, hcap⟩
  · exact ⟨_, _, [frameEvent s.carry s.poison], hs, exec_delim hopen', rfl, by rw [endFrame_rxo, hcarry, hpoison],
      rfl, rfl, hclosed, hcap⟩
  · rw [← hcarry, ← hpoison] at hframe
    exact ⟨_, _, [frameEvent s.carry s.poison], hs, exec_endStream_unfinished hopen' hframe, rfl, by rw [hcarry, hpoison],
      rfl, rfl, rfl, hcap⟩
  · exact ⟨_, _, [], hs, exec_endStream_frameStart hopen' (hpoison.trans hclean) (hcarry.trans hempty), by simp, by simp,
      hcarry.trans hempty, hpoison.trans hclean, rfl, hcap⟩

/-- So do tokens one after another (R116). -/
theorem execAll_rxi_emitsAlike {ts : List Instr} (hts : ∀ i ∈ ts, i.format = .rxi) {s t : State} (h : SameSplitter s t) :
    EmitsAlike (execAll ts) s t := by
  induction ts generalizing s t with
  | nil => exact ⟨s, t, [], rfl, rfl, by simp, by simp, h⟩
  | cons i is ih =>
    rw [List.forall_mem_cons] at hts
    obtain ⟨s', t', es, hs, ht, hsrxo, htrxo, h'⟩ := exec_rxi_emitsAlike hts.1 h
    obtain ⟨s'', t'', es', hs', ht', hsrxo', htrxo', h''⟩ := ih hts.2 h'
    refine ⟨s'', t'', es ++ es', ?_, ?_, ?_, ?_, h''⟩
    · rw [execAll_cons hs, hs']
    · rw [execAll_cons ht, ht']
    · rw [hsrxo', hsrxo, List.append_assoc]
    · rw [htrxo', htrxo, List.append_assoc]

/-- Settles O20: after `DELIM` the two states agree on all that a token reads. -/
theorem selfSynchronisation : Obligations.SelfSynchronisation := by
  intro s1 s2 ts hts hcap hopen1 hopen2
  have hsame : SameSplitter (endFrame s1) (endFrame s2) := ⟨rfl, rfl, hopen2.trans hopen1.symm, hcap.symm⟩
  obtain ⟨u1, u2, es, hu1, hu2, hrxo1, hrxo2, hcarry, hpoison, hclosed, -⟩ := execAll_rxi_emitsAlike hts hsame
  exact ⟨_, _, u1, u2, es, exec_delim hopen1, exec_delim hopen2, rfl, rfl, hu1, hu2, hrxo1, hrxo2, hcarry.symm, hpoison.symm,
    hclosed.symm⟩

/-! ### The closed agent (R114, R210, R227) -/

/-- The RX agent that is not ready accepts no beat (R60, R201). -/
theorem rxAgent_not_ready {s : State} (h : rxReady s = false) : rxAgent s = .next s := by
  unfold rxAgent
  split
  · rfl
  · rw [h]
    rfl

/-- While closed it is not ready (R114). -/
theorem rxReady_closed {s : State} (h : s.closed = true) : rxReady s = false := by
  simp [rxReady, h]

/-- After a reset it is ready, where an event can be held at all (R210, R226). -/
theorem rxReady_applyReset (keepRx keepCmd : Bool) {s : State} (hev : s.params.evCap ≠ some 0) :
    rxReady (applyReset keepRx keepCmd s) = true := by
  refine rxReady_of_room rfl fun k hk => Nat.pos_of_ne_zero ?_
  rintro rfl
  exact hev hk

/-- No move but a reset opens a closed agent (R25). -/
theorem perform_keeps_closed {m : Move} {s t : State} (hm : ∀ keepRx keepCmd, m ≠ .rst keepRx keepCmd) (hc : s.closed = true)
    (h : perform m s = .next t) : t.closed = true := by
  obtain ⟨w, -, rfl⟩ | ⟨w, -, rfl⟩ | ⟨-, h⟩ | ⟨-, h⟩ | ⟨-, h⟩ | ⟨keepRx, keepCmd, hrst, -⟩ | ⟨x, -, h⟩ := perform_cases h
  · exact hc
  · exact hc
  · rw [rxAgent_not_ready (rxReady_closed hc)] at h
    cases h
    exact hc
  · obtain rfl | ⟨w, ws, -, h⟩ := cmdAgent_cases h
    · exact hc
    · obtain ⟨o, l, r, rfl⟩ := exec_cmd_withCommandFields (decode_format _) h
      exact hc
  · obtain rfl | ⟨i, u, -, -, rfl⟩ := blockAgent_cases h <;> exact hc
  · exact absurd hrst (hm keepRx keepCmd)
  · exact (hostMove_sameBlock h).closed.trans hc

/-- Settles O10: the closed agent is not ready, no other move writes `closed` but a reset, and a reset makes the agent ready. -/
theorem closedHoldsRxTokens : Obligations.ClosedHoldsRxTokens := by
  refine ⟨fun s i hc hi => exec_rxi_closed hi hc, fun s ms hc hs => ?_, fun s t hc h => ?_,
    fun s w ws keepCmd ms hc hw hev hs => ?_⟩
  · rw [step_of_sched hs]
    exact rxAgent_not_ready (s := { s with sched := ms }) (rxReady_closed hc)
  · obtain ⟨-, rfl⟩ | ⟨m, ms, hs, h⟩ := step_cases h
    · exact .inl hc
    · by_cases hrst : ∃ keepRx keepCmd, m = .rst keepRx keepCmd
      · obtain ⟨keepRx, keepCmd, rfl⟩ := hrst
        exact .inr ⟨keepRx, keepCmd, ms, hs⟩
      · exact .inl (perform_keeps_closed (fun keepRx keepCmd hm => hrst ⟨keepRx, keepCmd, hm⟩) (by exact hc) h)
  · have hheld : step s = .next { s with sched := .rst true keepCmd :: .rx :: ms } := by
      rw [step_of_sched hs]
      exact rxAgent_not_ready (rxReady_closed (by exact hc))
    have hreset : step { s with sched := .rst true keepCmd :: .rx :: ms } =
        .next { applyReset true keepCmd s with sched := .rx :: ms } := rfl
    rw [runSteps_succ hheld, runSteps_succ hreset, runSteps_one]
    exact rxAgent_ready (s := { applyReset true keepCmd s with sched := ms }) hw (rxReady_applyReset true keepCmd hev)

end Sys2Proof.Machine
end

section
/-! PROOF. A stream of bytes by its cut at the zero bytes, for every buffer capacity (R115, R118). -/

namespace Sys2Proof.Machine

/-- Settles O22: both handle the delivery one byte at a time. -/
theorem deliveryMatchesDocument : Obligations.DeliveryMatchesDocument := by
  intro bytes s hcap hopen hclean hzero
  rw [deliver_open _ hopen, documentDeliver_eq_foldl bytes ⟨hcap, hclean, hzero⟩]

/-! ### What the buffer keeps of a piece (R24, R118) -/

@[simp] theorem pieceKept_nil (cap : Option Nat) : pieceKept cap [] = [] := by
  cases cap with
  | none => rfl
  | some k => exact List.take_nil

@[simp] theorem overLong_nil (cap : Option Nat) : overLong cap [] = false := by
  cases cap with
  | none => rfl
  | some k => simp [overLong]

/-- There is room beside what is kept exactly when the piece has not reached the capacity. -/
theorem roomFor_pieceKept (cap : Option Nat) (g : List Byte) : roomFor cap (pieceKept cap g).length = roomFor cap g.length := by
  cases cap with
  | none => rfl
  | some k => simp [pieceKept]

/-- A byte with room is kept, and the piece is no longer than the capacity (R111). -/
theorem piece_append_of_room {cap : Option Nat} {g : List Byte} (h : roomFor cap g.length = true) (b : Byte) :
    pieceKept cap (g ++ [b]) = pieceKept cap g ++ [b] ∧ overLong cap (g ++ [b]) = overLong cap g := by
  cases cap with
  | none => exact ⟨rfl, rfl⟩
  | some k =>
    have hlt : g.length < k := by simpa using h
    constructor
    · simp only [pieceKept]
      rw [List.take_of_length_le (by simpa using hlt), List.take_of_length_le hlt.le]
    · simp only [overLong, List.length_append, List.length_singleton, decide_eq_decide]
      omega

/-- A byte without room is not kept, and the piece is longer than the capacity (R111). -/
theorem piece_append_of_full {cap : Option Nat} {g : List Byte} (h : roomFor cap g.length = false) (b : Byte) :
    pieceKept cap (g ++ [b]) = pieceKept cap g ∧ overLong cap (g ++ [b]) = true := by
  obtain ⟨k, rfl, hle⟩ := roomFor_false h
  constructor
  · exact List.take_append_of_le_length hle
  · simpa [overLong] using Nat.lt_succ_of_le hle

/-- A piece within a capacity is not longer than it, and no piece is longer than no capacity. -/
theorem overLong_of_fits {cap : Option Nat} {g : List Byte} (h : ∀ k, cap = some k → g.length ≤ k) :
    overLong cap g = false := by
  cases cap with
  | none => rfl
  | some k => simpa [overLong] using h k rfl

/-- A piece that is not longer than the capacity is kept whole. -/
theorem pieceKept_of_not_overLong {cap : Option Nat} {g : List Byte} (h : overLong cap g = false) : pieceKept cap g = g := by
  cases cap with
  | none => rfl
  | some k => exact List.take_of_length_le (by simpa [overLong] using h)

/-- The event of what is kept, with the flag, is the event of the piece (R112, R118). -/
theorem frameEvent_pieceKept (cap : Option Nat) (g : List Byte) :
    frameEvent (pieceKept cap g) (overLong cap g) = pieceEvent cap g := by
  unfold pieceEvent
  cases h : overLong cap g with
  | true => rfl
  | false => rw [pieceKept_of_not_overLong h]

/-- A piece that is not empty leaves a byte in the buffer or the flag set. -/
theorem piece_unfinished {cap : Option Nat} {g : List Byte} (hg : g ≠ []) : overLong cap g = true ∨ pieceKept cap g ≠ [] := by
  cases h : overLong cap g with
  | true => exact .inl rfl
  | false => exact .inr (by rwa [pieceKept_of_not_overLong h])

/-! ### One piece arrives -/

/-- The state with a piece received from a frame start: the bytes that fit `BUF_CAP`, and the flag when there were more
(R24, R118). -/
def withPiece (g : List Byte) (s : State) : State :=
  { s with carry := pieceKept s.params.bufCap g, poison := overLong s.params.bufCap g }

/-- Nothing received yet is a frame start. -/
theorem withPiece_nil {s : State} (hcarry : s.carry = []) (hclean : s.poison = false) : withPiece [] s = s := by
  rw [withPiece, pieceKept_nil, overLong_nil, ← hcarry, ← hclean]

/-- One more byte of the piece arrives (R111). -/
theorem afterPush_withPiece {b : Byte} (hb : b ≠ 0x00#8) (g : List Byte) (s : State) :
    afterPush (withPiece g s) b = withPiece (g ++ [b]) s := by
  rw [afterPush, if_neg (by exact hb)]
  cases hroom : roomFor s.params.bufCap g.length with
  | true =>
    obtain ⟨hkept, hlong⟩ := piece_append_of_room hroom b
    rw [if_pos (by exact (roomFor_pieceKept _ _).trans hroom), withPiece, withPiece, hkept, hlong]
    rfl
  | false =>
    obtain ⟨hkept, hlong⟩ := piece_append_of_full hroom b
    rw [if_neg (by rw [Bool.not_eq_true]; exact (roomFor_pieceKept _ _).trans hroom), withPiece, withPiece, hkept, hlong]
    rfl

/-- The bytes of a piece without a delimiter arrive. -/
theorem foldl_afterPush_withPiece {bytes : List Byte} (hzero : 0x00#8 ∉ bytes) (g : List Byte) (s : State) :
    bytes.foldl afterPush (withPiece g s) = withPiece (g ++ bytes) s := by
  induction bytes generalizing g with
  | nil => rw [List.append_nil]; rfl
  | cons b bytes ih =>
    rw [List.mem_cons, not_or] at hzero
    rw [List.foldl_cons, afterPush_withPiece (Ne.symm hzero.1), ih hzero.2, List.append_assoc]
    rfl

/-- The piece arrives at a frame start. -/
theorem foldl_afterPush_piece {g : List Byte} (hzero : 0x00#8 ∉ g) {s : State} (hcarry : s.carry = [])
    (hclean : s.poison = false) : g.foldl afterPush s = withPiece g s := by
  have h := foldl_afterPush_withPiece hzero [] s
  rwa [withPiece_nil hcarry hclean] at h

/-- The piece and its delimiter arrive at a frame start: the piece's event, and a frame start again (R112, R118). -/
theorem foldl_afterPush_frame {g : List Byte} (hzero : 0x00#8 ∉ g) {s : State} (hcarry : s.carry = [])
    (hclean : s.poison = false) : (g ++ [0x00#8]).foldl afterPush s = emit (pieceEvent s.params.bufCap g) s := by
  rw [List.foldl_append, foldl_afterPush_piece hzero hcarry hclean]
  calc afterPush (withPiece g s) 0x00#8
      _ = emit (frameEvent (withPiece g s).carry (withPiece g s).poison) (cutFrame s) := afterPush_delim _
      _ = emit (pieceEvent s.params.bufCap g) s := by
        rw [cutFrame_of_frameStart hcarry hclean]
        exact congrArg (emit · s) (frameEvent_pieceKept _ g)

/-- `END` after a piece from a frame start: the piece's event unless the piece is empty (R113, R118). -/
theorem exec_endStream_withPiece (g : List Byte) {s : State} (hopen : s.closed = false) :
    exec .endStream (withPiece g s) = .next { s with
      carry := [], poison := false, closed := true, rxo := s.rxo ++ if g = [] then [] else [pieceEvent s.params.bufCap g] } := by
  have hopen' : (withPiece g s).closed = false := hopen
  by_cases hg : g = []
  · subst hg
    rw [exec_endStream_frameStart hopen' (overLong_nil _) (pieceKept_nil _), withPiece, pieceKept_nil, overLong_nil, if_pos rfl,
      List.append_nil]
  · rw [exec_endStream_unfinished hopen' (piece_unfinished hg), if_neg hg, ← frameEvent_pieceKept]
    rfl

/-! ### The whole stream -/

/-- The state after the pieces of a stream from a frame start: the events of all but the last, and what is kept of the last
(R118). -/
def withPieces (gs : List (List Byte)) (s : State) : State :=
  withPiece (gs.getLastD []) { s with rxo := s.rxo ++ gs.dropLast.map (pieceEvent s.params.bufCap) }

/-- Pieces with a delimiter between two of them arrive at a frame start: each delimiter ends a frame (R118). -/
theorem foldl_afterPush_joinSegments {gs : List (List Byte)} (hne : gs ≠ []) (hzero : ∀ g ∈ gs, 0x00#8 ∉ g) {s : State}
    (hcarry : s.carry = []) (hclean : s.poison = false) : (joinSegments gs).foldl afterPush s = withPieces gs s := by
  induction gs generalizing s with
  | nil => exact absurd rfl hne
  | cons g gs ih =>
    rw [List.forall_mem_cons] at hzero
    cases gs with
    | nil =>
      rw [joinSegments, foldl_afterPush_piece hzero.1 hcarry hclean, withPieces, List.dropLast_singleton, List.map_nil,
        List.append_nil]
      rfl
    | cons g' gs =>
      have hjoin : joinSegments (g :: g' :: gs) = (g ++ [0x00#8]) ++ joinSegments (g' :: gs) := by simp [joinSegments]
      rw [hjoin, List.foldl_append, foldl_afterPush_frame hzero.1 hcarry hclean,
        ih (List.cons_ne_nil g' gs) hzero.2 (s := emit _ s) hcarry hclean]
      simp [withPieces, emit]

/-- A delivery at a frame start, by its cut at the zero bytes (R90, R118). -/
theorem deliver_frameStart (bytes : List Byte) {s : State} (hopen : s.closed = false) (hcarry : s.carry = [])
    (hclean : s.poison = false) : deliver bytes s = .next (withPieces (segments bytes) s) := by
  rw [deliver_open bytes hopen, ← foldl_afterPush_joinSegments (segments_ne_nil bytes) (segments_zero_free bytes) hcarry hclean,
    joinSegments_segments]

/-- The frames of payloads whose encodings fit emit the payloads (R94, R118). -/
theorem foldl_afterPush_frameStream (tail01 : Bool) {ps : List (List Byte)} {s : State} (hcarry : s.carry = [])
    (hclean : s.poison = false) (hfits : ∀ p ∈ ps, overLong s.params.bufCap (codecEncode tail01 p) = false) :
    (frameStream tail01 ps).foldl afterPush s = { s with rxo := s.rxo ++ ps.map .msg } := by
  induction ps generalizing s with
  | nil =>
    rw [List.map_nil, List.append_nil]
    rfl
  | cons p ps ih =>
    rw [List.forall_mem_cons] at hfits
    have hevent : pieceEvent s.params.bufCap (codecEncode tail01 p) = .msg p := by
      rw [pieceEvent, hfits.1, frameEvent_clean, codecDecode_codecEncode]
      rfl
    have hfirst : (frameBytes tail01 p).foldl afterPush s = emit (.msg p) s := by
      rw [← hevent]
      exact foldl_afterPush_frame (codecEncode_zero_free tail01 p) hcarry hclean
    rw [frameStream, List.flatMap_cons, List.foldl_append, hfirst]
    refine (ih (s := emit (.msg p) s) hcarry hclean hfits.2).trans ?_
    rw [emit_rxo, List.append_assoc]
    rfl

/-- Settles O23: the pieces of the stream one after another, the end after the last, and the frames of payloads. -/
theorem wholeStreamFunction : Obligations.WholeStreamFunction := by
  refine ⟨fun bytes s hopen hcarry hclean => ?_, fun tail01 ps s hopen hcarry hclean hfits => ?_⟩
  · have hstream := deliver_frameStart bytes hopen hcarry hclean
    refine ⟨hstream, ?_⟩
    rw [hstream]
    exact exec_endStream_withPiece _ (by exact hopen)
  · rw [deliver_open _ hopen, foldl_afterPush_frameStream tail01 hcarry hclean fun p hp => overLong_of_fits (hfits p hp)]

end Sys2Proof.Machine
end

section
/-! PROOF. The table form of `crc32` (R132): the rounds are linear over xor, and on a word whose low byte is zero they only shift. -/

namespace Sys2Proof.Machine

/-- One round is a shift, and the polynomial where a one falls out (R131). -/
theorem crcRound_eq (r : Word) : crcRound r = (r >>> 1) ^^^ (if r.getLsbD 0 then crcPoly else 0#32) := by
  rw [crcRound, BitVec.and_one_eq_setWidth_ofBool_getLsbD]
  cases r.getLsbD 0 <;> simp

/-- A round is linear over xor: two ones that fall out cancel their polynomials. -/
theorem crcRound_xor (x y : Word) : crcRound (x ^^^ y) = crcRound x ^^^ crcRound y := by
  have hpoly (a b : Bool) : (if a ^^ b then crcPoly else 0#32) = (if a then crcPoly else 0#32) ^^^ (if b then crcPoly else 0#32) := by
    cases a <;> cases b <;> decide
  rw [crcRound_eq, crcRound_eq x, crcRound_eq y, BitVec.ushiftRight_xor_distrib, BitVec.getLsbD_xor, hpoly]
  ac_rfl

/-- So are the eight rounds. -/
theorem crcRounds_xor (x y : Word) : crcRounds (x ^^^ y) = crcRounds x ^^^ crcRounds y := by
  simp only [crcRounds, crcRound_xor]

/-- A zero that falls out leaves only the shift. -/
theorem crcRound_ushiftRight {r : Word} {k : Nat} (h : r.getLsbD k = false) : crcRound (r >>> k) = r >>> (k + 1) := by
  simp [crcRound_eq, h, BitVec.shiftRight_add]

/-- The eight rounds shift a word with a zero low byte. -/
theorem crcRounds_of_low_zero {r : Word} (h : r.setWidth 8 = 0#8) : crcRounds r = r >>> 8 := by
  have shift (k : Nat) (hk : k < 8) : crcRound (r >>> k) = r >>> (k + 1) := by
    refine crcRound_ushiftRight ?_
    simpa [hk] using congrArg (BitVec.getLsbD · k) h
  have first : crcRound r = r >>> 1 := shift 0 (by decide)
  rw [crcRounds, first, shift 1 (by decide), shift 2 (by decide), shift 3 (by decide), shift 4 (by decide), shift 5 (by decide),
    shift 6 (by decide), shift 7 (by decide)]

/-- Four parts of 64 entries (R132). -/
theorem crcTable_length : crcTable.length = 256 := by
  have h0 : crcTable0.length = 64 := rfl
  have h1 : crcTable1.length = 64 := rfl
  have h2 : crcTable2.length = 64 := rfl
  have h3 : crcTable3.length = 64 := rfl
  rw [crcTable, List.length_append, List.length_append, List.length_append, h0, h1, h2, h3]

/-- The printed entries are the rounds of their index (R132). -/
theorem crcTableAt_eq (i : Byte) : crcTableAt i = crcRounds (i.setWidth 32) := by
  revert i
  decide +kernel

/-- The eight rounds shift the upper bytes of a word and look its low byte up (R132): by linearity, each part on its own. -/
theorem crcRounds_eq_table (r : Word) : crcRounds r = (r >>> 8) ^^^ crcTableAt (r.setWidth 8) := by
  have hlow : (r ^^^ (r.setWidth 8).setWidth 32).setWidth 8 = 0#8 := by ext; simp
  have hshift : ((r.setWidth 8).setWidth 32 : Word) >>> 8 = 0#32 := by ext; simp
  have hsplit : r = (r ^^^ (r.setWidth 8).setWidth 32) ^^^ (r.setWidth 8).setWidth 32 := by simp
  calc crcRounds r
      _ = crcRounds (r ^^^ (r.setWidth 8).setWidth 32) ^^^ crcRounds ((r.setWidth 8).setWidth 32) := by
        rw [← crcRounds_xor, ← hsplit]
      _ = (r >>> 8) ^^^ crcTableAt (r.setWidth 8) := by
        rw [crcRounds_of_low_zero hlow, BitVec.ushiftRight_xor_distrib, hshift, BitVec.xor_zero, crcTableAt_eq]

/-- One byte of the table form is one byte of the bit form: the byte enters below the bits that are shifted in (R131, R132). -/
theorem crcTableByte_eq (r : Word) (b : Byte) : crcTableByte r b = crcByte r b := by
  have hbyte : (b.setWidth 32 : Word) >>> 8 = 0#32 := by ext; simp
  rw [crcTableByte, crcByte, crcRounds_eq_table, BitVec.ushiftRight_xor_distrib, hbyte, BitVec.xor_zero]

/-- The table form of `crc32` is its bit form (R132). -/
theorem crc32Table_eq (s : List Byte) : crc32Table s = crc32 s := by
  have hstep : crcTableByte = crcByte := funext₂ crcTableByte_eq
  rw [crc32Table, crc32, hstep]

/-- Settles O40, by the linearity of the rounds. -/
theorem crcTableFormEqualsBitForm : Obligations.CrcTableFormEqualsBitForm :=
  ⟨crcTable_length, crcTableAt_eq, crc32Table_eq⟩

end Sys2Proof.Machine
end

section
/-! PROOF. The answers of `CRC`, `CHUNK` and `VALIDATE`, and a chunk sent and validated (R133, R134, R136 to R138). -/

namespace Sys2Proof.Machine

/-- Settles O41: the command's answer, and the check values by the table form. -/
theorem crcAnswersChecksum : Obligations.CrcAnswersChecksum := by
  refine ⟨rfl, exec_opInstr .crc, le32_length, ?_⟩
  simp only [← crc32Table_eq]
  decide

/-- Settles O43: the command's answer, and the examples under both values of `TAIL01`. -/
theorem chunkAnswersFrame : Obligations.ChunkAnswersFrame := by
  refine ⟨rfl, fun s => ⟨frameBytes s.params.tail01 (attachBytes s.operand), exec_opInstr .chunk s, rfl, fun h => ?_, fun h => ?_⟩⟩
  · rw [h]
    cases s.params.tail01 <;> rfl
  · rw [h, attachBytes, crc32_of_010203]
    cases s.params.tail01 <;> rfl

/-- Fewer than four bytes hold no checksum (R137). -/
theorem answerValidate_short {p : List Byte} (h : p.length < 4) : answerValidate p = failure .short := by
  rw [answerValidate, if_pos h]

/-- A chunk and four bytes: the four bytes are compared with the chunk's checksum (R137). -/
theorem answerValidate_append (chunk : List Byte) {given : List Byte} (hgiven : given.length = 4) :
    answerValidate (chunk ++ given) = if crc32 chunk = unLe32 given then success chunk else failure .badsum := by
  have hlen : (chunk ++ given).length = chunk.length + 4 := by rw [List.length_append, hgiven]
  have hchunk : slice (chunk ++ given) 0 chunk.length = chunk := List.take_left
  have hsum : slice (chunk ++ given) chunk.length (chunk.length + 4) = given := by
    rw [slice, List.drop_left, Nat.add_sub_cancel_left, ← hgiven, List.take_length]
  rw [answerValidate, hlen, if_neg (by omega), Nat.add_sub_cancel]
  simp only [hchunk, hsum]

/-- A chunk payload holds its own checksum (R138). -/
theorem answerValidate_attachBytes (chunk : List Byte) : answerValidate (attachBytes chunk) = success chunk := by
  rw [attachBytes, answerValidate_append chunk (le32_length _), unLe32_le32, if_pos rfl]

/-- Four bytes alone are the checksum of the empty chunk, and valid, exactly when all are zero (R137). -/
theorem answerValidate_four_ok_iff {p : List Byte} (hp : p.length = 4) :
    (answerValidate p).status = .ok ↔ p = [0x00#8, 0x00#8, 0x00#8, 0x00#8] := by
  obtain ⟨a, b, c, d, rfl⟩ := List.length_eq_four.1 hp
  have hempty : crc32 [] = unLe32 [a, b, c, d] ↔ [a, b, c, d] = [0x00#8, 0x00#8, 0x00#8, 0x00#8] :=
    ⟨fun h => by rw [← le32_unLe32 a b c d, ← h]; rfl, fun h => by rw [h]; rfl⟩
  rw [← hempty, ← List.nil_append [a, b, c, d], answerValidate_append [] hp]
  split
  next hsum => exact ⟨fun _ => hsum, fun _ => rfl⟩
  next hsum => exact ⟨fun hok => (nomatch hok), fun h => absurd h hsum⟩

/-- Settles O44: the answer by the operand's length and by the comparison. -/
theorem validateAnswersComparison : Obligations.ValidateAnswersComparison := by
  refine ⟨rfl, fun s => ⟨_, exec_opInstr .validate s, fun hlong => by rw [hlong]; rfl, fun hlong hshort => ?_,
    fun hlong chunk a b c d hoperand => ?_, fun hlong hfour => ?_⟩⟩ <;>
    rw [hlong, if_neg Bool.false_ne_true, answerOf]
  · exact answerValidate_short hshort
  · rw [hoperand, answerValidate_append chunk rfl]
    exact ⟨fun h => if_pos h, fun h => if_neg h⟩
  · exact answerValidate_four_ok_iff hfour

/-- Settles O45: `VALIDATE` finds the checksum that `ATTACH` put there, and `CHUNK` makes a stream of one frame. -/
theorem attachThenValidate : Obligations.AttachThenValidate := by
  refine ⟨fun chunk => ⟨rfl, answerValidate_attachBytes chunk⟩, fun chunk tail01 s hopen hcarry hclean hfits => ?_⟩
  have hstream : (answerChunk tail01 chunk).bytes = frameStream tail01 [attachBytes chunk] := by
    rw [frameStream, List.flatMap_singleton]
    rfl
  rw [hstream]
  exact wholeStreamFunction.2 tail01 [attachBytes chunk] s hopen hcarry hclean (by simpa using hfits)

end Sys2Proof.Machine
end

section
/-! PROOF. What a step does to the host (R7, R150, R168, R211). -/

namespace Sys2Proof.Machine

/-- The agents and the offers leave the host alone; the other moves are a reset and the host's own. -/
theorem perform_host_cases {m : Move} {s t : State} (h : perform m s = .next t) :
    ((∀ keepRx keepCmd, m ≠ .rst keepRx keepCmd) ∧ t.host = s.host) ∨
    (∃ keepRx keepCmd, m = .rst keepRx keepCmd ∧ t = applyReset keepRx keepCmd s) ∨
    (∃ x, m = .host x ∧ hostMove x s = .next t) := by
  obtain ⟨w, rfl, rfl⟩ | ⟨w, rfl, rfl⟩ | ⟨rfl, h⟩ | ⟨rfl, h⟩ | ⟨rfl, h⟩ | hreset | hhost := perform_cases h
  · exact .inl ⟨nofun, rfl⟩
  · exact .inl ⟨nofun, rfl⟩
  · obtain rfl | ⟨w, ws, -, -, h⟩ := rxAgent_cases h
    · exact .inl ⟨nofun, rfl⟩
    · exact .inl ⟨nofun, (exec_sameOutside h).host⟩
  · obtain rfl | ⟨w, ws, -, h⟩ := cmdAgent_cases h
    · exact .inl ⟨nofun, rfl⟩
    · exact .inl ⟨nofun, (exec_sameOutside h).host⟩
  · obtain rfl | ⟨i, u, -, -, rfl⟩ := blockAgent_cases h <;> exact .inl ⟨nofun, rfl⟩
  · exact .inr (.inl hreset)
  · exact .inr (.inr hhost)

/-- What a step can do to the host: nothing, a reset, or a move of its own. -/
theorem step_host_cases {s t : State} (h : step s = .next t) :
    t.host = s.host ∨ t.host = resetHost s.host ∨
      ∃ x ms, s.sched = .host x :: ms ∧ hostMove x { s with sched := ms } = .next t := by
  obtain ⟨-, rfl⟩ | ⟨m, ms, hs, h⟩ := step_cases h
  · exact .inl rfl
  · obtain ⟨-, hhost⟩ | ⟨keepRx, keepCmd, -, rfl⟩ | ⟨x, rfl, h⟩ := perform_host_cases h
    · exact .inl hhost
    · exact .inr (.inl rfl)
    · exact .inr (.inr ⟨x, ms, hs, h⟩)

end Sys2Proof.Machine
end

section
/-! PROOF. The invariant of a transfer through every step (R150, R152, R155, R159 to R161). -/

namespace Sys2Proof.Machine

/-! ### What the invariant depends on -/

/-- The two states agree on what the invariant says of the host but for its call: what is fixed, the cursor, the engine's
state name, and the frames. -/
structure SameTransfer (s t : State) : Prop extends SameFixed s t where
  offset : t.host.offset = s.host.offset
  st : t.host.st = s.host.st
  frame : t.host.frame = s.host.frame
  txo : t.host.txo = s.host.txo

/-- A response keeps its place when more come behind it (R48). -/
theorem response_of_prefix {rs rs' : List Response} (h : rs <+: rs') {n : Nat} {r : Response} (hr : rs[n]? = some r) :
    rs'[n]? = some r := by
  obtain ⟨hn, hr⟩ := List.getElem?_eq_some_iff.1 hr
  rw [← hr, List.prefix_iff_getElem?.1 h n hn]

/-- A response that the engine waits for in `t` is one it waits for in `s`, and no response ahead is lost. -/
def CallKept (s t : State) : Prop :=
  ∀ n, t.host.call = .waits n → s.host.call = .waits n ∧ answersAhead s <+: answersAhead t

theorem callKept_of_order {s t : State} (hcall : t.host.call = s.host.call) (horder : OrderKept s t) : CallKept s t :=
  fun _ hn => ⟨hcall ▸ hn, horder.ahead⟩

theorem CallKept.notCalling {s t : State} (h : CallKept s t) (hs : notCalling s.host) : notCalling t.host :=
  fun n hn => hs n (h n hn).1

theorem CallKept.callGives {s t : State} (h : CallKept s t) {frame : List Byte} (hs : CallGives s frame) : CallGives t frame :=
  fun n hn =>
    have ⟨hcall, hahead⟩ := h n hn
    response_of_prefix hahead (hs n hcall)

/-- The configurations accepted (R10, R151). -/
theorem configAccepted_iff {h : HostState} : configAccepted h = true ↔ 1 ≤ h.capacity ∧ h.data.length < 2 ^ 32 := by
  rw [configAccepted, Bool.and_eq_true, decide_eq_true_eq, decide_eq_true_eq, fileLength]

/-- A call that is kept, with the rest the same, keeps the invariant. -/
theorem transferInv_congr {s t : State} (hs : TransferInv s) (same : SameTransfer s t) (hcall : CallKept s t) :
    TransferInv t := by
  obtain ⟨⟨hparams, hdata, hcapacity⟩, hoffset, hst, hframe, htxo⟩ := same
  have hconfig : configAccepted t.host = configAccepted s.host := by
    rw [Bool.eq_iff_iff, configAccepted_iff, configAccepted_iff, hdata, hcapacity]
  unfold TransferInv Wrote nextFrame at hs ⊢
  rw [hst, hconfig, hparams, hdata, hcapacity, hoffset, hframe, htxo]
  cases hst' : s.host.st <;> simp only [hst'] at hs ⊢
  case idle =>
    obtain ⟨hcursor, hnothing, haccepted, hanswer⟩ := hs
    exact ⟨hcursor, hnothing, haccepted.imp_right hcall.notCalling, hcall.callGives hanswer⟩
  case announcingSize =>
    obtain ⟨haccepted, hnone, hrest⟩ := hs
    exact ⟨haccepted, hcall.notCalling hnone, hrest⟩
  case awaitingSizeAck =>
    obtain ⟨haccepted, hcursor, hwrote, hmore, hanswer⟩ := hs
    exact ⟨haccepted, hcursor, hwrote, hmore.imp_right hcall.notCalling, hcall.callGives hanswer⟩
  case sendingChunk =>
    obtain ⟨haccepted, hnone, hrest⟩ := hs
    exact ⟨haccepted, hcall.notCalling hnone, hrest⟩
  case awaitingChunkAck =>
    obtain ⟨haccepted, k, hcursor, hsent, hwrote, hmore, hanswer⟩ := hs
    exact ⟨haccepted, k, hcursor, hsent, hwrote, hmore.imp_right hcall.notCalling, hcall.callGives hanswer⟩
  case done =>
    obtain ⟨haccepted, hnone, hrest⟩ := hs
    exact ⟨haccepted, hcall.notCalling hnone, hrest⟩

/-- The host's counts of what it has taken and of the beats transferred make no difference to it (R168). -/
theorem transferInv_counts {s : State} (hs : TransferInv s) (taken rxSent rspTaken rspSent : Nat) :
    TransferInv { s with
      host := { s.host with taken := taken, rxSent := rxSent, rspTaken := rspTaken, rspSent := rspSent } } :=
  transferInv_congr hs ⟨⟨rfl, rfl, rfl⟩, rfl, rfl, rfl, rfl⟩
    (callKept_of_order rfl (orderKept_of_offered ⟨rfl, rfl, rfl, rfl⟩ List.prefix_rfl))

/-- A reset ends the engine's call and leaves the rest (R211, log entry 25). -/
theorem transferInv_applyReset {s : State} (hs : TransferInv s) (keepRx keepCmd : Bool) :
    TransferInv (applyReset keepRx keepCmd s) :=
  transferInv_congr hs ⟨⟨rfl, rfl, rfl⟩, rfl, rfl, rfl, rfl⟩ nofun

/-! ### The engine issues a command (R155, R159) -/

/-- The host's thread is free when no call is outstanding and no command is open (R166). -/
theorem hostFree_iff {s : State} : hostFree s = true ↔ s.host.call = .idle ∧ commandOpen s = false := by
  simp [hostFree]

/-- The response that the engine then waits for is the one to its own command (R48, R65). -/
theorem callGives_issueCommand {op : CmdOp} {operand frame : List Byte} {s : State} (hfree : hostFree s = true)
    (hok : command s.params op operand = ⟨.ok, frame⟩) : CallGives (issueCommand op operand s) frame := by
  intro n hn
  obtain rfl : s.rspo.length + commandsOffered s = n := Call.waits.inj hn
  rw [answersAhead_issueCommand op operand (hostFree_iff.1 hfree).2, ← answersAhead_length, hok, List.getElem?_concat_length]

/-- `START` issues the size command, whose response is the size frame (R155, R156). -/
theorem transferInv_announceSize {s : State} (hfit : operandsFit s) (hs : TransferInv s) (hst : s.host.st = .idle)
    (haccepted : configAccepted s.host = true) (hfree : hostFree s = true) :
    TransferInv (issueCommand .frame (le32 (BitVec.ofNat 32 (fileLength s.host))) s) := by
  rw [TransferInv, hst] at hs
  obtain ⟨hoffset, htxo, -, -⟩ := hs
  have hanswer := command_of_fits (operand := le32 (BitVec.ofNat 32 (fileLength s.host))) (fun k hk => (hfit k hk).1) .frame
  rw [TransferInv, issueCommand_host, hst]
  exact ⟨hoffset, htxo, .inl haccepted, callGives_issueCommand hfree hanswer⟩

/-- The response to the command for chunk `k` is that chunk's frame (R159). -/
theorem callGives_nextFrame {s : State} (hfit : operandsFit s) (hfree : hostFree s = true) {k : Nat}
    (hoffset : s.host.offset = k * s.host.capacity) :
    CallGives (issueCommand .chunk (chunkAt s.host.data s.host.capacity s.host.offset) s) (nextFrame s k) := by
  refine callGives_issueCommand hfree ?_
  have hlength : (chunkAt s.host.data s.host.capacity s.host.offset).length ≤ s.host.capacity := by
    rw [chunkAt_eq_take]
    exact List.length_take_le _ _
  rw [command_of_fits (fun k hk => hlength.trans (hfit k hk).2) .chunk, hoffset]
  rfl

/-- The awaited token issues the next chunk's command while data remains (R157, R159). -/
theorem transferInv_nextChunk {s : State} (hfit : operandsFit s) (hs : TransferInv s) (hfree : hostFree s = true) {p : List Byte}
    (hack : acknowledges s.host.st p = true) (hmore : s.host.offset < s.host.data.length) :
    TransferInv (issueCommand .chunk (chunkAt s.host.data s.host.capacity s.host.offset) s) := by
  obtain ⟨hst, -⟩ | ⟨hst, -⟩ := acknowledges_cases hack <;> rw [TransferInv, hst] at hs <;>
    rw [TransferInv, issueCommand_host, hst]
  · obtain ⟨haccepted, hoffset, hwrote, -, -⟩ := hs
    exact ⟨haccepted, hoffset, hwrote, .inl (hoffset ▸ hmore), callGives_nextFrame hfit hfree (by rw [hoffset, Nat.zero_mul])⟩
  · obtain ⟨haccepted, k, hoffset, hsent, hwrote, -, -⟩ := hs
    exact ⟨haccepted, k, hoffset, hsent, hwrote, .inl hmore, callGives_nextFrame hfit hfree hoffset⟩

/-! ### The engine's other transitions (R152) -/

/-- `k` is the number of chunks when the first `k - 1` do not cover the file and the first `k` do (R14, R164). -/
theorem chunkCount_eq {length capacity k : Nat} (hcapacity : 1 ≤ capacity) (hbefore : ∀ j, k = j + 1 → j * capacity < length)
    (hcovers : length ≤ k * capacity) : chunkCount length capacity = k := by
  have hle : chunkCount length capacity ≤ k := by
    rw [← Nat.not_lt, lt_chunkCount_iff hcapacity, Nat.not_lt]
    exact hcovers
  cases k with
  | zero => exact Nat.le_zero.1 hle
  | succ j => exact Nat.le_antisymm hle ((lt_chunkCount_iff hcapacity j).2 (hbefore j rfl))

/-- The awaited token ends the transfer when no data remains (R161). -/
theorem transferInv_done {s : State} (hs : TransferInv s) (hidle : s.host.call = .idle) {p : List Byte}
    (hack : acknowledges s.host.st p = true) (hcovered : s.host.data.length ≤ s.host.offset) :
    TransferInv { s with host := { s.host with st := .done } } := by
  have hnone : notCalling s.host := by simp [notCalling, hidle]
  obtain ⟨haccepted, k, hoffset, hbefore, hwrote⟩ : configAccepted s.host = true ∧ ∃ k, s.host.offset = k * s.host.capacity ∧
      (∀ j, k = j + 1 → j * s.host.capacity < s.host.data.length) ∧ Wrote s k := by
    obtain ⟨hst, -⟩ | ⟨hst, -⟩ := acknowledges_cases hack <;> rw [TransferInv, hst] at hs
    · obtain ⟨haccepted, hoffset, hwrote, -, -⟩ := hs
      exact ⟨haccepted, 0, by rw [hoffset, Nat.zero_mul], nofun, hwrote⟩
    · obtain ⟨haccepted, k, hoffset, hsent, hwrote, -, -⟩ := hs
      exact ⟨haccepted, k + 1, hoffset, fun j hj => Nat.succ.inj hj ▸ hsent, hwrote⟩
  have hcount := chunkCount_eq (configAccepted_iff.1 haccepted).1 hbefore (hoffset ▸ hcovered)
  exact ⟨haccepted, hnone, by rw [hcount]; exact hoffset, hcovered, by rw [hcount]; exact hwrote⟩

/-- The response that the engine waits for becomes the frame at the gate, and it is the next one (R155, R159). -/
theorem transferInv_frameBuilt {s : State} (hs : TransferInv s) {r : Response} {n : Nat} (hr : s.rspo[n]? = some r)
    (hcall : s.host.call = .waits n) : TransferInv { s with host := frameBuilt r s.host } := by
  have hcalls : ¬ notCalling s.host := fun hnone => hnone n hcall
  have hframe {frame : List Byte} (hanswer : CallGives s frame) : r.bytes = frame := by
    have hahead := response_of_prefix (foldl_afterBeat_rspo s.cmdIn s) hr
    exact congrArg Response.bytes (Option.some.inj (hahead.symm.trans (hanswer n hcall)))
  have hidle : notCalling (frameBuilt r s.host) := nofun
  rw [TransferInv, frameBuilt_st]
  cases hst : s.host.st <;> rw [TransferInv, hst] at hs
  case idle =>
    obtain ⟨hoffset, htxo, haccepted, hanswer⟩ := hs
    exact ⟨haccepted.resolve_right hcalls, hidle, hoffset, htxo, hframe hanswer⟩
  case awaitingSizeAck =>
    obtain ⟨haccepted, hoffset, hwrote, hmore, hanswer⟩ := hs
    have hsome : s.host.offset < s.host.data.length := hoffset ▸ hmore.resolve_right hcalls
    exact ⟨haccepted, hidle, 0, by rw [Nat.zero_mul]; exact hoffset, hsome, hwrote, hframe hanswer⟩
  case awaitingChunkAck =>
    obtain ⟨haccepted, k, hoffset, -, hwrote, hmore, hanswer⟩ := hs
    exact ⟨haccepted, hidle, k + 1, hoffset, hmore.resolve_right hcalls, hwrote, hframe hanswer⟩
  case announcingSize => exact absurd hs.2.1 hcalls
  case sendingChunk => exact absurd hs.2.1 hcalls
  case done => exact absurd hs.2.1 hcalls

/-- The size frame goes through the gate (R153, R155). -/
theorem transferInv_sizeOut {s : State} (hs : TransferInv s) (hst : s.host.st = .announcingSize) :
    TransferInv { s with host := { writeFrame s.host with st := .awaitingSizeAck } } := by
  rw [TransferInv, hst] at hs
  obtain ⟨haccepted, hnone, hoffset, htxo, hframe⟩ := hs
  refine ⟨haccepted, hoffset, ?_, .inr hnone, callGives_of_notCalling (by exact hnone) _⟩
  simp [Wrote, framesWritten, htxo, hframe]

/-- A chunk frame goes through the gate, and the cursor moves by the full capacity (R153, R159, R160). -/
theorem transferInv_chunkOut {s : State} (hs : TransferInv s) (hst : s.host.st = .sendingChunk) :
    TransferInv { s with
      host := { writeFrame s.host with st := .awaitingChunkAck, offset := s.host.offset + s.host.capacity } } := by
  rw [TransferInv, hst] at hs
  obtain ⟨haccepted, hnone, k, hoffset, hmore, hwrote, hframe⟩ := hs
  refine ⟨haccepted, k, ?_, hoffset ▸ hmore, ?_, .inr hnone, callGives_of_notCalling (by exact hnone) _⟩
  · simp [hoffset, Nat.add_mul]
  · rw [Wrote] at hwrote
    simp [Wrote, framesWritten_succ, hwrote, hframe, nextFrame]

/-! ### Every step -/

/-- Every effect of a host move keeps the invariant. -/
theorem transferInv_hostEffect {s t : State} (hfit : operandsFit s) (hs : TransferInv s) (h : HostEffect s t) :
    TransferInv t := by
  cases h with
  | none => exact hs
  | started idle ok free => exact transferInv_announceSize hfit hs idle ok free
  | sizeOut st => exact transferInv_sizeOut hs st
  | chunkOut st => exact transferInv_chunkOut hs st
  | beat m n => exact transferInv_counts hs _ m _ n
  | ignored free e taken => exact transferInv_counts hs _ 0 _ _
  | next free p taken ack more => exact transferInv_nextChunk (by exact hfit) (transferInv_counts hs _ 0 _ _) free ack more
  | finished free p taken ack noMore => exact transferInv_counts (transferInv_done hs (hostFree_iff.1 free).1 ack noMore) _ 0 _ _
  | built r taken call => exact transferInv_counts (transferInv_frameBuilt hs taken call) _ _ _ 0
  | answered r taken call => exact transferInv_counts hs _ _ _ 0

/-- So does every move: where the host stays, the responses ahead stay too. -/
theorem transferInv_perform {m : Move} {s t : State} (hfit : operandsFit s) (hs : TransferInv s) (h : perform m s = .next t) :
    TransferInv t := by
  obtain ⟨hrst, hhost⟩ | ⟨keepRx, keepCmd, -, rfl⟩ | ⟨x, -, h⟩ := perform_host_cases h
  · have same : SameTransfer s t := ⟨perform_sameFixed h, by rw [hhost], by rw [hhost], by rw [hhost], by rw [hhost]⟩
    exact transferInv_congr hs same (callKept_of_order (by rw [hhost]) (orderKept_perform hrst h))
  · exact transferInv_applyReset hs keepRx keepCmd
  · exact transferInv_hostEffect hfit hs (hostMove_effect h)

/-- Settles O57: the moves to come make no difference to the invariant, and every move keeps it. -/
theorem stepKeepsTransferInvariant : Obligations.StepKeepsTransferInvariant := by
  intro s t hfit hs h
  obtain ⟨-, rfl⟩ | ⟨m, ms, -, h⟩ := step_cases h
  · exact hs
  · have hmoved : TransferInv { s with sched := ms } := transferInv_congr hs ⟨⟨rfl, rfl, rfl⟩, rfl, rfl, rfl, rfl⟩
      (callKept_of_order rfl (orderKept_elsewhere s s.rxIn ms s.wire))
    exact transferInv_perform (by exact hfit) hmoved h

end Sys2Proof.Machine
end

section
/-! PROOF. A step stops on a kill and on a failed write while a frame waits, and nowhere else (R154, R202, R213). -/

namespace Sys2Proof.Machine

/-! ### What always goes on -/

theorem rxAgent_next (s : State) : ∃ t, rxAgent s = .next t := by
  unfold rxAgent
  split
  · exact ⟨_, rfl⟩
  · split
    · exact exec_next _ _
    · exact ⟨_, rfl⟩

theorem cmdAgent_next (s : State) : ∃ t, cmdAgent s = .next t := by
  unfold cmdAgent
  split
  · exact ⟨_, rfl⟩
  · exact exec_next _ _

theorem blockAgent_next (s : State) : ∃ t, blockAgent s = .next t := by
  unfold blockAgent
  split
  · exact ⟨_, rfl⟩
  · exact exec_next _ _

theorem hostStart_next (s : State) : ∃ t, hostStart s = .next t := by
  unfold hostStart
  split <;> exact ⟨_, rfl⟩

theorem hostWritable_next (s : State) : ∃ t, hostWritable s = .next t := by
  unfold hostWritable
  split <;> exact ⟨_, rfl⟩

theorem sendNextChunk_next (s : State) : ∃ t, sendNextChunk s = .next t := by
  unfold sendNextChunk
  split <;> exact ⟨_, rfl⟩

theorem onEvent_next (e : Event) (s : State) : ∃ t, onEvent e s = .next t := by
  cases e with
  | msg p =>
    rw [onEvent, onAcknowledgement]
    split
    · exact sendNextChunk_next s
    · exact ⟨_, rfl⟩
  | err code => exact ⟨_, rfl⟩

theorem hostTakeEvent_next (s : State) : ∃ t, hostTakeEvent s = .next t := by
  unfold hostTakeEvent
  split
  · split
    · exact ⟨_, rfl⟩
    · exact onEvent_next _ _
  · exact ⟨_, rfl⟩

theorem hostRxBeat_next (s : State) : ∃ t, hostRxBeat s = .next t := by
  unfold hostRxBeat
  split
  · exact ⟨_, rfl⟩
  · exact hostTakeEvent_next s

theorem hostTakeResponse_next (s : State) : ∃ t, hostTakeResponse s = .next t := by
  unfold hostTakeResponse
  split <;> exact ⟨_, rfl⟩

theorem hostRspBeat_next (s : State) : ∃ t, hostRspBeat s = .next t := by
  unfold hostRspBeat
  split
  · exact ⟨_, rfl⟩
  · exact hostTakeResponse_next s

/-! ### What stops -/

/-- A frame waits at the gate (R152, R153). -/
def FrameWaits (s : State) : Prop := s.host.st = .announcingSize ∨ s.host.st = .sendingChunk

/-- The write of a waiting frame fails with the one fault of the host (R154). -/
theorem hostWriteFails_fault {s : State} (h : FrameWaits s) : hostWriteFails s = .fault .transportError := by
  obtain hst | hst := h <;> simp only [hostWriteFails, hst]

/-- Where no frame waits the move changes nothing. -/
theorem hostWriteFails_next {s : State} (h : ¬ FrameWaits s) : hostWriteFails s = .next s := by
  unfold hostWriteFails
  split
  next hst => exact absurd (.inl hst) h
  next hst => exact absurd (.inr hst) h
  all_goals rfl

/-- The moves that stop the run in a state. -/
def Stops (m : Move) (s : State) (f : Fault) : Prop :=
  (f = .killed ∧ m = .kill) ∨ (f = .transportError ∧ FrameWaits s ∧ m = .host .writeFails)

/-- Such a move is that fault. -/
theorem perform_of_stops {m : Move} {s : State} {f : Fault} (h : Stops m s f) : perform m s = .fault f := by
  obtain ⟨rfl, rfl⟩ | ⟨rfl, hwaits, rfl⟩ := h
  · rfl
  · exact hostWriteFails_fault hwaits

/-- Every other move goes on. -/
theorem perform_next_or_stops (m : Move) (s : State) : (∃ t, perform m s = .next t) ∨ ∃ f, Stops m s f := by
  cases m with
  | offerRx w => exact .inl ⟨_, rfl⟩
  | offerCmd w => exact .inl ⟨_, rfl⟩
  | rx => exact .inl (rxAgent_next s)
  | cmd => exact .inl (cmdAgent_next s)
  | block => exact .inl (blockAgent_next s)
  | rst keepRx keepCmd => exact .inl ⟨_, rfl⟩
  | kill => exact .inr ⟨.killed, .inl ⟨rfl, rfl⟩⟩
  | host x =>
    cases x with
    | start => exact .inl (hostStart_next s)
    | writable => exact .inl (hostWritable_next s)
    | takeEvent => exact .inl (hostTakeEvent_next s)
    | rxBeat => exact .inl (hostRxBeat_next s)
    | takeResponse => exact .inl (hostTakeResponse_next s)
    | rspBeat => exact .inl (hostRspBeat_next s)
    | writeFails =>
      by_cases hwaits : FrameWaits s
      · exact .inr ⟨.transportError, .inr ⟨rfl, hwaits, rfl⟩⟩
      · exact .inl ⟨s, hostWriteFails_next hwaits⟩

/-- A move's fault is the one it stops on. -/
theorem perform_fault_iff {m : Move} {s : State} {f : Fault} : perform m s = .fault f ↔ Stops m s f := by
  refine ⟨fun h => ?_, perform_of_stops⟩
  obtain ⟨t, ht⟩ | ⟨g, hg⟩ := perform_next_or_stops m s
  · rw [ht] at h
    cases h
  · obtain rfl : g = f := Host.Outcome.fault.inj ((perform_of_stops hg).symm.trans h)
    exact hg

/-- No move is refused. -/
theorem perform_not_refused (m : Move) (s : State) (r : Refusal) : perform m s ≠ .refused r := by
  obtain ⟨t, ht⟩ | ⟨f, hf⟩ := perform_next_or_stops m s
  · rw [ht]
    exact nofun
  · rw [perform_of_stops hf]
    exact nofun

/-- Settles O11: an idle step goes on, and else the step is its move, which stops where it is named to. -/
theorem stepStopsOnlyAsNamed : Obligations.StepStopsOnlyAsNamed := by
  intro s
  cases hs : s.sched with
  | nil =>
    have hidle : step s = .next s := by simp only [step, stepSchedule, hs]
    rw [hidle]
    exact ⟨nofun, fun f => ⟨nofun, by simp⟩⟩
  | cons m ms =>
    rw [step_of_sched hs]
    refine ⟨perform_not_refused m _, fun f => perform_fault_iff.trans ?_⟩
    simp [Stops, FrameWaits]

end Sys2Proof.Machine
end

section
/-! PROOF. One acknowledgement serves one chunk, and frames are written one at a time (R153, R157, R161, R163). -/

namespace Sys2Proof.Machine

/-- The next event is the token that the engine waits for (R157). -/
def AckOffered (s : State) : Prop :=
  (s.host.st = .awaitingSizeAck ∧ s.rxo[s.host.taken]? = some (.msg tokSizeAck)) ∨
  (s.host.st = .awaitingChunkAck ∧ s.rxo[s.host.taken]? = some (.msg tokAck))

theorem ackOffered_of_acknowledges {s : State} {p : List Byte} (htaken : s.rxo[s.host.taken]? = some (.msg p))
    (hack : acknowledges s.host.st p = true) : AckOffered s := by
  obtain ⟨hst, rfl⟩ | ⟨hst, rfl⟩ := acknowledges_cases hack
  · exact .inl ⟨hst, htaken⟩
  · exact .inr ⟨hst, htaken⟩

/-- Out of `Idle` only taking the awaited token issues a command, while data remains (R157, R159). -/
theorem HostEffect.issues {s t : State} (h : HostEffect s t) (hidle : s.host.call = .idle) (hcall : t.host.call ≠ .idle)
    (hst : s.host.st ≠ .idle) :
    AckOffered s ∧ t.host.taken = s.host.taken + 1 ∧ s.host.offset < s.host.data.length := by
  cases h with
  | started idle => exact absurd idle hst
  | next free p taken ack more => exact ⟨ackOffered_of_acknowledges taken ack, rfl, more⟩
  | built => exact absurd rfl hcall
  | _ => exact absurd hidle hcall

/-- A frame built puts the engine at the gate for a chunk from an awaiting state only (R152). -/
theorem awaiting_of_builtState {st : EngineState} (h : builtState st = .sendingChunk) (hne : st ≠ .sendingChunk) :
    st = .awaitingSizeAck ∨ st = .awaitingChunkAck := by
  cases st with
  | awaitingSizeAck => exact .inl rfl
  | awaitingChunkAck => exact .inr rfl
  | sendingChunk => exact absurd rfl hne
  | _ => cases h

theorem builtState_eq_done {st : EngineState} (h : builtState st = .done) : st = .done := by
  cases st with
  | done => rfl
  | _ => cases h

/-- Only the response to its command gets the engine to the gate for a chunk, with the response's bytes as the frame (R159). -/
theorem HostEffect.sending {s t : State} (h : HostEffect s t) (ht : t.host.st = .sendingChunk) (hs : s.host.st ≠ .sendingChunk) :
    (s.host.st = .awaitingSizeAck ∨ s.host.st = .awaitingChunkAck) ∧ s.host.call = .waits s.host.rspTaken ∧
      t.host.call = .idle ∧ ∃ r, s.rspo[s.host.rspTaken]? = some r ∧ t.host.frame = r.bytes := by
  cases h with
  | built r taken call => exact ⟨awaiting_of_builtState ht hs, call, rfl, r, taken, rfl⟩
  | sizeOut => cases ht
  | chunkOut => cases ht
  | finished => cases ht
  | _ => exact absurd ht hs

/-- Only taking the awaited token with the file covered ends the transfer (R161). -/
theorem HostEffect.ends {s t : State} (h : HostEffect s t) (ht : t.host.st = .done) (hs : s.host.st ≠ .done) :
    AckOffered s ∧ t.host.taken = s.host.taken + 1 ∧ s.host.data.length ≤ s.host.offset := by
  cases h with
  | finished free p taken ack noMore => exact ⟨ackOffered_of_acknowledges taken ack, rfl, noMore⟩
  | built => exact absurd (builtState_eq_done ht) hs
  | sizeOut => cases ht
  | chunkOut => cases ht
  | _ => exact absurd ht hs

/-- Only the gate writes, the waiting frame and no other (R153, R154). -/
theorem HostEffect.writes {s t : State} (h : HostEffect s t) (htxo : t.host.txo ≠ s.host.txo) :
    t.host.txo = s.host.txo ++ [s.host.frame] ∧
      ((s.host.st = .announcingSize ∧ t.host.st = .awaitingSizeAck) ∨
       (s.host.st = .sendingChunk ∧ t.host.st = .awaitingChunkAck)) := by
  cases h with
  | sizeOut st => exact ⟨rfl, .inl ⟨st, rfl⟩⟩
  | chunkOut st => exact ⟨rfl, .inr ⟨st, rfl⟩⟩
  | _ => exact absurd rfl htxo

/-- Settles O56: where the host stays, or is reset, no clause applies, and else each is about one effect of a host move. -/
theorem pacingOfChunks : Obligations.PacingOfChunks := by
  intro s t h
  obtain hhost | hhost | ⟨x, ms, -, h⟩ := step_host_cases h
  · rw [hhost]
    exact ⟨fun hidle hcall => absurd hidle hcall, fun ht hs => absurd ht hs, fun ht hs => absurd ht hs,
      fun htxo => absurd rfl htxo⟩
  · rw [hhost]
    exact ⟨fun _ hcall => absurd rfl hcall, fun ht hs => absurd ht hs, fun ht hs => absurd ht hs, fun htxo => absurd rfl htxo⟩
  · have heffect := hostMove_effect h
    exact ⟨heffect.issues, heffect.sending, heffect.ends, heffect.writes⟩

end Sys2Proof.Machine
end

section
/-! PROOF. The chunks of a file (R159, R164). -/

namespace Sys2Proof.Machine

/-- Chunk `k` is at most `C` bytes from `k * C` on (R164). -/
theorem chunkOf_eq_take (content : List Byte) (c k : Nat) : chunkOf content c k = (content.drop (k * c)).take c :=
  chunkAt_eq_take content c (k * c)

theorem chunkOf_length (content : List Byte) (c k : Nat) : (chunkOf content c k).length = min c (content.length - k * c) := by
  rw [chunkOf_eq_take, List.length_take, List.length_drop]

/-- The first `n` chunks are the first `n * C` bytes. -/
theorem flatMap_chunkOf (content : List Byte) (c n : Nat) :
    (List.range n).flatMap (chunkOf content c) = content.take (n * c) := by
  induction n with
  | zero => simp
  | succ n ih =>
    rw [List.range_succ, List.flatMap_append, ih, List.flatMap_singleton, chunkOf_eq_take, Nat.succ_mul, List.take_add]

/-- Settles O58: chunk `k` is there when it starts inside the file, so all of them together cover it. -/
theorem chunkCoverage : Obligations.ChunkCoverage := by
  intro content c hc
  refine ⟨?_, fun k hk => ?_, fun k hk => ?_⟩
  · rw [flatMap_chunkOf]
    apply List.take_of_length_le
    rw [← Nat.not_lt, ← lt_chunkCount_iff hc]
    exact Nat.lt_irrefl _
  · rw [lt_chunkCount_iff hc, Nat.succ_mul] at hk
    rw [chunkOf_length]
    omega
  · rw [lt_chunkCount_iff hc] at hk
    rw [chunkOf_length]
    exact ⟨by omega, by omega, answerValidate_attachBytes _⟩

end Sys2Proof.Machine
end

section
/-! PROOF. `START` (R151, R152, R156). -/

namespace Sys2Proof.Machine

/-- Settles O53: the two clauses are the two branches of the model's test. -/
theorem startAnnouncesSize : Obligations.StartAnnouncesSize := by
  intro s ms hs
  rw [step_of_sched hs]
  refine ⟨fun hst hcapacity hlength hfree => if_pos ⟨hst, configAccepted_iff.2 ⟨hcapacity, hlength⟩, hfree⟩,
    fun hrefused => if_neg ?_⟩
  rintro ⟨hst, haccepted, hfree⟩
  obtain ⟨hcapacity, hlength⟩ := configAccepted_iff.1 haccepted
  obtain hne | hzero | hlong | hbusy := hrefused
  · exact hne hst
  · exact Nat.ne_of_gt hcapacity hzero
  · exact Nat.not_lt.2 hlong hlength
  · exact Bool.false_ne_true (hbusy.symm.trans hfree)

end Sys2Proof.Machine
end

section
/-! PROOF. A stalled engine stays where it is (R162, R222, R234). -/

namespace Sys2Proof.Machine

/-- The engine waits for an acknowledgement: it is in an awaiting state with no command outstanding (R152, R159). -/
theorem hostWaiting_iff {s : State} :
    hostWaiting s = true ↔ (s.host.st = .awaitingSizeAck ∨ s.host.st = .awaitingChunkAck) ∧ s.host.call = .idle := by
  simp [hostWaiting]

/-- The engine is where it was, with nothing written and no command outstanding. -/
structure StillWaiting (h h' : HostState) : Prop where
  st : h'.st = h.st
  offset : h'.offset = h.offset
  txo : h'.txo = h.txo
  call : h'.call = .idle

theorem StillWaiting.hostWaiting {s t : State} (h : StillWaiting s.host t.host) (hs : hostWaiting s = true) :
    hostWaiting t = true :=
  hostWaiting_iff.2 ⟨h.st ▸ (hostWaiting_iff.1 hs).1, h.call⟩

/-! ### A move of the host with no acknowledgement -/

/-- The host is not about to take the token that the engine waits for. -/
def NoToken (s : State) : Prop :=
  hostFree s = true → ∀ p, s.rxo[s.host.taken]? = some (.msg p) → acknowledges s.host.st p = false

theorem noToken_of_takeEvent {s : State} {ms : List Move} (hs : s.sched = .host .takeEvent :: ms) (h : ackArrives s = false) :
    NoToken s := by
  intro hfree p hp
  simpa [ackArrives, hs, hfree, hp] using h

theorem noToken_of_lastBeat {s : State} {ms : List Move} (hs : s.sched = .host .rxBeat :: ms) (hlast : moreRxBeats s = false)
    (h : ackArrives s = false) : NoToken s := by
  intro hfree p hp
  simpa [ackArrives, hs, hlast, hfree, hp] using h

/-- Taking an event that is no such token leaves the engine waiting (R157, R158). -/
theorem hostTakeEvent_stillWaiting {s t : State} (hidle : s.host.call = .idle) (hno : NoToken s)
    (h : hostTakeEvent s = .next t) : StillWaiting s.host t.host := by
  obtain rfl | ⟨hfree, ⟨code, -, rfl⟩ | ⟨p, hp, h⟩⟩ := hostTakeEvent_cases h
  · exact ⟨rfl, rfl, rfl, hidle⟩
  · exact ⟨rfl, rfl, rfl, hidle⟩
  · obtain ⟨hack, -⟩ | ⟨-, rfl⟩ := onAcknowledgement_cases h
    · exact absurd (hno hfree p hp) (by simpa using hack)
    · exact ⟨rfl, rfl, rfl, hidle⟩

/-- Taking a response leaves it waiting, since it waits for none. -/
theorem hostTakeResponse_stillWaiting {s t : State} (hidle : s.host.call = .idle) (h : hostTakeResponse s = .next t) :
    StillWaiting s.host t.host := by
  obtain rfl | ⟨r, -, ⟨hcall, -⟩ | ⟨-, rfl⟩⟩ := hostTakeResponse_cases h
  · exact ⟨rfl, rfl, rfl, hidle⟩
  · rw [hidle] at hcall
    cases hcall
  · exact ⟨rfl, rfl, rfl, hidle⟩

/-- No move of the host ends the wait but the one that takes the token: there is no time-out and no retry (R162). -/
theorem hostMove_stillWaiting {x : HostMove} {s t : State} {ms : List Move} (hs : s.sched = .host x :: ms)
    (hwaiting : hostWaiting s = true) (hno : ackArrives s = false) (h : hostMove x { s with sched := ms } = .next t) :
    StillWaiting s.host t.host := by
  obtain ⟨hst, hidle⟩ := hostWaiting_iff.1 hwaiting
  cases x with
  | start =>
    obtain ⟨hstart, -⟩ | rfl := hostStart_cases h
    · simp [show s.host.st = .idle from hstart] at hst
    · exact ⟨rfl, rfl, rfl, hidle⟩
  | writable =>
    obtain ⟨hgate, -⟩ | ⟨hgate, -⟩ | ⟨-, -, rfl⟩ := hostWritable_cases h
    · simp [show s.host.st = .announcingSize from hgate] at hst
    · simp [show s.host.st = .sendingChunk from hgate] at hst
    · exact ⟨rfl, rfl, rfl, hidle⟩
  | writeFails =>
    obtain ⟨-, -, rfl⟩ := hostWriteFails_cases h
    exact ⟨rfl, rfl, rfl, hidle⟩
  | takeEvent =>
    have htoken : NoToken s := noToken_of_takeEvent hs hno
    exact hostTakeEvent_stillWaiting (s := { s with sched := ms }) hidle htoken h
  | rxBeat =>
    obtain ⟨-, rfl⟩ | ⟨hlast, h⟩ := hostRxBeat_cases h
    · exact ⟨rfl, rfl, rfl, hidle⟩
    · have htoken : NoToken s := noToken_of_lastBeat hs hlast hno
      exact hostTakeEvent_stillWaiting (s := { s with sched := ms }) hidle htoken h
  | takeResponse =>
    exact hostTakeResponse_stillWaiting (s := { s with sched := ms }) hidle h
  | rspBeat =>
    obtain ⟨-, rfl⟩ | ⟨-, h⟩ := hostRspBeat_cases h
    · exact ⟨rfl, rfl, rfl, hidle⟩
    · exact hostTakeResponse_stillWaiting (s := { s with sched := ms }) hidle h

/-! ### A step, and any number of steps -/

/-- So does every step with no acknowledgement: a reset leaves the engine's state name, cursor and frames (R211). -/
theorem step_stillWaiting {s t : State} (hwaiting : hostWaiting s = true) (hno : ackArrives s = false) (h : step s = .next t) :
    StillWaiting s.host t.host := by
  obtain hhost | hhost | ⟨x, ms, hs, h⟩ := step_host_cases h
  · rw [hhost]
    exact ⟨rfl, rfl, rfl, (hostWaiting_iff.1 hwaiting).2⟩
  · rw [hhost]
    exact ⟨rfl, rfl, rfl, rfl⟩
  · exact hostMove_stillWaiting hs hwaiting hno h

/-- No move writes the schedule (log entry 2). -/
theorem perform_sched {m : Move} {s t : State} (h : perform m s = .next t) : t.sched = s.sched := by
  obtain ⟨w, -, rfl⟩ | ⟨w, -, rfl⟩ | ⟨-, h⟩ | ⟨-, h⟩ | ⟨-, h⟩ | ⟨keepRx, keepCmd, -, rfl⟩ | ⟨x, -, h⟩ := perform_cases h
  · rfl
  · rfl
  · obtain rfl | ⟨w, ws, -, -, h⟩ := rxAgent_cases h
    · rfl
    · exact (exec_sameOutside h).sched
  · obtain rfl | ⟨w, ws, -, h⟩ := cmdAgent_cases h
    · rfl
    · exact (exec_sameOutside h).sched
  · obtain rfl | ⟨i, u, -, -, rfl⟩ := blockAgent_cases h <;> rfl
  · rfl
  · exact (hostMove_sameBlock h).sched

/-- A step of a stalled run with moves left: no acknowledgement arrives in it, nor in what is left of the run. -/
theorem noAckWithin_succ {n : Nat} {s t : State} (h : noAckWithin (n + 1) s = true) (ht : step s = .next t) :
    ackArrives s = false ∧ noAckWithin n t = true := by
  simpa [noAckWithin, ht] using h

/-- A step of a stalled run leaves the engine where it is, and the run stalled (R222, R234). -/
theorem step_stalled {s t : State} (hs : hostStalled s = true) (h : step s = .next t) :
    StillWaiting s.host t.host ∧ hostStalled t = true := by
  obtain ⟨hwaiting, hno⟩ := Bool.and_eq_true_iff.1 hs
  obtain ⟨-, rfl⟩ | ⟨m, ms, hsched, hperform⟩ := step_cases h
  · exact ⟨⟨rfl, rfl, rfl, (hostWaiting_iff.1 hwaiting).2⟩, hs⟩
  · rw [hsched, List.length_cons] at hno
    obtain ⟨harrives, hrest⟩ := noAckWithin_succ hno h
    have hstill := step_stillWaiting hwaiting harrives h
    have hmoves : t.sched = ms := perform_sched hperform
    exact ⟨hstill, Bool.and_eq_true_iff.2 ⟨hstill.hostWaiting hwaiting, by rw [hmoves]; exact hrest⟩⟩

/-- Steps that go on begin with a step that goes on. -/
theorem runSteps_succ_cases {k : Nat} {s t : State} (h : runSteps (k + 1) s = .next t) :
    ∃ u, step s = .next u ∧ runSteps k u = .next t := by
  rw [runSteps] at h
  cases hu : step s with
  | next u => exact ⟨u, rfl, by rwa [hu] at h⟩
  | fault f => rw [hu] at h; cases h
  | refused r => rw [hu] at h; cases h

/-- Settles O60, by induction on the steps. -/
theorem stalledEngineStays : Obligations.StalledEngineStays := by
  intro s hs k
  induction k generalizing s with
  | zero =>
    rintro t ⟨⟩
    exact ⟨rfl, rfl, rfl⟩
  | succ k ih =>
    intro t h
    obtain ⟨u, hu, h⟩ := runSteps_succ_cases h
    obtain ⟨⟨hst, hoffset, htxo, -⟩, hstalled⟩ := step_stalled hs hu
    obtain ⟨hst', hoffset', htxo'⟩ := ih u hstalled t h
    exact ⟨hst'.trans hst, hoffset'.trans hoffset, htxo'.trans htxo⟩

end Sys2Proof.Machine
end

section
/-! PROOF. The waiting block: with nothing offered, or with no room for events, a move changes nothing but the schedule (R201, R226, U24). -/

namespace Sys2Proof.Machine

/-- With no move left a step changes nothing (R201). -/
theorem step_of_sched_nil {s : State} (h : s.sched = []) : step s = .next s := by
  simp [step, stepSchedule, h]

/-- The RX agent with no beat offered keeps all state (R201). -/
theorem rxAgent_idle {s : State} (h : s.rxIn = []) : rxAgent s = .next s := by
  simp [rxAgent, h]

/-- The command agent with no beat offered keeps all state (R201). -/
theorem cmdAgent_idle {s : State} (h : s.cmdIn = []) : cmdAgent s = .next s := by
  simp [cmdAgent, h]

/-- While the block holds as many events as it can, it is not ready (R226). -/
theorem rxReady_full {s : State} {k : Nat} (hcap : s.params.evCap = some k) (hheld : k ≤ heldEvents s) : rxReady s = false := by
  simp [rxReady, hcap, hheld]

/-- Settles O7: with no beat offered an agent idles, and with no room for an event the RX agent is not ready. -/
theorem waitingBlockKeepsState : Obligations.WaitingBlockKeepsState := by
  intro s ms
  refine ⟨step_of_sched_nil, fun hs hrx => ?_, fun hs hcmd => ?_, fun k hcap hheld hs => ?_⟩
  · rw [step_of_sched hs]
    exact rxAgent_idle (s := { s with sched := ms }) hrx
  · rw [step_of_sched hs]
    exact cmdAgent_idle (s := { s with sched := ms }) hcmd
  · rw [step_of_sched hs]
    exact rxAgent_not_ready (s := { s with sched := ms }) (rxReady_full hcap hheld)

end Sys2Proof.Machine
end
